-- ==== Sys2Proof/Word.lean ====
section
/-! DEFINITION. The machine's words. -/

namespace Sys2Proof

/-- A `u64` (00_scope R8) and the word of the host port (20_memory R60). -/
abbrev Word := BitVec 64

/-- A host address: `ADDR_W` = 11 bits, naming one of 2048 words (20_memory R60). -/
abbrev Addr := BitVec 11

/-- A row of the stream file, 0 to 12 (10_state R30). -/
abbrev StreamId := Fin 13

/-- The 13 stream identifiers in the order the manager's loops run through them. -/
def allStreams : List StreamId := [0, 1, 2, 3, 4, 5, 6, 7, 8, 9, 10, 11, 12]

/-- `sid` 0, named `card` (10_state R31): the only stream that `ACT_SNAP` touches. -/
def cardStream : StreamId := 0

/-- `sid` 12, named `map` (10_state R31): the per-act stream. -/
def mapStream : StreamId := 12

/-- `CTR_MAX` = 2^32 - 1 (00_scope R6). -/
def ctrMax : Nat := 2 ^ 32 - 1

/-- `ITEM_DEPTH` (00_scope R6). -/
def itemDepth : Nat := 1024

/-- `REWARD_DEPTH` (00_scope R6). -/
def rewardDepth : Nat := 16

end Sys2Proof
end

