-- ==== Sys2Proof/Syntax.lean ====
section
/-! DEFINITION. The 21 commands of 30_encoding R83, one constructor for each row of
spec/opcode_table.json. Operands other than `sid` are not part of a command word (R80): they stand in
`OPA`, `OPB` and `SNAP`. -/

namespace Sys2Proof

/-- A command. The `sid` of a format S command is the four-bit field of the word, bits 11:8 (R80). -/
inductive Instr where
  | nop
  | clrerr
  | init
  | restore
  | floorAdv
  | actSeed
  | actSnap
  | snapshot
  | checkpoint
  | rollback
  | pityReset
  | streamNew (sid : BitVec 4)
  | drawBounded (sid : BitVec 4)
  | drawRange (sid : BitVec 4)
  | drawBool (sid : BitVec 4)
  | drawChance (sid : BitVec 4)
  | drawFloat (sid : BitVec 4)
  | drawLong (sid : BitVec 4)
  | shuffle (sid : BitVec 4)
  | rollRarity (sid : BitVec 4)
  | genRewards (sid : BitVec 4)
deriving DecidableEq, Repr

/-- The `sid` field of a command: the stream's number in format S, absent in format N (30_encoding R81). -/
def Instr.sid? : Instr → Option (BitVec 4)
  | .nop | .clrerr | .init | .restore | .floorAdv | .actSeed | .actSnap | .snapshot | .checkpoint
  | .rollback | .pityReset => none
  | .streamNew sid | .drawBounded sid | .drawRange sid | .drawBool sid | .drawChance sid
  | .drawFloat sid | .drawLong sid | .shuffle sid | .rollRarity sid | .genRewards sid => some sid

end Sys2Proof
end

