-- ==== Sys2Proof/WellFormed.lean ====
section
/-! DEFINITION. Which commands have a legal stream field (30_encoding R81: `sid <= 12`). -/

namespace Sys2Proof

/-- Stream numbers 13 to 15 are reserved (10_state R31). -/
def legalSid (sid : BitVec 4) : Bool := decide (sid.toNat ≤ 12)

/-- A command "with a legal `sid`" (30_encoding R84). -/
def Instr.wellFormed (i : Instr) : Bool :=
  match i.sid? with
  | none => true
  | some sid => legalSid sid

end Sys2Proof
end

