-- ==== Sys2Proof/Decode.lean ====
section
/-! DEFINITION. The decoder of 30_encoding R84 and R88, total on 64-bit words and rejecting by name, and
after it the encoder, written from the opcode map of R83. -/

namespace Sys2Proof

/-- What the decoder makes of a word: "every 64-bit word is either one of the 21 commands with a legal
`sid`, or fails with one of these two codes" (30_encoding R84). -/
inductive Decoded where
  | command (i : Instr)
  /-- The word fails with `E_ILLEGAL_CMD`. -/
  | illegalCmd
  /-- The word fails with `E_BAD_STREAM`. -/
  | badStream
deriving DecidableEq, Repr

/-- Bits 7:0 of the command word (30_encoding R80). -/
def opcodeField (w : Word) : BitVec 8 := w.extractLsb' 0 8

/-- Bits 11:8 of the command word (30_encoding R80). -/
def sidField (w : Word) : BitVec 4 := w.extractLsb' 8 4

/-- Bits 63:12 of the command word, which must be zero (30_encoding R80). -/
def zeroField (w : Word) : BitVec 52 := w.extractLsb' 12 52

/-- Format N: the stream field must be 0 (30_encoding R81, R84). -/
def decodeN (i : Instr) (sid : BitVec 4) : Decoded :=
  if sid = 0 then .command i else .illegalCmd

/-- Format S: the stream field must be at most 12 (30_encoding R81, R84). -/
def decodeS (i : BitVec 4 → Instr) (sid : BitVec 4) : Decoded :=
  if legalSid sid then .command (i sid) else .badStream

/-- The opcode map of 30_encoding R83; every other opcode is illegal (R84). -/
def decodeOpcode (opcode : Nat) (sid : BitVec 4) : Decoded :=
  match opcode with
  | 0x00 => decodeN .nop sid
  | 0x01 => decodeN .clrerr sid
  | 0x02 => decodeN .init sid
  | 0x03 => decodeN .restore sid
  | 0x04 => decodeN .floorAdv sid
  | 0x05 => decodeN .actSeed sid
  | 0x06 => decodeN .actSnap sid
  | 0x07 => decodeN .snapshot sid
  | 0x08 => decodeN .checkpoint sid
  | 0x09 => decodeN .rollback sid
  | 0x0A => decodeN .pityReset sid
  | 0x10 => decodeS .streamNew sid
  | 0x11 => decodeS .drawBounded sid
  | 0x12 => decodeS .drawRange sid
  | 0x13 => decodeS .drawBool sid
  | 0x14 => decodeS .drawChance sid
  | 0x15 => decodeS .drawFloat sid
  | 0x16 => decodeS .drawLong sid
  | 0x20 => decodeS .shuffle sid
  | 0x21 => decodeS .rollRarity sid
  | 0x22 => decodeS .genRewards sid
  | _ => .illegalCmd

/-- The decoder, in the order of 30_encoding R88: bits 63:12, the opcode, the stream field. -/
def decode (w : Word) : Decoded :=
  if zeroField w = 0 then decodeOpcode (opcodeField w).toNat (sidField w) else .illegalCmd

/-- The opcode of a command (30_encoding R83). -/
def Instr.opcode : Instr → BitVec 8
  | .nop => 0x00
  | .clrerr => 0x01
  | .init => 0x02
  | .restore => 0x03
  | .floorAdv => 0x04
  | .actSeed => 0x05
  | .actSnap => 0x06
  | .snapshot => 0x07
  | .checkpoint => 0x08
  | .rollback => 0x09
  | .pityReset => 0x0A
  | .streamNew _ => 0x10
  | .drawBounded _ => 0x11
  | .drawRange _ => 0x12
  | .drawBool _ => 0x13
  | .drawChance _ => 0x14
  | .drawFloat _ => 0x15
  | .drawLong _ => 0x16
  | .shuffle _ => 0x20
  | .rollRarity _ => 0x21
  | .genRewards _ => 0x22

/-- The command word `opcode + 256*sid` (30_encoding R83), with bits 63:12 zero and `sid` 0 in format N. -/
def encode (i : Instr) : Word :=
  (0#52 ++ i.sid?.getD 0 ++ i.opcode : BitVec 64)

/-- The word `w` of `nbits` bits with every bit above them zero, as written to `CMD`. -/
def tableWord (nbits w : Nat) : Word := BitVec.ofNat 64 (w % 2 ^ nbits)

/-- What the decoder reads from a word of the opcode table, whose match and mask are over bits 31:0
(30_encoding R81: "every row also requires bits 63:32 to be zero"). -/
def decodeTableWord (nbits w : Nat) : Option Instr :=
  match decode (tableWord nbits w) with
  | .command i => some i
  | .illegalCmd => none
  | .badStream => none

end Sys2Proof
end

