-- ==== Sys2Proof/Config.lean ====
section
/-! DEFINITION. What the spec leaves to an implementation: the OPEN parameters of 00_scope R6 with their
defaults, the fuel of the rejection loop, and the one free value. -/

namespace Sys2Proof

/-- The parameters that 00_scope R6 marks OPEN, as plain data. A well-formed value is the only value:
the two multipliers are odd (40_generator R100: "two fixed odd 64-bit constants") and there is at least
one act. DESIGN CHOICE (log 7): they stand in `State.params`, which no step writes, so that a claim about
every state is a claim about every choice of them. -/
structure Config where
  /-- `FMIX_C1`, the finalizer's first multiplier (40_generator R100). -/
  fmixC1 : Word
  /-- `FMIX_C2`, the finalizer's second multiplier. -/
  fmixC2 : Word
  /-- `BOUNDED_RAW`: the lowest of the 63 neighbouring bits of a raw draw that make `bits` (41_draws R121). -/
  boundedLow : Fin 2
  /-- `FLOAT_RAW`: the lowest of the 24 neighbouring bits of a raw draw that make `m` (41_draws R124). -/
  floatLow : Fin 41
  /-- `ACT_OFFSET`; its length is `N_ACTS` (42_stream_manager R150). -/
  actOffset : List Word
  fmixC1_odd : fmixC1.getLsbD 0 = true
  fmixC2_odd : fmixC2.getLsbD 0 = true
  actOffset_ne_nil : actOffset ≠ []
deriving DecidableEq, Repr

/-- `N_ACTS`. -/
def Config.nActs (p : Config) : Nat := p.actOffset.length

/-- The defaults of 00_scope R6. PRESUMED by the spec itself ("from general knowledge, not in source",
93_implementation_defined G1, G3, G4, G6; log 8). -/
def Config.default : Config where
  fmixC1 := 0xFF51AFD7ED558CCD
  fmixC2 := 0xC4CEB9FE1A85EC53
  boundedLow := 1
  floatLow := 40
  actOffset := [1, 200, 600, 1200]
  fmixC1_odd := by decide
  fmixC2_odd := by decide
  actOffset_ne_nil := by decide

/-- `ZERO_SEED_SENTINEL`, the bit pattern of -2^63 (00_scope R6, 40_generator R101; log 13). -/
def Config.zeroSeedSentinel : Word := 0x8000000000000000

/-- `REDRAW_FUEL` of 93_implementation_defined U4, taken as the number of generator pairs `(S0, S1)`.
DESIGN CHOICE (log 9): a rejection loop that has used up this fuel has met every pair it will ever meet
and rejected each, so it would never end. -/
def Config.redrawFuel : Nat := 2 ^ 128

/-- How many times the duplicate loop of `GEN_REWARDS` may run (44_reward R194). Each pass counts a draw,
so this is one more than the counter can grow (log 10). -/
def Config.duplicateFuel : Nat := 2 ^ 32

/-- FREE VALUE (log 4): what `ITEM[k]` holds after the `n`-th hardware reset until it is written
(10_state R50: "each entry holds some 64-bit value the model must not assume"; U6: any value). -/
opaque Config.itemAfterReset : (n k : Nat) → Word

end Sys2Proof
end

