-- ==== Sys2Proof/Machine/State.lean ====
section
/-! DEFINITION. The state of the block (10_state R20), the host's side of its port (20_memory R60), the
reasons a step can stop, and the state after hardware reset (10_state R50). -/

namespace Sys2Proof.Machine

/-- The seven error codes (60_exceptions R220). The code 0, "no error", is `none : Option Err` (log 15);
93_implementation_defined U13: "a model's error type has exactly the seven codes and `OK`". -/
inductive Err where
  | illegalCmd
  | badStream
  | notInit
  | badArg
  | ctrOvf
  | poolExhausted
  | noCkpt
deriving DecidableEq, Repr

/-- `STATUS`, by its fields (10_state R25); its reserved bits are not stored and read 0. -/
structure Status where
  init : Bool
  ckpt : Bool
  err : Option Err
  errFirst : Option Err
  errCmd : BitVec 12
deriving DecidableEq, Repr

/-- One row of the stream file: the generator pair and the call counter (10_state R30). -/
structure Row where
  s0 : Word
  s1 : Word
  ctr : BitVec 32
deriving DecidableEq, Repr

/-- The manager: its registers (10_state R26) and the 13 rows (10_state R30). The shadow bank is a second
one (10_state R33). Two managers are equal when all of it is equal (42_stream_manager R161). -/
structure Manager where
  baseSeed : Word
  floor : BitVec 32
  act : BitVec 8
  rows : Vector Row 13
deriving DecidableEq, Repr

/-- The reward configuration that only the host writes (10_state R40 to R42, R44, R45). -/
structure RewardConfig where
  /-- `CTRL.PITY_DIS`. -/
  pityDis : Bool
  /-- `CTRL.UPG_MODE`. -/
  upgMode : BitVec 2
  rarePct : BitVec 16
  uncPct : BitVec 16
  pityStart : BitVec 16
  pityFloor : BitVec 16
  pityStep : BitVec 16
  upgP : BitVec 32
  /-- `POOL_SIZE[0]`, `POOL_SIZE[1]`, `POOL_SIZE[2]`. -/
  poolCommon : BitVec 31
  poolUncommon : BitVec 31
  poolRare : BitVec 31
deriving DecidableEq, Repr

/-- The three rarities (44_reward R190). -/
inductive Rarity where
  | common
  | uncommon
  | rare
deriving DecidableEq, Repr

/-- One entry of `REWARD`, by its fields (10_state R47); its other bits are always 0 (log 15). -/
structure RewardSlot where
  index : BitVec 31
  rarity : Rarity
  upg : Bool
  valid : Bool
deriving DecidableEq, Repr

/-- The item memory: the entries of `ITEM` written since the last reset, each once, entry numbers rising
(log 5). An entry that is not listed has not been written since the reset. -/
abbrev Memory := List (Nat × Word)

/-- "The whole state of the block is the following, and nothing else" (10_state R20). -/
structure Block where
  cmd : Word
  status : Status
  opa : Word
  opb : Word
  res0 : Word
  res1 : Word
  mgr : Manager
  /-- The shadow bank (10_state R33). -/
  shadow : Manager
  cfg : RewardConfig
  /-- `PITY_OFFSET` (10_state R43). -/
  pityOffset : BitVec 16
  snap : Vector (BitVec 32) 13
  reward : Vector RewardSlot 16
  items : Memory
deriving DecidableEq, Repr

/-- A host move (20_memory R60). -/
inductive HostMove where
  | write (a : Addr) (v : Word)
  | read (a : Addr)
  | reset
deriving DecidableEq, Repr

/-- The machine: the block, and beside it what the model adds so that one deterministic step can be
taken (00_scope R5: `step : State -> HostMove -> State x Option Word`). -/
structure State where
  /-- The parameters of the block (log 7). No step writes them. -/
  params : Config
  block : Block
  /-- The host moves not yet made, oldest first (log 1). -/
  moves : List HostMove
  /-- The word the last host move returned, if it returned one (log 3). -/
  readData : Option Word
  /-- How many hardware resets have been made: the counter of the free value (log 4). -/
  resets : Nat
deriving DecidableEq, Repr

/-- Why a step can stop with a fault. -/
inductive Fault where
  /-- Raised by every command that makes a bounded or range draw, through `Bounded`, when the rejection
  loop of 41_draws R121 never accepts. It is the "stuck" of 93_implementation_defined U4: "it produces no
  next state and no claim holds beyond that point". Safe (log 9): the loop would run for ever. -/
  | redrawNeverEnds
deriving DecidableEq, Repr

/-- Why a step can have no meaning. -/
inductive Refusal where
  /-- Raised by an arm of `exec` whose command has no meaning yet; no arm of this model does. Safe. -/
  | notModelled (mnemonic : String)
deriving DecidableEq, Repr

/-- A row of zeros, "not a legal generator state; guarded by `INIT` = 0" (10_state R50). -/
def Row.zero : Row := ⟨0, 0, 0⟩

/-- The manager and the shadow bank after reset (10_state R50). -/
def Manager.zero : Manager := ⟨0, 0, 0, Vector.replicate 13 Row.zero⟩

/-- An entry of `REWARD` that reads 0 (10_state R47). -/
def RewardSlot.empty : RewardSlot := ⟨0, .common, false, false⟩

/-- The block after hardware reset: everything 0, `ITEM` unspecified (10_state R50). -/
def Block.reset : Block where
  cmd := 0
  status := ⟨false, false, none, none, 0⟩
  opa := 0
  opb := 0
  res0 := 0
  res1 := 0
  mgr := Manager.zero
  shadow := Manager.zero
  cfg := ⟨false, 0, 0, 0, 0, 0, 0, 0, 0, 0, 0⟩
  pityOffset := 0
  snap := Vector.replicate 13 0
  reward := Vector.replicate 16 RewardSlot.empty
  items := []

/-- The machine right after hardware reset. The spec's state is as 10_state R50 says. DESIGN CHOICE for
the model's own fields: no move is pending (log 2), nothing has been returned (log 3), the reset counter
is 0 (log 4), the parameters are the defaults of 00_scope R6 (log 7, log 8). -/
def State.reset : State where
  params := Config.default
  block := Block.reset
  moves := []
  readData := none
  resets := 0

end Sys2Proof.Machine
end

