-- ==== Sys2Proof/Machine/Ops.lean ====
section
/-! DEFINITION. The named operations every meaning is built from: the item memory, the registers, the
result of a command's rule, raising an error (60_exceptions R221) and its counterpart (R225), and the
checks that come before a command's rule (30_encoding R88). -/

namespace Sys2Proof.Machine

/-! ### The item memory (10_state R48) -/

/-- The canonical form (log 5): entry numbers strictly rising, each below `ITEM_DEPTH`. -/
def Memory.wf (m : Memory) : Bool :=
  decide (m.Pairwise fun c d => c.1 < d.1) && m.all fun c => decide (c.1 < itemDepth)

/-- The word written to entry `k` since the last reset, if one was. -/
def Memory.read? : Memory → Nat → Option Word
  | [], _ => none
  | (a, v) :: m, k => if a = k then some v else Memory.read? m k

/-- Write entry `k`, keeping the canonical form. -/
def Memory.write : Memory → Nat → Word → Memory
  | [], k, v => [(k, v)]
  | (a, u) :: m, k, v =>
    if k < a then (k, v) :: (a, u) :: m
    else if k = a then (k, v) :: m
    else (a, u) :: Memory.write m k v

/-- `ITEM[k]`: what was last written to it, else the free value of the last reset (10_state R50; log 4). -/
def State.item (s : State) (k : Nat) : Word :=
  (s.block.items.read? k).getD (Config.itemAfterReset s.resets k)

/-- `ITEM[k] <- v`. -/
def State.setItem (k : Nat) (v : Word) (s : State) : State :=
  { s with block := { s.block with items := s.block.items.write k v } }

/-! ### Registers -/

/-- Row `i` of the stream file. -/
def Manager.row (m : Manager) (i : StreamId) : Row := m.rows[i.val]

/-- Row `i` of the stream file (10_state R30). -/
def State.row (s : State) (i : StreamId) : Row := s.block.mgr.row i

/-- Replace row `i` and no other (10_state R30, R34). -/
def State.setRow (i : StreamId) (r : Row) (s : State) : State :=
  { s with block := { s.block with mgr := { s.block.mgr with rows := s.block.mgr.rows.set i.val r i.isLt } } }

/-- `BASE_SEED <- seed; FLOOR <- floor; ACT <- act`. -/
def State.setManagerRegs (seed : Word) (floor : BitVec 32) (act : BitVec 8) (s : State) : State :=
  { s with block := { s.block with
      mgr := { s.block.mgr with baseSeed := seed, floor := floor, act := act } } }

/-- `FLOOR <- floor`. -/
def State.setFloor (floor : BitVec 32) (s : State) : State :=
  { s with block := { s.block with mgr := { s.block.mgr with floor := floor } } }

/-- `ACT <- act`. -/
def State.setAct (act : BitVec 8) (s : State) : State :=
  { s with block := { s.block with mgr := { s.block.mgr with act := act } } }

/-- Replace the whole manager (`ROLLBACK`, 42_stream_manager R158). -/
def State.setMgr (m : Manager) (s : State) : State :=
  { s with block := { s.block with mgr := m } }

/-- Replace the shadow bank (`CHECKPOINT`, 42_stream_manager R157). -/
def State.setShadow (m : Manager) (s : State) : State :=
  { s with block := { s.block with shadow := m } }

/-- Replace `SNAP[0..12]`. -/
def State.setSnap (v : Vector (BitVec 32) 13) (s : State) : State :=
  { s with block := { s.block with snap := v } }

/-- Replace `REWARD[0..15]`. -/
def State.setRewards (v : Vector RewardSlot 16) (s : State) : State :=
  { s with block := { s.block with reward := v } }

/-- `RES0 <- v`. -/
def State.setRes0 (v : Word) (s : State) : State :=
  { s with block := { s.block with res0 := v } }

/-- `RES1 <- v`. -/
def State.setRes1 (v : Word) (s : State) : State :=
  { s with block := { s.block with res1 := v } }

/-- `PITY_OFFSET <- v`. -/
def State.setPityOffset (v : BitVec 16) (s : State) : State :=
  { s with block := { s.block with pityOffset := v } }

/-- Replace `STATUS`. -/
def State.setStatus (t : Status) (s : State) : State :=
  { s with block := { s.block with status := t } }

/-- `STATUS.INIT <- 1`. -/
def State.setInit (s : State) : State := s.setStatus { s.block.status with init := true }

/-- `STATUS.CKPT <- 1`. -/
def State.setCkpt (s : State) : State := s.setStatus { s.block.status with ckpt := true }

/-! ### Errors -/

/-- `raise E_X` (60_exceptions R221): `ERR` takes the code; `ERR_FIRST` and `ERR_CMD` take the code and
bits 11:0 of `CMD` when `ERR_FIRST` holds none; nothing else is written. This is how the block takes an
exception: there is no saved pc, no vector and no mode (R221, R226). -/
def State.raise (e : Err) (s : State) : State :=
  match s.block.status.errFirst with
  | some _ => s.setStatus { s.block.status with err := some e }
  | none => s.setStatus { s.block.status with
      err := some e, errFirst := some e, errCmd := s.block.cmd.extractLsb' 0 12 }

/-- The counterpart of a trap return (60_exceptions R225): the sticky fields are re-armed. -/
def State.rearm (s : State) : State :=
  s.setStatus { s.block.status with errFirst := none, errCmd := 0 }

/-- A command that completes: `STATUS.ERR <- 0` (30_encoding R88, 60_exceptions R221). -/
def State.complete (s : State) : State :=
  s.setStatus { s.block.status with err := none }

/-! ### The result of a rule -/

/-- What running pseudocode on `σ` comes to: a value and the new `σ`; an error, with what was done before
it (`raise`: "effects already made stay, nothing further is done", 00_scope R10); or a redraw loop that
never ends (93_implementation_defined U4). -/
inductive Res (σ α : Type) where
  | ok (a : α) (s : σ)
  | raised (e : Err) (s : σ)
  | stuck
deriving DecidableEq, Repr

/-- Do one thing, then the next. -/
def Res.bind {σ α β : Type} (x : Res σ α) (f : α → σ → Res σ β) : Res σ β :=
  match x with
  | .ok a s => f a s
  | .raised e s => .raised e s
  | .stuck => .stuck

/-- Run a row's pseudocode on row `i` and on nothing else: "A function call written `f(i, ...)` with a
stream index `i` reads and writes the state of stream `i` only" (00_scope R10, 10_state R34). -/
def onRow {α : Type} (i : StreamId) (f : Row → Res Row α) (s : State) : Res State α :=
  match f (s.row i) with
  | .ok a r => .ok a (s.setRow i r)
  | .raised e r => .raised e (s.setRow i r)
  | .stuck => .stuck

/-- The end of a command (30_encoding R88): `STATUS.ERR <- 0` or `raise`. -/
def finish (x : Res State Unit) : Host.Outcome State Fault Refusal :=
  match x with
  | .ok _ s => .next s.complete
  | .raised e s => .next (s.raise e)
  | .stuck => .fault .redrawNeverEnds

/-! ### The checks before a command's rule (30_encoding R88) -/

/-- The row a stream field names: 0 to 12; 13 to 15 are reserved (10_state R31). -/
def streamId? (sid : BitVec 4) : Option StreamId :=
  if h : sid.toNat < 13 then some ⟨sid.toNat, h⟩ else none

/-- A format N command of 30_encoding R89's second list: no check before its rule. -/
def runAlways (rule : State → Res State Unit) (s : State) : Host.Outcome State Fault Refusal :=
  finish (rule s)

/-- A command of 30_encoding R89's first list: `E_NOT_INIT` unless `STATUS.INIT` is 1. -/
def runInit (rule : State → Res State Unit) (s : State) : Host.Outcome State Fault Refusal :=
  if s.block.status.init then finish (rule s) else .next (s.raise .notInit)

/-- A format S command: `E_BAD_STREAM` before `E_NOT_INIT` before its rule (30_encoding R88). -/
def runStream (sid : BitVec 4) (rule : StreamId → State → Res State Unit) (s : State) :
    Host.Outcome State Fault Refusal :=
  match streamId? sid with
  | none => .next (s.raise .badStream)
  | some i => runInit (rule i) s

end Sys2Proof.Machine
end

