-- ==== Sys2Proof/Machine/Operands.lean ====
section
/-! DEFINITION. Every operand form of 30_encoding R82, how a 32-bit pattern is read as a probability
(41_draws R125), and how a narrow register is read by the host (20_memory R66). -/

namespace Sys2Proof.Machine

/-- `seed` = `OPA[63:0]` (`INIT`, `RESTORE`, `STREAM_NEW`). -/
def State.seedOperand (s : State) : Word := s.block.opa

/-- `floor` = u `OPB[31:0]` (`RESTORE`). -/
def State.restoreFloorOperand (s : State) : BitVec 32 := s.block.opb.extractLsb' 0 32

/-- `act` = u `OPB[39:32]` (`RESTORE`). -/
def State.restoreActOperand (s : State) : BitVec 8 := s.block.opb.extractLsb' 32 8

/-- `floor` = u `OPA[31:0]` (`FLOOR_ADV`). -/
def State.floorOperand (s : State) : BitVec 32 := s.block.opa.extractLsb' 0 32

/-- `act` = u `OPA[7:0]` (`ACT_SEED`). -/
def State.actOperand (s : State) : BitVec 8 := s.block.opa.extractLsb' 0 8

/-- `N` = u `OPB[31:0]` (`STREAM_NEW`). -/
def State.replayOperand (s : State) : Nat := (s.block.opb.extractLsb' 0 32).toNat

/-- `n` = s `OPA[63:0]` (`DRAW_BOUNDED`). -/
def State.boundOperand (s : State) : Int := s.block.opa.toInt

/-- `lo` = s `OPA[31:0]` (`DRAW_RANGE`). -/
def State.loOperand (s : State) : Int := (s.block.opa.extractLsb' 0 32).toInt

/-- `hi` = s `OPB[31:0]` (`DRAW_RANGE`). -/
def State.hiOperand (s : State) : Int := (s.block.opb.extractLsb' 0 32).toInt

/-- `p` = `OPA[31:0]`, a binary32 pattern (`DRAW_CHANCE`). -/
def State.chanceOperand (s : State) : BitVec 32 := s.block.opa.extractLsb' 0 32

/-- `len` = u `OPA[15:0]` (`SHUFFLE`). -/
def State.lenOperand (s : State) : Nat := (s.block.opa.extractLsb' 0 16).toNat

/-- `count` = u `OPA[7:0]` (`GEN_REWARDS`). -/
def State.countOperand (s : State) : Nat := (s.block.opa.extractLsb' 0 8).toNat

/-- `SNAP[i]` as a counter to replay (`RESTORE`). -/
def State.snapOperand (s : State) (i : StreamId) : Nat := s.block.snap[i.val].toNat

/-! ### A 32-bit pattern as a probability (41_draws R125) -/

/-- The value of a binary32 pattern, exactly: not a number, an infinity, or a rational, given as the
integer that it is a multiple of 2^-149 by (the smallest subnormal). -/
inductive F32 where
  | nan
  | posInf
  | negInf
  | scaled (v : Int)
deriving DecidableEq, Repr

/-- `(-1)^s * a` for the sign bit `s`. -/
def signed (neg : Bool) (a : Nat) : Int := if neg then -(a : Int) else (a : Int)

/-- `F32Value(p)` of 41_draws R125: `f * 2^-149` when `e = 0`, else `(2^23 + f) * 2^(e - 150)`, which is
`(2^23 + f) * 2^(e - 1)` times 2^-149. -/
def f32Value (p : BitVec 32) : F32 :=
  let neg := p.getLsbD 31
  let e := (p.extractLsb' 23 8).toNat
  let f := (p.extractLsb' 0 23).toNat
  if e = 255 then (if f ≠ 0 then .nan else if neg then .negInf else .posInf)
  else if e = 0 then .scaled (signed neg f)
  else .scaled (signed neg ((2 ^ 23 + f) * 2 ^ (e - 1)))

/-- `Less24(m, p)`: `m * 2^-24 < F32Value(p)`, exactly; false for not a number. `m * 2^-24` is
`m * 2^125` times 2^-149. -/
def less24 (m : Nat) (p : BitVec 32) : Bool :=
  match f32Value p with
  | .nan => false
  | .posInf => true
  | .negInf => false
  | .scaled v => decide (((m * 2 ^ 125 : Nat) : Int) < v)

/-! ### Narrow values on the 64-bit port -/

/-- A field read sign-extended to 64 bits (20_memory R66). -/
def signExtended {w : Nat} (v : BitVec w) : Word := v.signExtend 64

/-- A field read zero-extended to 64 bits (20_memory R66). -/
def zeroExtended {w : Nat} (v : BitVec w) : Word := v.setWidth 64

/-- The low `w` bits of a written word, the rest dropped (20_memory R66). -/
def lowBits (w : Nat) (v : Word) : BitVec w := v.setWidth w

/-- `toU64(x)` (00_scope R9). -/
def toU64 (x : Int) : Word := BitVec.ofInt 64 x

end Sys2Proof.Machine
end

