-- ==== Sys2Proof/Machine/Flags.lean ====
section
/-! DEFINITION. The packed words a host reads: `STATUS` (10_state R25), `CTRL` (R40) and a `REWARD` entry
(R47). No command sets a carry, zero, sign or overflow flag (R25): these are the only flags. -/

namespace Sys2Proof.Machine

/-- The code of an error (60_exceptions R220). -/
def Err.code : Err → BitVec 8
  | .illegalCmd => 0x01
  | .badStream => 0x02
  | .notInit => 0x03
  | .badArg => 0x04
  | .ctrOvf => 0x05
  | .poolExhausted => 0x06
  | .noCkpt => 0x07

/-- The code in a field of `STATUS`: 0 is "no error" (60_exceptions R220). -/
def errField : Option Err → BitVec 8
  | none => 0x00
  | some e => e.code

/-- `STATUS` as the host reads it (10_state R25): `INIT` in bit 0, `CKPT` in bit 1, `ERR` in 15:8,
`ERR_FIRST` in 23:16, `ERR_CMD` in 35:24, every other bit 0. -/
def Status.word (t : Status) : Word :=
  (0#28 ++ t.errCmd ++ errField t.errFirst ++ errField t.err ++ 0#6
    ++ BitVec.ofBool t.ckpt ++ BitVec.ofBool t.init : BitVec 64)

/-- `CTRL` as the host reads it (10_state R40): `PITY_DIS` in bit 0, `UPG_MODE` in 2:1, the rest 0. -/
def RewardConfig.ctrlWord (c : RewardConfig) : Word :=
  (0#61 ++ c.upgMode ++ BitVec.ofBool c.pityDis : BitVec 64)

/-- The code of a rarity (44_reward R190). -/
def Rarity.code : Rarity → BitVec 2
  | .common => 0
  | .uncommon => 1
  | .rare => 2

/-- A `REWARD` entry as the host reads it (10_state R47): `INDEX` in 30:0, `RARITY` in 33:32, `UPG` in
bit 34, `VALID` in bit 63, every other bit 0. -/
def RewardSlot.word (r : RewardSlot) : Word :=
  (BitVec.ofBool r.valid ++ 0#28 ++ BitVec.ofBool r.upg ++ r.rarity.code ++ 0#1 ++ r.index : BitVec 64)

/-- The register `POOL_SIZE[r]` (10_state R45). -/
def RewardConfig.poolReg (c : RewardConfig) : Rarity → BitVec 31
  | .common => c.poolCommon
  | .uncommon => c.poolUncommon
  | .rare => c.poolRare

/-- The register `POOL_SIZE[r]` written. -/
def RewardConfig.setPoolReg (c : RewardConfig) (v : BitVec 31) : Rarity → RewardConfig
  | .common => { c with poolCommon := v }
  | .uncommon => { c with poolUncommon := v }
  | .rare => { c with poolRare := v }

/-- The number of entries of the pool of a rarity (10_state R45). -/
def RewardConfig.poolSize (c : RewardConfig) (r : Rarity) : Nat := (c.poolReg r).toNat

end Sys2Proof.Machine
end

