-- ==== Sys2Proof/Machine/Generator.lean ====
section
/-! DEFINITION. The BitGenerator: the three pure functions of 40_generator (R104). -/

namespace Sys2Proof.Machine

/-- The finalizer's stage `x ^ (x >> 33)` (40_generator R100). -/
def xorShift33 (x : Word) : Word := x ^^^ (x >>> 33)

/-- `Finalize(x)` (40_generator R100). -/
def finalize (p : Config) (x : Word) : Word :=
  xorShift33 (xorShift33 (xorShift33 x * p.fmixC1) * p.fmixC2)

/-- `SeedInit(seed)` (40_generator R101): the first word of the pair, then the second. -/
def seedInit (p : Config) (seed : Word) : Word × Word :=
  let u := if seed = 0 then Config.zeroSeedSentinel else seed
  let s0 := finalize p u
  let s1 := finalize p s0
  (if s0 = 0 ∧ s1 = 0 then 1 else s0, s1)

/-- `NextU64(i)` on the row (40_generator R102): the output and the row one step on. The old second word
becomes the first; `CTR` is not touched. -/
def nextU64 (r : Row) : Word × Row :=
  let t := r.s0 ^^^ (r.s0 <<< 23)
  let n := t ^^^ r.s1 ^^^ (t >>> 17) ^^^ (r.s1 >>> 26)
  (r.s1 + n, { r with s0 := r.s1, s1 := n })

end Sys2Proof.Machine
end

