-- ==== Sys2Proof/Machine/Draws.lean ====
section
/-! DEFINITION. StreamRNG: the draws of 41_draws on one row, construction and replay, and the seven
commands that expose them. -/

namespace Sys2Proof.Machine

/-! ### The draws on a row -/

/-- `Count(i)` (41_draws R120). -/
def count (r : Row) : Res Row Unit :=
  if r.ctr.toNat = ctrMax then .raised .ctrOvf r else .ok () { r with ctr := r.ctr + 1 }

/-- `BOUNDED_RAW`: the 63-bit value of a raw draw (41_draws R121), by default `raw >> 1`. -/
def boundedRaw (p : Config) (raw : Word) : Nat := (raw.extractLsb' p.boundedLow.val 63).toNat

/-- `FLOAT_RAW`: the 24-bit value of a raw draw (41_draws R124), by default `raw >> 40`. -/
def floatRaw (p : Config) (raw : Word) : BitVec 24 := raw.extractLsb' p.floatLow.val 24

/-- The accept test of `Bounded` (41_draws R121): the sum does not overflow a signed 64-bit integer. -/
def accepts (bits n : Nat) : Bool := decide (bits - bits % n + (n - 1) < 2 ^ 63)

/-- The loop of `Bounded(i, n)` (41_draws R121), for `1 <= n`, with fuel (93_implementation_defined U4). -/
def boundedLoop (p : Config) (n : Nat) : Nat → Row → Res Row Nat
  | 0, _ => .stuck
  | fuel + 1, r =>
    if accepts (boundedRaw p (nextU64 r).1) n then .ok (boundedRaw p (nextU64 r).1 % n) (nextU64 r).2
    else boundedLoop p n fuel (nextU64 r).2

/-- `Bounded(i, n)` (41_draws R121). -/
def bounded (p : Config) (n : Nat) (r : Row) : Res Row Nat := boundedLoop p n Config.redrawFuel r

/-- `DrawBounded(i, n)` (41_draws R121): counted once, before the first raw draw (R120). -/
def drawBounded (p : Config) (n : Nat) (r : Row) : Res Row Nat :=
  (count r).bind fun _ r => bounded p n r

/-- `DrawRange(i, lo, hi)` (41_draws R122): the check comes before `Count`. -/
def drawRange (p : Config) (lo hi : Int) (r : Row) : Res Row Int :=
  if hi < lo then .raised .badArg r
  else (count r).bind fun _ r =>
    (bounded p (hi - lo + 1).toNat r).bind fun v r => .ok (lo + (v : Int)) r

/-- One counted raw draw: the shape of every bit-extraction draw (41_draws, section 3). -/
def drawRaw (r : Row) : Res Row Word :=
  (count r).bind fun _ r => .ok (nextU64 r).1 (nextU64 r).2

/-- `DrawChance(i, p)` (41_draws R124): exactly one raw draw, whatever the pattern. -/
def drawChance (p : Config) (pattern : BitVec 32) (r : Row) : Res Row Bool :=
  (drawRaw r).bind fun raw r => .ok (less24 (floatRaw p raw).toNat pattern) r

/-! ### Construction and replay -/

/-- A row just built from a seed (41_draws R127 with `N` = 0). -/
def Row.seeded (p : Config) (seed : Word) : Row := ⟨(seedInit p seed).1, (seedInit p seed).2, 0⟩

/-- `n` discarded draws `DrawRange(i, 0, 999)` (41_draws R127). -/
def replay (p : Config) : Nat → Row → Res Row Unit
  | 0, r => .ok () r
  | n + 1, r => (drawRange p 0 999 r).bind fun _ r => replay p n r

/-- `Construct(i, seed, N)` (41_draws R127): the row's old content is discarded. -/
def construct (p : Config) (seed : Word) (n : Nat) (_old : Row) : Res Row Unit :=
  replay p n (Row.seeded p seed)

/-! ### The commands

Each is its rule's pseudocode behind the checks of 30_encoding R88. -/

/-- `Construct(sid, seed, N)` (41_draws R135). -/
def streamNewRule (i : StreamId) (s : State) : Res State Unit :=
  onRow i (construct s.params s.seedOperand s.replayOperand) s

/-- `STREAM_NEW sid` (41_draws R135). -/
def execStreamNew (sid : BitVec 4) (s : State) : Host.Outcome State Fault Refusal :=
  runStream sid streamNewRule s

/-- `if n <= 0: raise E_BAD_ARG; RES0 <- DrawBounded(sid, n)` (41_draws R128). -/
def drawBoundedRule (i : StreamId) (s : State) : Res State Unit :=
  if s.boundOperand ≤ 0 then .raised .badArg s
  else (onRow i (drawBounded s.params s.boundOperand.toNat) s).bind fun v s =>
    .ok () (s.setRes0 (BitVec.ofNat 64 v))

/-- `DRAW_BOUNDED sid` (41_draws R128). -/
def execDrawBounded (sid : BitVec 4) (s : State) : Host.Outcome State Fault Refusal :=
  runStream sid drawBoundedRule s

/-- `RES0 <- toU64(DrawRange(sid, lo, hi))` (41_draws R129). -/
def drawRangeRule (i : StreamId) (s : State) : Res State Unit :=
  (onRow i (drawRange s.params s.loOperand s.hiOperand) s).bind fun v s => .ok () (s.setRes0 (toU64 v))

/-- `DRAW_RANGE sid` (41_draws R129). -/
def execDrawRange (sid : BitVec 4) (s : State) : Host.Outcome State Fault Refusal :=
  runStream sid drawRangeRule s

/-- `RES0 <-` the low bit of a raw draw (41_draws R130). -/
def drawBoolRule (i : StreamId) (s : State) : Res State Unit :=
  (onRow i drawRaw s).bind fun raw s => .ok () (s.setRes0 (zeroExtended (raw.extractLsb' 0 1)))

/-- `DRAW_BOOL sid` (41_draws R130). -/
def execDrawBool (sid : BitVec 4) (s : State) : Host.Outcome State Fault Refusal :=
  runStream sid drawBoolRule s

/-- `RES0 <- DrawChance(sid, p)` (41_draws R131). -/
def drawChanceRule (i : StreamId) (s : State) : Res State Unit :=
  (onRow i (drawChance s.params s.chanceOperand) s).bind fun b s =>
    .ok () (s.setRes0 (zeroExtended (BitVec.ofBool b)))

/-- `DRAW_CHANCE sid` (41_draws R131). -/
def execDrawChance (sid : BitVec 4) (s : State) : Host.Outcome State Fault Refusal :=
  runStream sid drawChanceRule s

/-- `RES0 <-` the 24-bit integer `m` of a raw draw (41_draws R132). -/
def drawFloatRule (i : StreamId) (s : State) : Res State Unit :=
  (onRow i drawRaw s).bind fun raw s => .ok () (s.setRes0 (zeroExtended (floatRaw s.params raw)))

/-- `DRAW_FLOAT sid` (41_draws R132). -/
def execDrawFloat (sid : BitVec 4) (s : State) : Host.Outcome State Fault Refusal :=
  runStream sid drawFloatRule s

/-- `RES0 <-` a raw draw whole (41_draws R134). -/
def drawLongRule (i : StreamId) (s : State) : Res State Unit :=
  (onRow i drawRaw s).bind fun raw s => .ok () (s.setRes0 raw)

/-- `DRAW_LONG sid` (41_draws R134). -/
def execDrawLong (sid : BitVec 4) (s : State) : Host.Outcome State Fault Refusal :=
  runStream sid drawLongRule s

end Sys2Proof.Machine
end

