-- ==== Sys2Proof/Machine/Manager.lean ====
section
/-! DEFINITION. StreamManager: the seeding rule and the eight commands of 42_stream_manager. -/

namespace Sys2Proof.Machine

/-- `ACT_OFFSET[a]` (42_stream_manager R150), for `a < N_ACTS`; nothing reads it elsewhere, except that
`INIT` reads entry 0, which a `Config` always has. -/
def actOffset (p : Config) (a : Nat) : Word := p.actOffset.getD a 0

/-- `RuleSeed(i, B, f, a)` (42_stream_manager R150); the sums wrap. -/
def ruleSeed (p : Config) (base : Word) (floor : BitVec 32) (act : Nat) (i : StreamId) : Word :=
  if i.val ≤ 6 then base
  else if i.val ≤ 11 then base + zeroExtended floor
  else base + actOffset p act

/-- `for i in is: Construct(i, seedOf(i), countOf(i))`. -/
def constructEach (seedOf : StreamId → Word) (countOf : StreamId → Nat) :
    List StreamId → State → Res State Unit
  | [], s => .ok () s
  | i :: is, s => (onRow i (construct s.params (seedOf i) (countOf i)) s).bind fun _ s =>
      constructEach seedOf countOf is s

/-- The five per-floor streams, `sid` 7 to 11 (10_state R31). -/
def floorStreams : List StreamId := [7, 8, 9, 10, 11]

/-- `for i in 0 .. 12: Construct(i, RuleSeed(i, seed, floor, act), countOf(i))`, then the manager's
registers and `STATUS.INIT`: what `INIT` and `RESTORE` share (42_stream_manager R151, R156). -/
def rebuild (seed : Word) (floor : BitVec 32) (act : BitVec 8) (countOf : StreamId → Nat) (s : State) :
    Res State Unit :=
  (constructEach (ruleSeed s.params seed floor act.toNat) countOf allStreams s).bind fun _ t =>
    .ok () (t.setManagerRegs seed floor act).setInit

/-- The rule of `INIT` (42_stream_manager R151). -/
def initRule (s : State) : Res State Unit := rebuild s.seedOperand 0 0 (fun _ => 0) s

/-- `INIT` (42_stream_manager R151). -/
def execInit (s : State) : Host.Outcome State Fault Refusal := runAlways initRule s

/-- The rule of `RESTORE` (42_stream_manager R156). -/
def restoreRule (s : State) : Res State Unit :=
  if s.params.nActs ≤ s.restoreActOperand.toNat then .raised .badArg s
  else rebuild s.seedOperand s.restoreFloorOperand s.restoreActOperand s.snapOperand s

/-- `RESTORE` (42_stream_manager R156). -/
def execRestore (s : State) : Host.Outcome State Fault Refusal := runAlways restoreRule s

/-- The rule of `FLOOR_ADV` (42_stream_manager R152). -/
def floorAdvRule (s : State) : Res State Unit :=
  (constructEach (fun _ => s.block.mgr.baseSeed + zeroExtended s.floorOperand) (fun _ => 0)
    floorStreams s).bind fun _ t => .ok () (t.setFloor s.floorOperand)

/-- `FLOOR_ADV` (42_stream_manager R152). -/
def execFloorAdv (s : State) : Host.Outcome State Fault Refusal := runInit floorAdvRule s

/-- The rule of `ACT_SEED` (42_stream_manager R153). -/
def actSeedRule (s : State) : Res State Unit :=
  if s.params.nActs ≤ s.actOperand.toNat then .raised .badArg s
  else
    (onRow mapStream
      (construct s.params (s.block.mgr.baseSeed + actOffset s.params s.actOperand.toNat) 0) s).bind
    fun _ t => .ok () (t.setAct s.actOperand)

/-- `ACT_SEED` (42_stream_manager R153). -/
def execActSeed (s : State) : Host.Outcome State Fault Refusal := runInit actSeedRule s

/-- The snap table of 42_stream_manager R154: the counter a card stream at `c` is brought to, if any. -/
def snapTarget (c : Nat) : Option Nat :=
  if 0 < c ∧ c < 250 then some 250
  else if 250 < c ∧ c < 500 then some 500
  else if 500 < c ∧ c < 750 then some 750
  else none

/-- The rule of `ACT_SNAP` (42_stream_manager R154): one replay draw for each count up to the target. -/
def actSnapRule (s : State) : Res State Unit :=
  match snapTarget (s.row cardStream).ctr.toNat with
  | none => .ok () s
  | some target => onRow cardStream (replay s.params (target - (s.row cardStream).ctr.toNat)) s

/-- `ACT_SNAP` (42_stream_manager R154). -/
def execActSnap (s : State) : Host.Outcome State Fault Refusal := runInit actSnapRule s

/-- The 13 counters of a manager. -/
def Manager.counters (m : Manager) : Vector (BitVec 32) 13 := Vector.ofFn fun i => (m.row i).ctr

/-- `SNAP[i] <- CTR[i]` for all 13 streams (42_stream_manager R155). -/
def snapshotRule (s : State) : Res State Unit := .ok () (s.setSnap s.block.mgr.counters)

/-- `SNAPSHOT` (42_stream_manager R155). -/
def execSnapshot (s : State) : Host.Outcome State Fault Refusal := runInit snapshotRule s

/-- The rule of `CHECKPOINT`: the manager is copied to the shadow bank (42_stream_manager R157). -/
def checkpointRule (s : State) : Res State Unit := .ok () (s.setShadow s.block.mgr).setCkpt

/-- `CHECKPOINT` (42_stream_manager R157). -/
def execCheckpoint (s : State) : Host.Outcome State Fault Refusal := runInit checkpointRule s

/-- The rule of `ROLLBACK`: the shadow bank is copied back (42_stream_manager R158). -/
def rollbackRule (s : State) : Res State Unit :=
  if s.block.status.ckpt then .ok () (s.setMgr s.block.shadow) else .raised .noCkpt s

/-- `ROLLBACK` (42_stream_manager R158). -/
def execRollback (s : State) : Host.Outcome State Fault Refusal := runAlways rollbackRule s

end Sys2Proof.Machine
end

