-- ==== Sys2Proof/Machine/Reward.lean ====
section
/-! DEFINITION. RewardGenerator: the rarity roll, the pity timer and the pool selection of 44_reward. -/

namespace Sys2Proof.Machine

/-- The offset that a roll adds: none when `CTRL.PITY_DIS` is 1 (44_reward R192). -/
def State.rollOffset (s : State) : Int := if s.block.cfg.pityDis then 0 else s.block.pityOffset.toInt

/-- The rarity of `v` = roll + offset (44_reward R192), on exact integers. -/
def rarityOf (c : RewardConfig) (v : Int) : Rarity :=
  if v < c.rarePct.toInt then .rare
  else if v < c.rarePct.toInt + c.uncPct.toInt then .uncommon
  else .common

/-- The pity offset after a roll of that rarity (44_reward R192): `PITY_START` on RARE, unchanged on
UNCOMMON, lowered by `PITY_STEP` and clamped at `PITY_FLOOR` on COMMON. -/
def nextPityOffset (c : RewardConfig) (off : BitVec 16) : Rarity → BitVec 16
  | .rare => c.pityStart
  | .uncommon => off
  | .common => BitVec.ofInt 16 (max (off.toInt - (c.pityStep.toNat : Int)) c.pityFloor.toInt)

/-- The pity update after a roll; none when `CTRL.PITY_DIS` is 1 (44_reward R192). -/
def State.updatePity (r : Rarity) (s : State) : State :=
  if s.block.cfg.pityDis then s else s.setPityOffset (nextPityOffset s.block.cfg s.block.pityOffset r)

/-- `RollRarity(i)` (44_reward R192): the rarity and the roll before the offset. -/
def rollRarity (i : StreamId) (s : State) : Res State (Rarity × Int) :=
  (onRow i (drawRange s.params 0 99) s).bind fun roll s =>
    let r := rarityOf s.block.cfg (roll + s.rollOffset)
    .ok (r, roll) (s.updatePity r)

/-- `(r, roll) <- RollRarity(sid); RES0 <- r; RES1 <- roll` (44_reward R193). -/
def rollRarityRule (i : StreamId) (s : State) : Res State Unit :=
  (rollRarity i s).bind fun rr s => .ok () ((s.setRes0 (zeroExtended rr.1.code)).setRes1 (toU64 rr.2))

/-- `ROLL_RARITY sid` (44_reward R193). -/
def execRollRarity (sid : BitVec 4) (s : State) : Host.Outcome State Fault Refusal :=
  runStream sid rollRarityRule s

/-- `PITY_OFFSET <- PITY_START` (44_reward R195). -/
def pityResetRule (s : State) : Res State Unit := .ok () (s.setPityOffset s.block.cfg.pityStart)

/-- `PITY_RESET` (44_reward R195). -/
def execPityReset (s : State) : Host.Outcome State Fault Refusal := runAlways pityResetRule s

/-- The slots `REWARD[0..k-1]` that a batch has filled before slot `k`. -/
def State.earlier (s : State) (k : Nat) : List RewardSlot := s.block.reward.toList.take k

/-- `REWARD[k] <- v`. -/
def State.setReward (k : Nat) (v : RewardSlot) (s : State) : State :=
  s.setRewards (s.block.reward.setIfInBounds k v)

/-- How many of the earlier slots have that rarity (44_reward R194: `taken`). -/
def taken (r : Rarity) (slots : List RewardSlot) : Nat := slots.countP fun t => decide (t.rarity = r)

/-- Duplicates: same rarity and same index (44_reward R196). -/
def isDuplicate (r : Rarity) (idx : BitVec 31) (slots : List RewardSlot) : Bool :=
  slots.any fun t => decide (t.rarity = r ∧ t.index = idx)

/-- The duplicate loop of 44_reward R194: the index is drawn again, from the same pool, with no new roll.
Every pass counts a draw, so the fuel of `Config.duplicateFuel` does not run out (log 10). -/
def pickIndex (i : StreamId) (r : Rarity) (slots : List RewardSlot) : Nat → State → Res State (BitVec 31)
  | 0, _ => .stuck
  | fuel + 1, s =>
    (onRow i (drawRange s.params 0 ((s.block.cfg.poolSize r : Int) - 1)) s).bind fun v s =>
      if isDuplicate r (BitVec.ofInt 31 v) slots then pickIndex i r slots fuel s
      else .ok (BitVec.ofInt 31 v) s

/-- The upgrade draw of slot `k` inside the slot, made in `UPG_MODE` 1 (44_reward R194, R198). -/
def upgradeInSlot (i : StreamId) (s : State) : Res State Bool :=
  if s.block.cfg.upgMode = 1 then onRow i (drawChance s.params s.block.cfg.upgP) s else .ok false s

/-- One slot of a batch (44_reward R194). An empty pool is `E_BAD_ARG`, an exhausted one
`E_POOL_EXHAUSTED` (R197), both after the roll. -/
def genSlot (i : StreamId) (k : Nat) (s : State) : Res State Unit :=
  (rollRarity i s).bind fun rr s =>
    if s.block.cfg.poolSize rr.1 = 0 then .raised .badArg s
    else if s.block.cfg.poolSize rr.1 ≤ taken rr.1 (s.earlier k) then .raised .poolExhausted s
    else
      (pickIndex i rr.1 (s.earlier k) Config.duplicateFuel s).bind fun idx s =>
      (upgradeInSlot i s).bind fun upg s =>
      .ok () (s.setReward k ⟨idx, rr.1, upg, true⟩)

/-- `n` slots from slot `k` on (44_reward R194). -/
def genSlots (i : StreamId) : (n k : Nat) → State → Res State Unit
  | 0, _, s => .ok () s
  | n + 1, k, s => (genSlot i k s).bind fun _ s => genSlots i n (k + 1) s

/-- `REWARD[k].UPG <- v`. -/
def State.setUpgrade (k : Nat) (v : Bool) (s : State) : State :=
  s.setReward k { s.block.reward.getD k RewardSlot.empty with upg := v }

/-- The upgrade draws after the last slot, `n` slots from slot `k` on (44_reward R194, `UPG_MODE` 2). -/
def upgradeSlots (i : StreamId) : (n k : Nat) → State → Res State Unit
  | 0, _, s => .ok () s
  | n + 1, k, s =>
    (onRow i (drawChance s.params s.block.cfg.upgP) s).bind fun b s =>
      upgradeSlots i n (k + 1) (s.setUpgrade k b)

/-- The upgrade draws of the whole batch, made in `UPG_MODE` 2. -/
def upgradeBatch (i : StreamId) (n : Nat) (s : State) : Res State Unit :=
  if s.block.cfg.upgMode = 2 then upgradeSlots i n 0 s else .ok () s

/-- `for k in 0 .. 15: REWARD[k] <- 0` (44_reward R194). -/
def State.clearRewards (s : State) : State := s.setRewards (Vector.replicate 16 RewardSlot.empty)

/-- The rule of `GEN_REWARDS` (44_reward R194). -/
def genRewardsRule (i : StreamId) (s : State) : Res State Unit :=
  if rewardDepth < s.countOperand then .raised .badArg s
  else if s.block.cfg.upgMode = 3 then .raised .badArg s
  else
    (genSlots i s.countOperand 0 s.clearRewards).bind fun _ t =>
    (upgradeBatch i s.countOperand t).bind fun _ t =>
    .ok () (t.setRes0 (BitVec.ofNat 64 s.countOperand))

/-- `GEN_REWARDS sid` (44_reward R194). -/
def execGenRewards (sid : BitVec 4) (s : State) : Host.Outcome State Fault Refusal :=
  runStream sid genRewardsRule s

end Sys2Proof.Machine
end

