-- ==== Sys2Proof/Machine/Shuffle.lean ====
section
/-! DEFINITION. ShuffleAlgorithm: the Fisher-Yates engine of 43_shuffle. -/

namespace Sys2Proof.Machine

/-- `tmp <- ITEM[k]; ITEM[k] <- ITEM[j]; ITEM[j] <- tmp` (43_shuffle R180). -/
def State.swapItems (k j : Nat) (s : State) : State :=
  (s.setItem k (s.item j)).setItem j (s.item k)

/-- `for k in n downto 1` (43_shuffle R180): one draw in `[0, k]`, bound included (R182), one swap. -/
def shuffleFrom (i : StreamId) : Nat → State → Res State Unit
  | 0, s => .ok () s
  | n + 1, s => (onRow i (drawRange s.params 0 ((n + 1 : Nat) : Int)) s).bind fun j s =>
      shuffleFrom i n (s.swapItems (n + 1) j.toNat)

/-- The rule of `SHUFFLE` (43_shuffle R180): both checks come before the first draw. -/
def shuffleRule (i : StreamId) (s : State) : Res State Unit :=
  if itemDepth < s.lenOperand then .raised .badArg s
  else if 2 ≤ s.lenOperand ∧ ctrMax < (s.row i).ctr.toNat + (s.lenOperand - 1) then .raised .ctrOvf s
  else shuffleFrom i (s.lenOperand - 1) s

/-- `SHUFFLE sid` (43_shuffle R180). -/
def execShuffle (sid : BitVec 4) (s : State) : Host.Outcome State Fault Refusal :=
  runStream sid shuffleRule s

end Sys2Proof.Machine
end

