-- ==== Sys2Proof/Machine/System.lean ====
section
/-! DEFINITION. The system commands of 45_system. -/

namespace Sys2Proof.Machine

/-- The rule of `NOP` does nothing (45_system R210). -/
def nopRule (s : State) : Res State Unit := .ok () s

/-- `NOP` (45_system R210): nothing but the decode sequence. -/
def execNop (s : State) : Host.Outcome State Fault Refusal := runAlways nopRule s

/-- The rule of `CLRERR`: the sticky fields are cleared, and nothing else (45_system R211). -/
def clrerrRule (s : State) : Res State Unit := .ok () s.rearm

/-- `CLRERR` (45_system R211). -/
def execClrerr (s : State) : Host.Outcome State Fault Refusal := runAlways clrerrRule s

end Sys2Proof.Machine
end

