-- ==== Sys2Proof/Machine/Dispatch.lean ====
section
/-! DEFINITION. One arm for each command (30_encoding R83). -/

namespace Sys2Proof.Machine

/-- The command `i` on a block whose `CMD` holds its word (30_encoding R88, from the stream check on). -/
def exec (i : Instr) (s : State) : Host.Outcome State Fault Refusal :=
  match i with
  | .nop => Sys2Proof.Machine.execNop s
  | .clrerr => Sys2Proof.Machine.execClrerr s
  | .init => Sys2Proof.Machine.execInit s
  | .restore => Sys2Proof.Machine.execRestore s
  | .floorAdv => Sys2Proof.Machine.execFloorAdv s
  | .actSeed => Sys2Proof.Machine.execActSeed s
  | .actSnap => Sys2Proof.Machine.execActSnap s
  | .snapshot => Sys2Proof.Machine.execSnapshot s
  | .checkpoint => Sys2Proof.Machine.execCheckpoint s
  | .rollback => Sys2Proof.Machine.execRollback s
  | .pityReset => Sys2Proof.Machine.execPityReset s
  | .streamNew sid => Sys2Proof.Machine.execStreamNew sid s
  | .drawBounded sid => Sys2Proof.Machine.execDrawBounded sid s
  | .drawRange sid => Sys2Proof.Machine.execDrawRange sid s
  | .drawBool sid => Sys2Proof.Machine.execDrawBool sid s
  | .drawChance sid => Sys2Proof.Machine.execDrawChance sid s
  | .drawFloat sid => Sys2Proof.Machine.execDrawFloat sid s
  | .drawLong sid => Sys2Proof.Machine.execDrawLong sid s
  | .shuffle sid => Sys2Proof.Machine.execShuffle sid s
  | .rollRarity sid => Sys2Proof.Machine.execRollRarity sid s
  | .genRewards sid => Sys2Proof.Machine.execGenRewards sid s

end Sys2Proof.Machine
end

