-- ==== Sys2Proof/Machine/Port.lean ====
section
/-! DEFINITION. The host port: the address map (20_memory R61), reads (R62, R66), writes other than to
`CMD` (R62, R65, R66), and hardware reset (70_reset_and_hazards R250). -/

namespace Sys2Proof.Machine

/-- A location of the address map (20_memory R61). -/
inductive Loc where
  | cmd | status | opa | opb | res0 | res1 | baseSeed | floor | act
  | ctrl | rarePct | uncPct | pityStart | pityFloor | pityStep | pityOffset | upgP
  | poolSize (r : Rarity)
  | snap (i : StreamId)
  | s0 (i : StreamId)
  | s1 (i : StreamId)
  | ctr (i : StreamId)
  | reward (k : Fin 16)
  | item (k : Fin 1024)
  | reserved
deriving DecidableEq, Repr

/-- The address of `CMD`. -/
def cmdAddr : Addr := 0x000

/-- The registers at fixed addresses, `0x000` to `0x01F` (20_memory R61). -/
def registerAt (a : Nat) : Loc :=
  match a with
  | 0x000 => .cmd
  | 0x001 => .status
  | 0x002 => .opa
  | 0x003 => .opb
  | 0x004 => .res0
  | 0x005 => .res1
  | 0x008 => .baseSeed
  | 0x009 => .floor
  | 0x00A => .act
  | 0x010 => .ctrl
  | 0x011 => .rarePct
  | 0x012 => .uncPct
  | 0x013 => .pityStart
  | 0x014 => .pityFloor
  | 0x015 => .pityStep
  | 0x016 => .pityOffset
  | 0x017 => .upgP
  | 0x018 => .poolSize .common
  | 0x019 => .poolSize .uncommon
  | 0x01A => .poolSize .rare
  | _ => .reserved

/-- `0x020 + i` is `SNAP[i]`; the rest up to `0x03F` is reserved (20_memory R61). -/
def snapAt (a : Nat) : Loc := if h : a - 0x020 < 13 then .snap ⟨a - 0x020, h⟩ else .reserved

/-- `0x040 + 4*i` is `S0[i]`, then `S1[i]`, `CTR[i]` and a reserved word; the rest up to `0x07F` is
reserved (20_memory R61). -/
def streamAt (a : Nat) : Loc :=
  if h : (a - 0x040) / 4 < 13 then
    match (a - 0x040) % 4 with
    | 0 => .s0 ⟨(a - 0x040) / 4, h⟩
    | 1 => .s1 ⟨(a - 0x040) / 4, h⟩
    | 2 => .ctr ⟨(a - 0x040) / 4, h⟩
    | _ => .reserved
  else .reserved

/-- `0x080 + k` is `REWARD[k]`; the rest up to `0x3FF` is reserved (20_memory R61). -/
def rewardAt (a : Nat) : Loc := if h : a - 0x080 < 16 then .reward ⟨a - 0x080, h⟩ else .reserved

/-- `0x400 + k` is `ITEM[k]` (20_memory R61). -/
def itemAt (a : Nat) : Loc := if h : a - 0x400 < 1024 then .item ⟨a - 0x400, h⟩ else .reserved

/-- The address map of 20_memory R61; it is complete. -/
def locOf (addr : Addr) : Loc :=
  let a := addr.toNat
  if a < 0x020 then registerAt a
  else if a < 0x040 then snapAt a
  else if a < 0x080 then streamAt a
  else if a < 0x400 then rewardAt a
  else itemAt a

/-- The word a host reads at a location: narrow registers extended (20_memory R66), reserved 0 (R62). -/
def State.readLoc (s : State) : Loc → Word
  | .cmd => s.block.cmd
  | .status => s.block.status.word
  | .opa => s.block.opa
  | .opb => s.block.opb
  | .res0 => s.block.res0
  | .res1 => s.block.res1
  | .baseSeed => s.block.mgr.baseSeed
  | .floor => zeroExtended s.block.mgr.floor
  | .act => zeroExtended s.block.mgr.act
  | .ctrl => s.block.cfg.ctrlWord
  | .rarePct => signExtended s.block.cfg.rarePct
  | .uncPct => signExtended s.block.cfg.uncPct
  | .pityStart => signExtended s.block.cfg.pityStart
  | .pityFloor => signExtended s.block.cfg.pityFloor
  | .pityStep => zeroExtended s.block.cfg.pityStep
  | .pityOffset => signExtended s.block.pityOffset
  | .upgP => zeroExtended s.block.cfg.upgP
  | .poolSize r => zeroExtended (s.block.cfg.poolReg r)
  | .snap i => zeroExtended s.block.snap[i.val]
  | .s0 i => (s.row i).s0
  | .s1 i => (s.row i).s1
  | .ctr i => zeroExtended (s.row i).ctr
  | .reward k => s.block.reward[k.val].word
  | .item k => s.item k.val
  | .reserved => 0

/-- `HostRead(a)`: the word it returns (20_memory R60). -/
def State.port (s : State) (a : Addr) : Word := s.readLoc (locOf a)

/-- Replace the reward configuration. -/
def State.setCfg (c : RewardConfig) (s : State) : State :=
  { s with block := { s.block with cfg := c } }

/-- `OPA <- v`. -/
def State.setOpa (v : Word) (s : State) : State := { s with block := { s.block with opa := v } }

/-- `OPB <- v`. -/
def State.setOpb (v : Word) (s : State) : State := { s with block := { s.block with opb := v } }

/-- `CMD <- v`. -/
def State.setCmd (v : Word) (s : State) : State := { s with block := { s.block with cmd := v } }

/-- What a host write stores at a location other than `CMD`: the low bits the register keeps (20_memory
R66); nothing at a read-only or reserved location (R62). -/
def State.writeLoc (v : Word) (s : State) : Loc → State
  | .opa => s.setOpa v
  | .opb => s.setOpb v
  | .ctrl => s.setCfg { s.block.cfg with pityDis := v.getLsbD 0, upgMode := v.extractLsb' 1 2 }
  | .rarePct => s.setCfg { s.block.cfg with rarePct := lowBits 16 v }
  | .uncPct => s.setCfg { s.block.cfg with uncPct := lowBits 16 v }
  | .pityStart => s.setCfg { s.block.cfg with pityStart := lowBits 16 v }
  | .pityFloor => s.setCfg { s.block.cfg with pityFloor := lowBits 16 v }
  | .pityStep => s.setCfg { s.block.cfg with pityStep := lowBits 16 v }
  | .pityOffset => s.setPityOffset (lowBits 16 v)
  | .upgP => s.setCfg { s.block.cfg with upgP := lowBits 32 v }
  | .poolSize r => s.setCfg (s.block.cfg.setPoolReg (lowBits 31 v) r)
  | .snap i => s.setSnap (s.block.snap.set i.val (lowBits 32 v) i.isLt)
  | .item k => s.setItem k.val v
  | .cmd | .status | .res0 | .res1 | .baseSeed | .floor | .act | .s0 _ | .s1 _ | .ctr _ | .reward _
  | .reserved => s

/-- The next move is taken: it is no longer pending, and it has returned nothing yet. -/
def State.take (rest : List HostMove) (s : State) : State :=
  { s with moves := rest, readData := none }

/-- `HostWrite(a, v)` for `a` other than `CMD`. -/
def hostWrite (a : Addr) (v : Word) (s : State) : State := s.writeLoc v (locOf a)

/-- `HostRead(a)`: the word is returned; no read has a side effect (20_memory R65). -/
def hostRead (a : Addr) (s : State) : State := { s with readData := some (s.port a) }

/-- Hardware reset (70_reset_and_hazards R250): the block is as 10_state R50 says, and `ITEM` holds the
free values of a new reset (log 4). The parameters and the host's further moves are outside the block. -/
def hardReset (s : State) : State := { s with block := Block.reset, resets := s.resets + 1 }

end Sys2Proof.Machine
end

