-- ==== Sys2Proof/Machine/Step.lean ====
section
/-! DEFINITION. One step of the machine: one host move (00_scope R5, 20_memory R67). -/

namespace Sys2Proof.Machine

/-- `HostWrite(0x000, w)` (30_encoding R88): `CMD` takes the word; then it is decoded and rejected or run. -/
def issue (w : Word) (s : State) : Host.Outcome State Fault Refusal :=
  match decode w with
  | .command i => exec i (s.setCmd w)
  | .illegalCmd => .next ((s.setCmd w).raise .illegalCmd)
  | .badStream => .next ((s.setCmd w).raise .badStream)

/-- One step: the oldest pending host move, wholly (20_memory R67). With none pending the block "is idle
and holds all its state" (60_exceptions R229; log 1). -/
def step (s : State) : Host.Outcome State Fault Refusal :=
  match s.moves with
  | [] => .next s
  | .write a v :: rest => if a = cmdAddr then issue v (s.take rest) else .next (hostWrite a v (s.take rest))
  | .read a :: rest => .next (hostRead a (s.take rest))
  | .reset :: rest => .next (hardReset (s.take rest))

/-- `s` with a write of the word to `CMD` as the next host move: the very next step runs it (log 2). -/
def State.withFetchWord (s : State) (nbits w : Nat) : State :=
  { s with moves := .write cmdAddr (tableWord nbits w) :: s.moves }

end Sys2Proof.Machine
end

