-- ==== Sys2Proof/Machine/Assembler.lean ====
section
/-! DEFINITION. The assembler of 30_encoding R86 and R87: each line is a list of host moves. The text of a
line is not parsed (log 16); an address is its word index, a stream its number. -/

namespace Sys2Proof.Machine

/-- A line of a host program: the three primitive lines (R86), a macro for each command, and the
pseudo-instructions (R87). Values are integers, "taken mod 2^64". -/
inductive AsmLine where
  | wr (a : Addr) (v : Int)
  | rd (a : Addr)
  | reset
  | nop
  | clrerr
  | init (seed : Int)
  | restore (seed floor act : Int)
  | floorAdv (floor : Int)
  | actSeed (act : Int)
  | actSnap
  | snapshot
  | checkpoint
  | rollback
  | pityReset
  | streamNew (s : BitVec 4) (seed n : Int)
  | drawBounded (s : BitVec 4) (n : Int)
  | drawRange (s : BitVec 4) (lo hi : Int)
  | drawBool (s : BitVec 4)
  | drawChance (s : BitVec 4) (p : Int)
  | drawFloat (s : BitVec 4)
  | drawLong (s : BitVec 4)
  | shuffle (s : BitVec 4) (len : Int)
  | rollRarity (s : BitVec 4)
  | genRewards (s : BitVec 4) (count : Int)
  | restorePersisted (seed floor act c0 c1 c2 c3 c4 c5 c6 : Int)
  | config (rare unc start floor step : Int)
  | pools (c u r : Int)
  | loadItems (vs : List Int)
deriving DecidableEq, Repr

/-- `WR CMD, <word>`. -/
def wrCmd (i : Instr) : HostMove := .write cmdAddr (encode i)

/-- `WR OPA, v`. -/
def wrOpa (v : Int) : HostMove := .write 0x002 (toU64 v)

/-- `WR OPB, v`. -/
def wrOpb (v : Int) : HostMove := .write 0x003 (toU64 v)

/-- `RESTORE seed, floor, act` (R87). -/
def expandRestore (seed floor act : Int) : List HostMove :=
  [wrOpa seed, wrOpb (floor + act * 2 ^ 32), wrCmd .restore]

/-- Writes of the values to neighbouring addresses, from `a` on. DESIGN CHOICE (log 19): the spec says nothing
of a `LOAD_ITEMS` line with more than 1024 values, since there is no `ITEM[1024]`; here the 11-bit address
wraps from `0x7FF` to `0x000`, so the next value is written to `CMD`. -/
def wrEach (a : Addr) : List Int → List HostMove
  | [] => []
  | v :: vs => .write a (toU64 v) :: wrEach (a + 1) vs

/-- The expansion of a line (30_encoding R87): operand writes first, `OPA` then `OPB`. -/
def AsmLine.expand : AsmLine → List HostMove
  | .wr a v => [.write a (toU64 v)]
  | .rd a => [.read a]
  | .reset => [.reset]
  | .nop => [wrCmd .nop]
  | .clrerr => [wrCmd .clrerr]
  | .init seed => [wrOpa seed, wrCmd .init]
  | .restore seed floor act => expandRestore seed floor act
  | .floorAdv floor => [wrOpa floor, wrCmd .floorAdv]
  | .actSeed act => [wrOpa act, wrCmd .actSeed]
  | .actSnap => [wrCmd .actSnap]
  | .snapshot => [wrCmd .snapshot]
  | .checkpoint => [wrCmd .checkpoint]
  | .rollback => [wrCmd .rollback]
  | .pityReset => [wrCmd .pityReset]
  | .streamNew s seed n => [wrOpa seed, wrOpb n, wrCmd (.streamNew s)]
  | .drawBounded s n => [wrOpa n, wrCmd (.drawBounded s)]
  | .drawRange s lo hi => [wrOpa lo, wrOpb hi, wrCmd (.drawRange s)]
  | .drawBool s => [wrCmd (.drawBool s)]
  | .drawChance s p => [wrOpa p, wrCmd (.drawChance s)]
  | .drawFloat s => [wrCmd (.drawFloat s)]
  | .drawLong s => [wrCmd (.drawLong s)]
  | .shuffle s len => [wrOpa len, wrCmd (.shuffle s)]
  | .rollRarity s => [wrCmd (.rollRarity s)]
  | .genRewards s count => [wrOpa count, wrCmd (.genRewards s)]
  | .restorePersisted seed floor act c0 c1 c2 c3 c4 c5 c6 =>
    wrEach 0x020 [c0, c1, c2, c3, c4, c5, c6, 0, 0, 0, 0, 0, 0] ++ expandRestore seed floor act
  | .config rare unc start floor step => wrEach 0x011 [rare, unc, start, floor, step]
  | .pools c u r => wrEach 0x018 [c, u, r]
  | .loadItems vs => wrEach 0x400 vs

/-- A host program of assembly lines as its list of moves (30_encoding R86). -/
def assemble (lines : List AsmLine) : List HostMove := lines.flatMap AsmLine.expand

end Sys2Proof.Machine
end

