-- ==== Sys2Proof/Safety.lean ====
section
/-! DEFINITION. The terms claims about the machine are made in: the invariant of a run, the mark of a run
without errors, what a command leaves alone, and the sequence of raw draws of a row. -/

namespace Sys2Proof.Machine

/-! ### The invariant -/

/-- "never both zero" (10_state R32). -/
def Row.live (r : Row) : Prop := ¬(r.s0 = 0 ∧ r.s1 = 0)

/-- A manager that holds constructed state: `ACT < N_ACTS` (10_state R26), every row live (R32). -/
structure Manager.Legal (p : Config) (m : Manager) : Prop where
  act_lt : m.act.toNat < p.nActs
  rows_live : ∀ i, (m.row i).live

/-- What every step keeps. -/
structure State.Inv (s : State) : Prop where
  /-- Once `INIT` is 1 the manager is legal (10_state R26, R32). -/
  mgr_legal : s.block.status.init = true → s.block.mgr.Legal s.params
  /-- "While `INIT` is 0 every row is all-zero" (10_state R32). -/
  rows_zero : s.block.status.init = false → ∀ i, s.row i = Row.zero
  /-- "a checkpoint can only have been made with `INIT` = 1" (42_stream_manager R158). -/
  ckpt_init : s.block.status.ckpt = true → s.block.status.init = true
  /-- The shadow bank is a copy of a legal manager (10_state R33). -/
  shadow_legal : s.block.status.ckpt = true → s.block.shadow.Legal s.params
  /-- `ERR_CMD` is "0 when `ERR_FIRST` is 0" (10_state R25). -/
  errCmd_zero : s.block.status.errFirst = none → s.block.status.errCmd = 0
  /-- The item memory keeps its canonical form (log 5). -/
  items_wf : s.block.items.wf = true

/-- A run without errors so far: 60_exceptions R225 reads `ERR_FIRST != 0` as the fault mark. -/
def State.noError (s : State) : Prop := s.block.status.errFirst = none

/-! ### Frames -/

/-- From `s` to `t` nothing changed but what the host reads at the named locations: every other address of
the port reads as before (each register, stream row, buffer entry and `ITEM` entry has one, 20_memory R61),
and so is what the host cannot read: the shadow bank, the parameters, and the host's side of the port. -/
structure ChangesOnly (locs : Loc → Prop) (s t : State) : Prop where
  port : ∀ a, ¬ locs (locOf a) → t.port a = s.port a
  shadow : t.block.shadow = s.block.shadow
  params : t.params = s.params
  moves : t.moves = s.moves
  readData : t.readData = s.readData
  resets : t.resets = s.resets

/-- The three locations of a row. -/
def rowLocs (i : StreamId) (l : Loc) : Prop := l = .s0 i ∨ l = .s1 i ∨ l = .ctr i

/-! ### The raw draws of a row -/

/-- The row after `k` raw draws (calls of `NextU64`), its counter untouched. -/
def Row.advance : Nat → Row → Row
  | 0, r => r
  | k + 1, r => Row.advance k (nextU64 r).2

/-- The raw draw number `k` of a row, from 0. -/
def Row.rawAt (r : Row) (k : Nat) : Word := (nextU64 (r.advance k)).1

/-- The 63-bit value of raw draw `k`. -/
def Row.bitsAt (p : Config) (r : Row) (k : Nat) : Nat := boundedRaw p (r.rawAt k)

/-- `bits - (bits mod n) + (n - 1)` does not overflow a signed 64-bit integer (41_draws R121), computed on
the integers. -/
def NoOverflow (bits n : Nat) : Prop := (bits : Int) - (bits : Int) % (n : Int) + ((n : Int) - 1) < 2 ^ 63

/-- A bounded draw on `n` from this row makes exactly `k` redraws: the raw draws before number `k` are
rejected and number `k` is accepted (41_draws R121). -/
def Row.redraws (p : Config) (n : Nat) (r : Row) (k : Nat) : Prop :=
  k < Config.redrawFuel ∧ NoOverflow (r.bitsAt p k) n ∧ ∀ j, j < k → ¬ NoOverflow (r.bitsAt p j) n

/-- The row after one counted draw of `k + 1` raw draws. -/
def Row.drawn (r : Row) (k : Nat) : Row := { r.advance (k + 1) with ctr := r.ctr + 1 }

/-- The premise of 41_draws R136 and 70_reset_and_hazards R255 for replay: each of the next `m` raw draws
is accepted at once by a `(0, 999)` draw. -/
def Row.replaysPlainly (p : Config) (r : Row) (m : Nat) : Prop :=
  ∀ j, j < m → NoOverflow (r.bitsAt p j) 1000

/-- The row after `m` counted draws of one raw draw each. -/
def Row.plainly (r : Row) (m : Nat) : Row := { r.advance m with ctr := r.ctr + BitVec.ofNat 32 m }

/-- The exact value of a binary32 pattern as a rational, for the finite patterns (41_draws R125). -/
def f32Rat (p : BitVec 32) : ℚ :=
  let sign : ℚ := if p.getLsbD 31 then -1 else 1
  let e := (p.extractLsb' 23 8).toNat
  let f := (p.extractLsb' 0 23).toNat
  if e = 0 then sign * f * 2 ^ (-149 : ℤ) else sign * (2 ^ 23 + f) * 2 ^ ((e : ℤ) - 150)

/-! ### Tables of the spec, written out for claims -/

/-- The opcodes of format N (30_encoding R83). -/
abbrev formatNOpcode (o : Nat) : Prop := o ≤ 0x0A

/-- The opcodes of format S (30_encoding R83). -/
abbrev formatSOpcode (o : Nat) : Prop := 0x10 ≤ o ∧ o ≤ 0x16 ∨ 0x20 ≤ o ∧ o ≤ 0x22

/-- "Commands that need `STATUS.INIT == 1`" (30_encoding R89). -/
def needsInit (i : Instr) : Prop :=
  i ∈ [Instr.floorAdv, .actSeed, .actSnap, .snapshot, .checkpoint] ∨ i.sid? ≠ none

/-- The commands that can make a bounded or range draw, and so a redraw (41_draws R121). -/
def mayRedraw : Instr → Prop
  | .restore | .actSnap | .streamNew _ | .drawBounded _ | .drawRange _ | .shuffle _ | .rollRarity _
  | .genRewards _ => True
  | .nop | .clrerr | .init | .floorAdv | .actSeed | .snapshot | .checkpoint | .rollback | .pityReset
  | .drawBool _ | .drawChance _ | .drawFloat _ | .drawLong _ => False

/-- The reserved addresses of 20_memory R61. -/
def reservedAddr (a : Nat) : Prop :=
  0x006 ≤ a ∧ a ≤ 0x007 ∨ 0x00B ≤ a ∧ a ≤ 0x00F ∨ 0x01B ≤ a ∧ a ≤ 0x01F ∨ 0x02D ≤ a ∧ a ≤ 0x03F
    ∨ (∃ i, i ≤ 12 ∧ a = 0x040 + 4 * i + 3) ∨ 0x074 ≤ a ∧ a ≤ 0x07F ∨ 0x090 ≤ a ∧ a ≤ 0x3FF

/-- The read-only addresses of 20_memory R61. -/
def readOnlyAddr (a : Nat) : Prop :=
  a = 0x001 ∨ a = 0x004 ∨ a = 0x005 ∨ 0x008 ≤ a ∧ a ≤ 0x00A
    ∨ (∃ i j, i ≤ 12 ∧ j ≤ 2 ∧ a = 0x040 + 4 * i + j) ∨ 0x080 ≤ a ∧ a ≤ 0x08F

/-- The address map of 20_memory R61, address by address: what a host reads there. The packed words are
those of 10_state sections 4, 8 and 9. -/
structure State.ShowsMap (s : State) : Prop where
  cmd : s.port 0x000 = s.block.cmd
  status : s.port 0x001 = s.block.status.word
  opa : s.port 0x002 = s.block.opa
  opb : s.port 0x003 = s.block.opb
  res0 : s.port 0x004 = s.block.res0
  res1 : s.port 0x005 = s.block.res1
  baseSeed : s.port 0x008 = s.block.mgr.baseSeed
  floor : (s.port 0x009).toNat = s.block.mgr.floor.toNat
  act : (s.port 0x00A).toNat = s.block.mgr.act.toNat
  ctrl : s.port 0x010 = s.block.cfg.ctrlWord
  rarePct : (s.port 0x011).toInt = s.block.cfg.rarePct.toInt
  uncPct : (s.port 0x012).toInt = s.block.cfg.uncPct.toInt
  pityStart : (s.port 0x013).toInt = s.block.cfg.pityStart.toInt
  pityFloor : (s.port 0x014).toInt = s.block.cfg.pityFloor.toInt
  pityStep : (s.port 0x015).toNat = s.block.cfg.pityStep.toNat
  pityOffset : (s.port 0x016).toInt = s.block.pityOffset.toInt
  upgP : (s.port 0x017).toNat = s.block.cfg.upgP.toNat
  poolCommon : (s.port 0x018).toNat = s.block.cfg.poolSize .common
  poolUncommon : (s.port 0x019).toNat = s.block.cfg.poolSize .uncommon
  poolRare : (s.port 0x01A).toNat = s.block.cfg.poolSize .rare
  snap : ∀ i : StreamId, (s.port (BitVec.ofNat 11 (0x020 + i.val))).toNat = s.block.snap[i.val].toNat
  s0 : ∀ i : StreamId, s.port (BitVec.ofNat 11 (0x040 + 4 * i.val)) = (s.row i).s0
  s1 : ∀ i : StreamId, s.port (BitVec.ofNat 11 (0x041 + 4 * i.val)) = (s.row i).s1
  ctr : ∀ i : StreamId, (s.port (BitVec.ofNat 11 (0x042 + 4 * i.val))).toNat = (s.row i).ctr.toNat
  reward : ∀ k : Fin 16, s.port (BitVec.ofNat 11 (0x080 + k.val)) = s.block.reward[k.val].word
  item : ∀ k, k < 1024 → s.port (BitVec.ofNat 11 (0x400 + k)) = s.item k

/-- The codes that a command's own rule can raise, past the checks of 30_encoding R88 (60_exceptions R220,
R230). -/
def ruleErrors : Instr → List Err
  | .nop | .clrerr | .init | .floorAdv | .actSnap | .snapshot | .checkpoint | .pityReset
  | .streamNew _ => []
  | .restore | .actSeed => [.badArg]
  | .rollback => [.noCkpt]
  | .drawBool _ | .drawChance _ | .drawFloat _ | .drawLong _ | .rollRarity _ => [.ctrOvf]
  | .drawBounded _ | .drawRange _ | .shuffle _ => [.badArg, .ctrOvf]
  | .genRewards _ => [.badArg, .poolExhausted, .ctrOvf]

/-- The locations of all 13 rows. -/
def anyRowLoc (l : Loc) : Prop := ∃ i, rowLocs i l

/-- The manager's registers and rows. -/
def managerLoc (l : Loc) : Prop := l = .baseSeed ∨ l = .floor ∨ l = .act ∨ anyRowLoc l

/-- The host-visible locations that a command's rule writes, besides `STATUS`: its destinations. `s` is the
state the command starts from. -/
def destination (i : Instr) (s : State) (l : Loc) : Prop :=
  match i with
  | .nop | .clrerr | .checkpoint => False
  | .init | .restore | .rollback => managerLoc l
  | .floorAdv => l = .floor ∨ ∃ j : StreamId, 7 ≤ j.val ∧ j.val ≤ 11 ∧ rowLocs j l
  | .actSeed => l = .act ∨ rowLocs mapStream l
  | .actSnap => rowLocs cardStream l
  | .snapshot => ∃ j, l = .snap j
  | .pityReset => l = .pityOffset
  | .streamNew sid => ∃ j, streamId? sid = some j ∧ rowLocs j l
  | .drawBounded sid | .drawRange sid | .drawBool sid | .drawChance sid | .drawFloat sid
  | .drawLong sid => l = .res0 ∨ ∃ j, streamId? sid = some j ∧ rowLocs j l
  | .shuffle sid => (∃ j, streamId? sid = some j ∧ rowLocs j l) ∨ ∃ k, l = .item k ∧ k.val < s.lenOperand
  | .rollRarity sid =>
    l = .res0 ∨ l = .res1 ∨ l = .pityOffset ∨ ∃ j, streamId? sid = some j ∧ rowLocs j l
  | .genRewards sid =>
    l = .res0 ∨ l = .pityOffset ∨ (∃ k, l = .reward k) ∨ ∃ j, streamId? sid = some j ∧ rowLocs j l

/-- The frame of a command: nothing changes but `STATUS` and its destinations. -/
def Framed (i : Instr) (s t : State) : Prop := ChangesOnly (fun l => l = .status ∨ destination i s l) s t

/-- The next move of `s`, if there is one, is neither hardware reset nor the command `i`. -/
def nextMoveIsNot (i : Instr) (s : State) : Prop :=
  ∀ m rest, s.moves = m :: rest → m ≠ .reset ∧ ∀ w, m = .write cmdAddr w → decode w ≠ .command i

/-- The Fisher-Yates permutation of the contents `f`, from index `n` down to 1, where the draw at index
`k` gives `draw k` (43_shuffle R180). -/
def fisherYates (draw : Nat → Nat) : Nat → (Nat → Word) → Nat → Word
  | 0, f => f
  | n + 1, f => fisherYates draw n (f ∘ Equiv.swap (n + 1) (draw (n + 1)))

/-- The pity offset before slot `k` of a batch whose slots roll `roll 0`, `roll 1` and so on, from the
offset `off` (44_reward R192, R194). -/
def batchOffset (c : RewardConfig) (off : BitVec 16) (roll : Nat → Nat) : Nat → BitVec 16
  | 0 => off
  | k + 1 =>
    let o := batchOffset c off roll k
    if c.pityDis then o else nextPityOffset c o (rarityOf c (roll k + o.toInt))

/-- The rarity of slot `k` of that batch. -/
def batchRarity (c : RewardConfig) (off : BitVec 16) (roll : Nat → Nat) (k : Nat) : Rarity :=
  rarityOf c (roll k + if c.pityDis then 0 else (batchOffset c off roll k).toInt)

/-- The pity offset after one roll of rarity `r` (44_reward R192), none under `CTRL.PITY_DIS`. -/
def offsetAfter (c : RewardConfig) (off : BitVec 16) (r : Rarity) : BitVec 16 :=
  if c.pityDis then off else nextPityOffset c off r

/-- The rarity of a roll at an offset (44_reward R192), which `CTRL.PITY_DIS` leaves out. -/
def rarityOfRoll (c : RewardConfig) (off : BitVec 16) (roll : Nat) : Rarity :=
  rarityOf c (roll + if c.pityDis then 0 else off.toInt)

/-- A state without its item memory and the counter of the memory's free value. -/
def State.withoutItems (s : State) : State :=
  { s with block := { s.block with items := [] }, resets := 0 }

/-- The outcome of a step, its next state without the item memory. -/
def outcomeWithoutItems : Host.Outcome State Fault Refusal → Host.Outcome State Fault Refusal
  | .next t => .next t.withoutItems
  | .fault f => .fault f
  | .refused r => .refused r

end Sys2Proof.Machine
end

