-- ==== Sys2Proof/Certificates/Slice0/Obligations.lean ====
section
/-! DEFINITION. The statements about the model, for the provers. Each docstring names the rule of spec/ it
formalises, or says what it is derived from. -/

open Sys2Proof Sys2Proof.Machine

/-! ### Encoding -/

/-- Derived from 30_encoding sections 1 and 3: a command with a legal `sid` is encoded as the word
`opcode + 256*sid`, and the decoder gives it back. -/
def Obligations.DecodeOfEncodeIsTheCommand : Prop :=
  ∀ i : Instr, (encode i).toNat = i.opcode.toNat + 256 * (i.sid?.getD 0).toNat ∧
    (i.wellFormed = true → decode (encode i) = .command i)

/-- Derived from 30_encoding sections 1, 3 and 4: the decoder accepts no word but an encoding, and what it
gives has a legal `sid`. -/
def Obligations.DecodedWordIsTheEncoding : Prop :=
  ∀ (w : Word) (i : Instr), decode w = .command i → i.wellFormed = true ∧ encode i = w

/-- 30_encoding R84: which words fail with `E_ILLEGAL_CMD`, which with `E_BAD_STREAM`, both changing no
state but `CMD` and `STATUS`, and that every other word is a command with a legal `sid`. -/
def Obligations.RejectedWordsFailByName : Prop :=
  ∀ (s : State) (w : Word) (rest : List HostMove), s.moves = .write cmdAddr w :: rest →
    let opcode := w.toNat % 256
    let sid := w.toNat / 256 % 16
    let illegal := 2 ^ 12 ≤ w.toNat ∨ ¬(formatNOpcode opcode ∨ formatSOpcode opcode) ∨
      (formatNOpcode opcode ∧ sid ≠ 0)
    let reservedStream := formatSOpcode opcode ∧ 13 ≤ sid
    (illegal → step s = .next (((s.take rest).setCmd w).raise .illegalCmd)) ∧
    (¬illegal → reservedStream → step s = .next (((s.take rest).setCmd w).raise .badStream)) ∧
    (¬illegal → ¬reservedStream → ∃ i, decode w = .command i ∧ i.wellFormed = true)

/-- Derived from 30_encoding section 3 and 95_test_vectors P6: words written out from the encodings. -/
def Obligations.SampleWordsDecode : Prop :=
  decode 0x0000000000000912 = .command (.drawRange 9) ∧ decode 0x002 = .command .init ∧
  decode 0x003 = .command .restore ∧ decode 0x006 = .command .actSnap ∧
  decode 0x00A = .command .pityReset ∧ decode 0xC10 = .command (.streamNew 12) ∧
  decode 0x022 = .command (.genRewards 0) ∧ decode 0x920 = .command (.shuffle 9) ∧
  decode 0xD11 = .badStream ∧ decode 0x030 = .illegalCmd ∧ decode 0x102 = .illegalCmd ∧
  decode 0x1000 = .illegalCmd

/-! ### The step and the port -/

/-- Derived from 30_encoding section 5: a write of a command's word to `CMD` puts the word into `CMD` and
runs the command, and the move is no longer pending. `withFetchWord` places such a write. -/
def Obligations.StepRunsTheDecodedCommand : Prop :=
  (∀ (s : State) (w : Word) (rest : List HostMove) (i : Instr),
    s.moves = .write cmdAddr w :: rest → decode w = .command i →
      step s = exec i ((s.take rest).setCmd w)) ∧
  (∀ (s : State) (w : Nat) (i : Instr), decode (tableWord 32 w) = .command i →
      step (s.withFetchWord 32 w) = exec i ((s.take s.moves).setCmd (tableWord 32 w)))

/-- 20_memory R62. -/
def Obligations.ReservedAndReadOnlyAddresses : Prop :=
  (∀ (s : State) (a : Addr), reservedAddr a.toNat → s.port a = 0) ∧
  (∀ (s : State) (a : Addr) (v : Word) (rest : List HostMove), s.moves = .write a v :: rest →
    reservedAddr a.toNat ∨ readOnlyAddr a.toNat → step s = .next (s.take rest))

/-- 20_memory R66: the read-only narrow registers read extended; a writable one keeps the low bits of the written word and reads extended; no host
write of any value to it is an error. -/
def Obligations.NarrowRegistersKeepLowBits : Prop :=
  (∀ s : State, (s.port 0x009).toNat = s.block.mgr.floor.toNat ∧
    (s.port 0x00A).toNat = s.block.mgr.act.toNat ∧
    ∀ i : StreamId, (s.port (BitVec.ofNat 11 (0x042 + 4 * i.val))).toNat = (s.row i).ctr.toNat) ∧
  ∀ (s : State) (a : Addr) (v : Word) (rest : List HostMove), s.moves = .write a v :: rest →
    a ≠ cmdAddr → ∃ t, step s = .next t ∧ t.block.status = s.block.status ∧
      (a = 0x010 → (t.port a).toNat = v.toNat % 2 ^ 3) ∧
      (a = 0x011 ∨ a = 0x012 ∨ a = 0x013 ∨ a = 0x014 ∨ a = 0x016 →
        (t.port a).toInt = v.toInt.bmod (2 ^ 16)) ∧
      (a = 0x015 → (t.port a).toNat = v.toNat % 2 ^ 16) ∧
      (a = 0x017 → (t.port a).toNat = v.toNat % 2 ^ 32) ∧
      (0x018 ≤ a.toNat → a.toNat ≤ 0x01A → (t.port a).toNat = v.toNat % 2 ^ 31) ∧
      (0x020 ≤ a.toNat → a.toNat ≤ 0x02C → (t.port a).toNat = v.toNat % 2 ^ 32)

/-- Derived from 20_memory sections 2 and 3 (R61, R65): each address of the map reads its register, narrow
ones extended; a write to an address other than `CMD` changes what is read there and nowhere else; `OPA`,
`OPB` and every `ITEM` entry then read as the word written. -/
def Obligations.AddressMapAndHostWrites : Prop :=
  (∀ s : State, s.ShowsMap) ∧
  ∀ (s : State) (a : Addr) (v : Word) (rest : List HostMove), s.moves = .write a v :: rest →
    a ≠ cmdAddr → ∃ t, step s = .next t ∧ (∀ b, b ≠ a → t.port b = s.port b) ∧
      (a = 0x002 ∨ a = 0x003 ∨ 0x400 ≤ a.toNat → t.port a = v) ∧
      t.block.shadow = s.block.shadow ∧ t.params = s.params ∧ t.moves = rest ∧
      t.readData = none ∧ t.resets = s.resets

/-- Derived from 20_memory sections 1 and 3: a read returns the word of its location and has no side
effect. That the word stands in `readData` is the model's choice (log 3). -/
def Obligations.HostReadReturnsTheWord : Prop :=
  ∀ (s : State) (a : Addr) (rest : List HostMove), s.moves = .read a :: rest →
    ∃ t, step s = .next t ∧ t.readData = some (s.port a) ∧ t.block = s.block ∧ t.params = s.params ∧
      t.moves = rest ∧ t.resets = s.resets

/-- Derived from 70_reset_and_hazards section 1 and 10_state section 11: after hardware reset every
register and buffer but `ITEM` reads 0, and the shadow bank is 0. Each `ITEM` entry is a free value (log 4):
the clause about it holds whatever that value is. The moves left and the parameters stay (log 6). -/
def Obligations.HardResetClearsTheBlock : Prop :=
  ∀ (s : State) (rest : List HostMove), s.moves = .reset :: rest →
    ∃ t, step s = .next t ∧ (∀ a : Addr, a.toNat < 0x400 → t.port a = 0) ∧
      (∀ a : Addr, 0x400 ≤ a.toNat →
        t.port a = Config.itemAfterReset (s.resets + 1) (a.toNat - 0x400)) ∧
      t.block.shadow = Manager.zero ∧ t.params = s.params ∧ t.moves = rest ∧ t.readData = none

/-- 70_reset_and_hazards R251: the state after reset, as a host sees it. -/
def Obligations.AfterResetWhatAHostSees : Prop :=
  ∀ s : State, s.block = Block.reset →
    s.port 0x001 = 0 ∧ (∀ a : Addr, 0x040 ≤ a.toNat → a.toNat ≤ 0x073 → s.port a = 0) ∧
    (∀ i : Instr, i.wellFormed = true → needsInit i → exec i s = .next (s.raise .notInit)) ∧
    exec .rollback s = .next (s.raise .noCkpt) ∧
    (∀ i : Instr, i ∈ [Instr.nop, .clrerr, .pityReset, .init, .restore] →
      ∃ t, exec i s = .next t ∧ t.block.status.err = none)

/-- Derived from 10_state sections 4, 8 and 9, 60_exceptions section 1 (R220) and 44_reward section 1 (R190):
where the fields of `STATUS`, `CTRL` and a `REWARD` entry stand, that every other bit reads 0, and the codes
of the errors and the rarities. -/
def Obligations.PackedWordsHoldTheirFields : Prop :=
  (∀ t : Status, t.word.toNat = t.init.toNat + 2 * t.ckpt.toNat + 2 ^ 8 * (errField t.err).toNat
    + 2 ^ 16 * (errField t.errFirst).toNat + 2 ^ 24 * t.errCmd.toNat) ∧
  (∀ c : RewardConfig, c.ctrlWord.toNat = c.pityDis.toNat + 2 * c.upgMode.toNat) ∧
  (∀ r : RewardSlot, r.word.toNat = r.index.toNat + 2 ^ 32 * r.rarity.code.toNat + 2 ^ 34 * r.upg.toNat
    + 2 ^ 63 * r.valid.toNat) ∧
  errField none = 0x00 ∧ errField (some .illegalCmd) = 0x01 ∧ errField (some .badStream) = 0x02 ∧
  errField (some .notInit) = 0x03 ∧ errField (some .badArg) = 0x04 ∧ errField (some .ctrOvf) = 0x05 ∧
  errField (some .poolExhausted) = 0x06 ∧ errField (some .noCkpt) = 0x07 ∧
  Rarity.common.code = 0 ∧ Rarity.uncommon.code = 1 ∧ Rarity.rare.code = 2

/-! ### Errors -/

/-- 60_exceptions R221: what `raise` records, and what a command that completes writes. -/
def Obligations.RaiseRecordsTheFirstError : Prop :=
  ∀ (s : State) (e : Err),
    (s.raise e).block.status.err = some e ∧
    (s.block.status.errFirst = none → (s.raise e).block.status.errFirst = some e ∧
      (s.raise e).block.status.errCmd = s.block.cmd.extractLsb' 0 12) ∧
    (s.block.status.errFirst ≠ none → (s.raise e).block.status.errFirst = s.block.status.errFirst ∧
      (s.raise e).block.status.errCmd = s.block.status.errCmd) ∧
    (s.raise e).block.status.init = s.block.status.init ∧
    (s.raise e).block.status.ckpt = s.block.status.ckpt ∧
    (s.raise e).setStatus s.block.status = s ∧
    s.complete.block.status.err = none ∧
    s.complete.block.status.init = s.block.status.init ∧
    s.complete.block.status.ckpt = s.block.status.ckpt ∧
    s.complete.setStatus s.block.status = s ∧
    s.complete.block.status.errFirst = s.block.status.errFirst ∧
    s.complete.block.status.errCmd = s.block.status.errCmd

/-- Derived from 60_exceptions section 2 (R230): a failing command other than `GEN_REWARDS` changed `STATUS` only (its `CMD` was
written before), `GEN_REWARDS` too when it fails on its stream, its initialisation or its arguments, and
the commands that cannot fail past their checks do not. -/
def Obligations.FailingCommandsArePrecise : Prop :=
  ∀ (i : Instr) (s t : State) (e : Err), exec i s = .next t → t.block.status.err = some e →
    ((∀ sid, i ≠ .genRewards sid) → t = s.raise e) ∧
    (∀ sid, i = .genRewards sid →
      (e = .badStream ∨ e = .notInit ∨ e = .badArg ∨ e = .poolExhausted ∨ e = .ctrOvf) ∧
      (e = .badStream ∨ e = .notInit → t = s.raise e) ∧
      (16 < s.countOperand ∨ s.block.cfg.upgMode = 3 → t = s.raise e)) ∧
    (i.sid? = none ∨ (∃ sid, i = .streamNew sid) →
      e = .badStream ∨ e = .notInit ∨ e = .badArg ∨ e = .noCkpt)

/-- Derived from 30_encoding section 5 and 60_exceptions section 3 (R88, R89, R222): a bad stream is reported
before a missing initialisation, and that before anything the command's rule finds. -/
def Obligations.StreamThenInitAreCheckedFirst : Prop :=
  ∀ (i : Instr) (s : State),
    (i.wellFormed = false → exec i s = .next (s.raise .badStream)) ∧
    (i.wellFormed = true → needsInit i → s.block.status.init = false → exec i s = .next (s.raise .notInit))

/-- Derived from 10_state sections 3, 4 and 8: no command writes `CMD`, `OPA`, `OPB` or the reward
configuration, and none touches the parameters or the host's side of the port. -/
def Obligations.CommandsLeaveOperandsAndConfiguration : Prop :=
  ∀ (i : Instr) (s t : State), exec i s = .next t →
    t.block.cmd = s.block.cmd ∧ t.block.opa = s.block.opa ∧ t.block.opb = s.block.opb ∧
    t.block.cfg = s.block.cfg ∧ t.params = s.params ∧ t.moves = s.moves ∧ t.readData = s.readData ∧
    t.resets = s.resets

/-- Derived from 10_state section 3 (R23): results are written only by the commands that name them and only
when these complete. -/
def Obligations.ResultsOnlyFromCompletingCommands : Prop :=
  ∀ (i : Instr) (s t : State), exec i s = .next t →
    (t.block.status.err ≠ none → t.block.res0 = s.block.res0 ∧ t.block.res1 = s.block.res1) ∧
    (i.sid? = none ∨ (∃ sid, i = .streamNew sid) ∨ (∃ sid, i = .shuffle sid) →
      t.block.res0 = s.block.res0) ∧
    ((∀ sid, i ≠ .rollRarity sid) → t.block.res1 = s.block.res1)

/-- Derived from 93_implementation_defined section 1 (U4): a command answers a next state, or it makes a
bounded draw that never ends; nothing is refused. That the endless draw is a fault is the model's choice
(log 9). -/
def Obligations.EveryCommandRunsUnlessARedrawNeverEnds : Prop :=
  ∀ (i : Instr) (s : State),
    (∃ t, exec i s = .next t) ∨ (exec i s = .fault .redrawNeverEnds ∧ mayRedraw i)

/-- Derived from 41_draws section 2 and 93_implementation_defined section 1 (U4): the model's fuel (log 9)
runs out exactly when the rejection loop of R121 would never accept a raw draw. -/
def Obligations.FuelRunsOutExactlyWhenTheLoopNeverEnds : Prop :=
  ∀ (p : Config) (n : Nat) (r : Row), 1 ≤ n →
    (bounded p n r = .stuck ↔ ∀ k, ¬ NoOverflow (r.bitsAt p k) n)

/-! ### The generator -/

/-- 40_generator R102, with worked values of 95_test_vectors section 2.1. -/
def Obligations.GeneratorStep : Prop :=
  (∀ (a b : Word) (c : BitVec 32),
    let t := a ^^^ (a <<< 23)
    let n := t ^^^ b ^^^ (t >>> 17) ^^^ (b >>> 26)
    nextU64 ⟨a, b, c⟩ = (b + n, ⟨b, n, c⟩)) ∧
  nextU64 ⟨1, 2, 0⟩ = (0x800045, ⟨2, 0x800043, 0⟩) ∧
  nextU64 ⟨0x8000000000000000, 0, 0⟩ = (0x8000400000000000, ⟨0, 0x8000400000000000, 0⟩)

/-- Derived from 40_generator section 3 (R103): the all-zero pair steps to itself, and only from it can the
all-zero pair be reached. -/
def Obligations.OnlyTheZeroPairStepsToZero : Prop :=
  ∀ r : Row, (nextU64 r).2.live ↔ r.live

/-- Derived from 40_generator section 1 (R100): `Finalize` is a bijection for any odd constants, and only 0
is sent to 0. -/
def Obligations.FinalizeIsABijection : Prop :=
  ∀ p : Config, Function.Bijective (finalize p) ∧ ∀ x, finalize p x = 0 ↔ x = 0

/-- 40_generator R101: the two words of a seed's pair, the sentinel for the zero seed, and that the pair is
never all-zero. -/
def Obligations.SeedInitPair : Prop :=
  ∀ (p : Config) (seed : Word),
    (seed ≠ 0 → seedInit p seed = (finalize p seed, finalize p (finalize p seed))) ∧
    seedInit p 0 = seedInit p 0x8000000000000000 ∧
    seedInit p seed ≠ (0, 0)

/-! ### Draws -/

/-- Derived from 41_draws section 2 (R121): the 63 bits a bounded draw takes from a raw draw, and the closed
form of the accept test. That the 63 bits are a window, at any of its two places, is the model's choice
(log 7); at the default place, bit 1, they are `raw >> 1`, as R121 has them. -/
def Obligations.BoundedDrawTakesAndAccepts : Prop :=
  (∀ (p : Config) (raw : Word), boundedRaw p raw = raw.toNat / 2 ^ p.boundedLow.val % 2 ^ 63 ∧
    (p.boundedLow = 1 → boundedRaw p raw = (raw >>> 1).toNat)) ∧
  Config.default.boundedLow = 1 ∧
  ∀ bits n : Nat, 1 ≤ n → bits < 2 ^ 63 → (accepts bits n = true ↔ bits < n * (2 ^ 63 / n))

/-- 41_draws R128: `DRAW_BOUNDED` on every operand; `k` is the number of its redraws. -/
def Obligations.DrawBoundedResult : Prop :=
  ∀ (s : State) (sid : BitVec 4) (i : StreamId), streamId? sid = some i → s.block.status.init = true →
    encode (.drawBounded sid) = BitVec.ofNat 64 (0x011 + 256 * sid.toNat) ∧
    (s.block.opa.toInt ≤ 0 → exec (.drawBounded sid) s = .next (s.raise .badArg)) ∧
    (0 < s.block.opa.toInt → (s.row i).ctr.toNat = 2 ^ 32 - 1 →
      exec (.drawBounded sid) s = .next (s.raise .ctrOvf)) ∧
    (∀ k, 0 < s.block.opa.toInt → (s.row i).ctr.toNat < 2 ^ 32 - 1 →
      (s.row i).redraws s.params s.block.opa.toNat k →
      exec (.drawBounded sid) s = .next (((s.setRow i ((s.row i).drawn k)).setRes0
        (BitVec.ofNat 64 ((s.row i).bitsAt s.params k % s.block.opa.toNat))).complete))

/-- Derived from 41_draws section 2 (R121: "a power of two never rejects"): such a draw completes after one
raw draw, whatever the state of the stream. -/
def Obligations.PowerOfTwoBoundNeverRedraws : Prop :=
  ∀ (s : State) (sid : BitVec 4) (i : StreamId) (m : Nat), streamId? sid = some i →
    s.block.status.init = true → (s.row i).ctr.toNat < 2 ^ 32 - 1 → m < 63 →
    s.block.opa = BitVec.ofNat 64 (2 ^ m) →
    exec (.drawBounded sid) s = .next (((s.setRow i ((s.row i).drawn 0)).setRes0
        (BitVec.ofNat 64 ((s.row i).bitsAt s.params 0 % 2 ^ m))).complete)

/-- 41_draws R129: `DRAW_RANGE` on every operand; the result lies in `[lo, hi]` and stands sign-extended in
`RES0`; `OPA[63:32]` and `OPB[63:32]` are ignored. -/
def Obligations.DrawRangeResult : Prop :=
  ∀ (s : State) (sid : BitVec 4) (i : StreamId), streamId? sid = some i → s.block.status.init = true →
    let lo := (s.block.opa.extractLsb' 0 32).toInt
    let hi := (s.block.opb.extractLsb' 0 32).toInt
    let n := (hi - lo + 1).toNat
    encode (.drawRange sid) = BitVec.ofNat 64 (0x012 + 256 * sid.toNat) ∧
    (hi < lo → exec (.drawRange sid) s = .next (s.raise .badArg)) ∧
    (lo ≤ hi → (s.row i).ctr.toNat = 2 ^ 32 - 1 → exec (.drawRange sid) s = .next (s.raise .ctrOvf)) ∧
    (∀ k, lo ≤ hi → (s.row i).ctr.toNat < 2 ^ 32 - 1 → (s.row i).redraws s.params n k →
      ∃ v : Word, v.toInt = lo + ((s.row i).bitsAt s.params k % n : Nat) ∧ lo ≤ v.toInt ∧ v.toInt ≤ hi ∧
        exec (.drawRange sid) s = .next (((s.setRow i ((s.row i).drawn k)).setRes0 v).complete))

/-- Derived from 41_draws section 3 (R130, R132, R134): the three draws that return bits of one raw draw. That `DRAW_FLOAT` takes a window of 24 bits at any place is the model's choice (log 7); at the default
place, bit 40, it is `raw >> 40`, as R132 has it. -/
def Obligations.RawDrawResults : Prop :=
  ∀ (s : State) (sid : BitVec 4) (i : StreamId), streamId? sid = some i → s.block.status.init = true →
    let raw := (s.row i).rawAt 0
    encode (.drawBool sid) = BitVec.ofNat 64 (0x013 + 256 * sid.toNat) ∧
    encode (.drawFloat sid) = BitVec.ofNat 64 (0x015 + 256 * sid.toNat) ∧
    encode (.drawLong sid) = BitVec.ofNat 64 (0x016 + 256 * sid.toNat) ∧
    ((s.row i).ctr.toNat = 2 ^ 32 - 1 →
      exec (.drawBool sid) s = .next (s.raise .ctrOvf) ∧
      exec (.drawFloat sid) s = .next (s.raise .ctrOvf) ∧
      exec (.drawLong sid) s = .next (s.raise .ctrOvf)) ∧
    ((s.row i).ctr.toNat < 2 ^ 32 - 1 →
      exec (.drawBool sid) s = .next
        (((s.setRow i ((s.row i).drawn 0)).setRes0 (BitVec.ofNat 64 (raw.toNat % 2))).complete) ∧
      exec (.drawFloat sid) s = .next (((s.setRow i ((s.row i).drawn 0)).setRes0
        (BitVec.ofNat 64 (raw.toNat / 2 ^ s.params.floatLow.val % 2 ^ 24))).complete) ∧
      exec (.drawLong sid) s = .next (((s.setRow i ((s.row i).drawn 0)).setRes0 raw).complete))

/-- Derived from 41_draws section 3 (R124, R131): `DRAW_CHANCE` on every pattern; one raw draw, whatever the
pattern. The 24-bit value `m` is the window FLOAT_RAW, whose place is the model's choice (log 7); at its
default place, bit 40, it is `raw >> 40`. -/
def Obligations.DrawChanceResult : Prop :=
  ∀ (s : State) (sid : BitVec 4) (i : StreamId), streamId? sid = some i → s.block.status.init = true →
    let m := ((s.row i).rawAt 0).toNat / 2 ^ s.params.floatLow.val % 2 ^ 24
    encode (.drawChance sid) = BitVec.ofNat 64 (0x014 + 256 * sid.toNat) ∧
    ((s.row i).ctr.toNat = 2 ^ 32 - 1 → exec (.drawChance sid) s = .next (s.raise .ctrOvf)) ∧
    ((s.row i).ctr.toNat < 2 ^ 32 - 1 → exec (.drawChance sid) s = .next
      (((s.setRow i ((s.row i).drawn 0)).setRes0
        (if less24 m (s.block.opa.extractLsb' 0 32) then 1 else 0)).complete))

/-- 41_draws R125: `Less24` compares exactly, as rationals, with the value of the pattern; not a number is
never more, `+infinity` always. -/
def Obligations.LessThanProbabilityIsExact : Prop :=
  ∀ (m : Nat) (p : BitVec 32), m < 2 ^ 24 →
    ((p.extractLsb' 23 8).toNat ≠ 255 →
      (less24 m p = true ↔ (m : ℚ) * 2 ^ (-24 : ℤ) < f32Rat p)) ∧
    ((p.extractLsb' 23 8).toNat = 255 →
      (less24 m p = true ↔ p.extractLsb' 0 23 = 0 ∧ p.getLsbD 31 = false)) ∧
    (0x3F800000 ≤ p.toNat → p.toNat ≤ 0x7F800000 → less24 m p = true) ∧
    (0x80000000 ≤ p.toNat → less24 m p = false)

/-- Derived from 41_draws (its common part, R120, R134) and 10_state section 6 (R34): what the seven stream
commands of 41_draws leave unchanged, whether they complete or fail. -/
def Obligations.StreamDrawsFrame : Prop :=
  ∀ (i : Instr) (sid : BitVec 4) (s t : State),
    i ∈ [Instr.streamNew sid, .drawBounded sid, .drawRange sid, .drawBool sid, .drawChance sid,
      .drawFloat sid, .drawLong sid] → exec i s = .next t → Framed i s t

/-! ### Construction and replay -/

/-- Derived from 41_draws section 4 (R127, R135, R136): `STREAM_NEW` when each replayed draw is accepted at
once. -/
def Obligations.StreamNewBuildsTheReplayedRow : Prop :=
  ∀ (s : State) (sid : BitVec 4) (i : StreamId), streamId? sid = some i → s.block.status.init = true →
    let n := s.block.opb.toNat % 2 ^ 32
    let fresh : Row := ⟨(seedInit s.params s.block.opa).1, (seedInit s.params s.block.opa).2, 0⟩
    encode (.streamNew sid) = BitVec.ofNat 64 (0x010 + 256 * sid.toNat) ∧ (fresh.replaysPlainly s.params n →
      exec (.streamNew sid) s = .next ((s.setRow i (fresh.plainly n)).complete))

/-- Derived from 41_draws section 4 (R127: "N literal `draw_int_inclusive(0, 999)` calls"): `STREAM_NEW` with
`N + 1` builds the row that `STREAM_NEW` with `N` and one `DRAW_RANGE` on `(0, 999)` build, redraws and all. -/
def Obligations.ReplayIsLiteralDraws : Prop :=
  ∀ (s t u v : State) (sid : BitVec 4) (i : StreamId) (n : Nat), streamId? sid = some i →
    n + 1 < 2 ^ 32 → exec (.streamNew sid) (s.setOpb (BitVec.ofNat 64 n)) = .next t →
    exec (.drawRange sid) ((t.setOpa 0).setOpb 999) = .next u → u.block.status.err = none →
    exec (.streamNew sid) (s.setOpb (BitVec.ofNat 64 (n + 1))) = .next v →
    v.row i = u.row i ∧ (v.row i).ctr.toNat = n + 1

/-! ### The manager -/

/-- 42_stream_manager R151: `INIT` completes in every state and builds all 13 rows. -/
def Obligations.InitConstructsEveryStream : Prop :=
  encode .init = 0x002 ∧ ∀ s : State, ∃ t, exec .init s = .next t ∧
    (∀ i : StreamId, i.val ≤ 11 → t.row i = Row.seeded s.params s.block.opa) ∧
    t.row 12 = Row.seeded s.params
      (s.block.opa + s.params.actOffset.head s.params.actOffset_ne_nil) ∧
    t.block.mgr.baseSeed = s.block.opa ∧ t.block.mgr.floor = 0 ∧ t.block.mgr.act = 0 ∧
    t.block.status = { s.block.status with init := true, err := none } ∧ Framed .init s t

/-- 42_stream_manager R152. -/
def Obligations.FloorAdvReplacesPerFloorStreams : Prop :=
  encode .floorAdv = 0x004 ∧ ∀ s : State,
    (s.block.status.init = false → exec .floorAdv s = .next (s.raise .notInit)) ∧
    (s.block.status.init = true → ∃ t, exec .floorAdv s = .next t ∧
      (∀ i : StreamId, 7 ≤ i.val → i.val ≤ 11 → t.row i = Row.seeded s.params
        (BitVec.ofNat 64 (s.block.mgr.baseSeed.toNat + s.block.opa.toNat % 2 ^ 32))) ∧
      (∀ i : StreamId, i.val ≤ 6 ∨ i.val = 12 → t.row i = s.row i) ∧
      t.block.mgr.floor.toNat = s.block.opa.toNat % 2 ^ 32 ∧
      t.block.status = { s.block.status with err := none } ∧ Framed .floorAdv s t)

/-- 42_stream_manager R153. -/
def Obligations.ActSeedReplacesTheMapStream : Prop :=
  encode .actSeed = 0x005 ∧ ∀ s : State,
    let act := s.block.opa.toNat % 2 ^ 8
    (s.block.status.init = false → exec .actSeed s = .next (s.raise .notInit)) ∧
    (s.block.status.init = true → s.params.actOffset.length ≤ act →
      exec .actSeed s = .next (s.raise .badArg)) ∧
    (∀ h : act < s.params.actOffset.length, s.block.status.init = true →
      ∃ t, exec .actSeed s = .next t ∧
        t.row 12 = Row.seeded s.params (s.block.mgr.baseSeed + s.params.actOffset[act]) ∧
        (∀ i : StreamId, i.val ≤ 11 → t.row i = s.row i) ∧ t.block.mgr.act.toNat = act ∧
        t.block.status = { s.block.status with err := none } ∧ Framed .actSeed s t)

/-- Derived from 42_stream_manager section 3 (R154): `ACT_SNAP` at a boundary changes nothing; between two
it brings the counter to the upper one, by one replay draw for each count; so it is idempotent. -/
def Obligations.ActSnapMapsTheCardCounter : Prop :=
  encode .actSnap = 0x006 ∧ ∀ s : State,
    let c := (s.row 0).ctr.toNat
    (s.block.status.init = false → exec .actSnap s = .next (s.raise .notInit)) ∧
    (s.block.status.init = true → c = 0 ∨ c = 250 ∨ c = 500 ∨ 750 ≤ c →
      exec .actSnap s = .next s.complete) ∧
    (∀ target, s.block.status.init = true →
      (0 < c ∧ c < 250 ∧ target = 250) ∨ (250 < c ∧ c < 500 ∧ target = 500) ∨
        (500 < c ∧ c < 750 ∧ target = 750) →
      ((s.row 0).replaysPlainly s.params (target - c) →
        exec .actSnap s = .next ((s.setRow 0 ((s.row 0).plainly (target - c))).complete)) ∧
      (∀ t, exec .actSnap s = .next t →
        (t.row 0).ctr.toNat = target ∧ exec .actSnap t = .next t ∧ Framed .actSnap s t))

/-- 42_stream_manager R155. -/
def Obligations.SnapshotCopiesTheCounters : Prop :=
  encode .snapshot = 0x007 ∧ ∀ s : State,
    (s.block.status.init = false → exec .snapshot s = .next (s.raise .notInit)) ∧
    (s.block.status.init = true → ∃ t, exec .snapshot s = .next t ∧
      (∀ i : StreamId, t.block.snap[i.val] = (s.row i).ctr) ∧
      t.block.status = { s.block.status with err := none } ∧ Framed .snapshot s t)

/-- Derived from 42_stream_manager section 4 (R156): `RESTORE` with an illegal act; what every completing
`RESTORE` leaves; and the rows it builds when each replayed draw is accepted at once. -/
def Obligations.RestoreRebuildsTheManager : Prop :=
  encode .restore = 0x003 ∧ ∀ s : State,
    let floor := s.block.opb.toNat % 2 ^ 32
    let act := s.block.opb.toNat / 2 ^ 32 % 2 ^ 8
    let fresh (i : StreamId) : Row := Row.seeded s.params (if i.val ≤ 6 then s.block.opa
      else if i.val ≤ 11 then BitVec.ofNat 64 (s.block.opa.toNat + floor)
      else s.block.opa + s.params.actOffset.getD act 0)
    (s.params.actOffset.length ≤ act → exec .restore s = .next (s.raise .badArg)) ∧
    (act < s.params.actOffset.length →
      (∀ t, exec .restore s = .next t →
        (∀ i : StreamId, (t.row i).ctr = s.block.snap[i.val]) ∧ t.block.mgr.baseSeed = s.block.opa ∧
        t.block.mgr.floor.toNat = floor ∧ t.block.mgr.act.toNat = act ∧
        t.block.status = { s.block.status with init := true, err := none } ∧ Framed .restore s t) ∧
      ((∀ i : StreamId, (fresh i).replaysPlainly s.params s.block.snap[i.val].toNat) →
        ∃ t, exec .restore s = .next t ∧
          ∀ i : StreamId, t.row i = (fresh i).plainly s.block.snap[i.val].toNat))

/-- 42_stream_manager R157. -/
def Obligations.CheckpointCopiesTheManager : Prop :=
  encode .checkpoint = 0x008 ∧ ∀ s : State,
    (s.block.status.init = false → exec .checkpoint s = .next (s.raise .notInit)) ∧
    (s.block.status.init = true → ∃ t, exec .checkpoint s = .next t ∧
      t.block.shadow = s.block.mgr ∧ t.block.status = { s.block.status with ckpt := true, err := none } ∧
      (∀ a : Addr, a ≠ 0x001 → t.port a = s.port a) ∧ t.params = s.params ∧ t.moves = s.moves ∧
      t.readData = s.readData ∧ t.resets = s.resets)

/-- 42_stream_manager R158. -/
def Obligations.RollbackCopiesTheShadowBank : Prop :=
  encode .rollback = 0x009 ∧ ∀ s : State,
    (s.block.status.ckpt = false → exec .rollback s = .next (s.raise .noCkpt)) ∧
    (s.block.status.ckpt = true → ∃ t, exec .rollback s = .next t ∧ t.block.mgr = s.block.shadow ∧
      t.block.status = { s.block.status with err := none } ∧ Framed .rollback s t)

/-- Derived from 10_state section 7 (R33) and 42_stream_manager section 5: after a checkpoint, and any
number of steps among whose moves there is no further checkpoint and no hardware reset, a rollback brings
back the manager as it was at the checkpoint. Nothing is said of what a rollback does not undo (R257). -/
def Obligations.ManagerAfterRollbackIsTheCheckpointed : Prop :=
  ∀ (s c t u : State) (k : Nat), s.block.status.init = true → exec .checkpoint s = .next c →
    Host.Core.run core k c = .next t →
    (∀ m ∈ c.moves, m ≠ .reset ∧ ∀ w, m = .write cmdAddr w → decode w ≠ .command .checkpoint) →
    exec .rollback t = .next u → u.block.mgr = s.block.mgr ∧ u.block.shadow = s.block.mgr

/-- Derived from 10_state section 4 (R25) and 60_exceptions sections 1 and 2 (R220, R221, R230): each of the
five fields of `STATUS` after every command, whether it completes or fails. `ERR` holds the code of the first
check that fails, else one that the command's rule can raise, else none. -/
def Obligations.StatusAfterEveryCommand : Prop :=
  ∀ (i : Instr) (s t : State), exec i s = .next t →
    (t.block.status.init = true ↔ s.block.status.init = true ∨
      t.block.status.err = none ∧ i ∈ [Instr.init, .restore]) ∧
    (t.block.status.ckpt = true ↔ s.block.status.ckpt = true ∨
      t.block.status.err = none ∧ i = .checkpoint) ∧
    (i = .clrerr → t.block.status.errFirst = none ∧ t.block.status.errCmd = 0) ∧
    (i ≠ .clrerr → t.block.status.err = none ∨ s.block.status.errFirst ≠ none →
      t.block.status.errFirst = s.block.status.errFirst ∧ t.block.status.errCmd = s.block.status.errCmd) ∧
    (i ≠ .clrerr → t.block.status.err ≠ none → s.block.status.errFirst = none →
      t.block.status.errFirst = t.block.status.err ∧
      t.block.status.errCmd = s.block.cmd.extractLsb' 0 12) ∧
    (t.block.status.err = some .badStream ↔ i.wellFormed = false) ∧
    (t.block.status.err = some .notInit ↔
      i.wellFormed = true ∧ needsInit i ∧ s.block.status.init = false) ∧
    ∀ e, t.block.status.err = some e → e = .badStream ∨ e = .notInit ∨ e ∈ ruleErrors i

/-- Derived from 10_state section 4 (R25): what clears and what keeps the flags of `STATUS`. -/
def Obligations.StatusFlagsAreClearedOnlyAsTheTableSays : Prop :=
  ∀ s t : State, step s = .next t → (∀ rest, s.moves ≠ .reset :: rest) →
    (s.block.status.init = true → t.block.status.init = true) ∧
    (s.block.status.ckpt = true → t.block.status.ckpt = true) ∧
    (s.block.status.errFirst ≠ none → nextMoveIsNot .clrerr s →
      t.block.status.errFirst = s.block.status.errFirst ∧
      t.block.status.errCmd = s.block.status.errCmd) ∧
    (nextMoveIsNot .checkpoint s → t.block.shadow = s.block.shadow ∧
      (s.block.status.ckpt = false → t.block.status.ckpt = false))

/-- Derived from 42_stream_manager and 45_system (their common parts): what the format N commands other
than `CHECKPOINT` leave unchanged, whether they complete or fail. -/
def Obligations.FormatNFrame : Prop :=
  ∀ (i : Instr) (s t : State), i.sid? = none → i ≠ .checkpoint → exec i s = .next t → Framed i s t

/-! ### The shuffle engine -/

/-- Derived from 43_shuffle (R180, R182): the two checks, and the shuffle whose draws are each accepted at
once: the draw at index `k` is raw draw number `len - 1 - k` on `k + 1` values. -/
def Obligations.ShuffleResult : Prop :=
  ∀ (s : State) (sid : BitVec 4) (i : StreamId), streamId? sid = some i → s.block.status.init = true →
    let len := s.block.opa.toNat % 2 ^ 16
    encode (.shuffle sid) = BitVec.ofNat 64 (0x020 + 256 * sid.toNat) ∧
    (1024 < len → exec (.shuffle sid) s = .next (s.raise .badArg)) ∧
    (2 ≤ len → len ≤ 1024 → 2 ^ 32 - 1 < (s.row i).ctr.toNat + (len - 1) →
      exec (.shuffle sid) s = .next (s.raise .ctrOvf)) ∧
    (len ≤ 1024 → (len < 2 ∨ (s.row i).ctr.toNat + (len - 1) ≤ 2 ^ 32 - 1) →
      (∀ k, 1 ≤ k → k < len → NoOverflow ((s.row i).bitsAt s.params (len - 1 - k)) (k + 1)) →
      ∃ t, exec (.shuffle sid) s = .next t ∧ t.row i = (s.row i).plainly (len - 1) ∧
        t.block.status = { s.block.status with err := none } ∧
        ∀ k, t.item k = fisherYates
          (fun k => (s.row i).bitsAt s.params (len - 1 - k) % (k + 1)) (len - 1) s.item k)

/-- Derived from 43_shuffle (R180, R181): every `SHUFFLE` that succeeds permutes the entries below `len`, moves nothing else, and
raises the counter by exactly `len - 1`. -/
def Obligations.ShufflePermutesAndCounts : Prop :=
  ∀ (s t : State) (sid : BitVec 4) (i : StreamId), streamId? sid = some i →
    exec (.shuffle sid) s = .next t → t.block.status.err = none →
    let len := s.block.opa.toNat % 2 ^ 16
    (t.row i).ctr.toNat = (s.row i).ctr.toNat + (len - 1) ∧
    ∃ σ : Equiv.Perm Nat, (∀ k, len ≤ k → σ k = k) ∧ ∀ k, t.item k = s.item (σ k)

/-! ### The reward selector -/

/-- 44_reward R192, R193: `ROLL_RARITY` on every configuration; `k` is the number of redraws of its roll. -/
def Obligations.RollRarityResult : Prop :=
  ∀ (s : State) (sid : BitVec 4) (i : StreamId), streamId? sid = some i → s.block.status.init = true →
    encode (.rollRarity sid) = BitVec.ofNat 64 (0x021 + 256 * sid.toNat) ∧
    ((s.row i).ctr.toNat = 2 ^ 32 - 1 → exec (.rollRarity sid) s = .next (s.raise .ctrOvf)) ∧
    (∀ k, (s.row i).ctr.toNat < 2 ^ 32 - 1 → (s.row i).redraws s.params 100 k →
      let roll := (s.row i).bitsAt s.params k % 100
      let dis := s.block.cfg.pityDis
      let v : Int := roll + if dis then 0 else s.block.pityOffset.toInt
      let rare := s.block.cfg.rarePct.toInt
      let unc := s.block.cfg.uncPct.toInt
      ∃ t, exec (.rollRarity sid) s = .next t ∧ t.row i = (s.row i).drawn k ∧ t.block.res1.toNat = roll ∧
        (v < rare → t.block.res0 = 2 ∧
          t.block.pityOffset = if dis then s.block.pityOffset else s.block.cfg.pityStart) ∧
        (rare ≤ v → v < rare + unc → t.block.res0 = 1 ∧ t.block.pityOffset = s.block.pityOffset) ∧
        (rare ≤ v → rare + unc ≤ v → t.block.res0 = 0 ∧ t.block.pityOffset.toInt =
          if dis then s.block.pityOffset.toInt
          else max (s.block.pityOffset.toInt - s.block.cfg.pityStep.toNat) s.block.cfg.pityFloor.toInt) ∧
        t.block.status = { s.block.status with err := none })

/-- 44_reward R195: `PITY_RESET` completes in every state. -/
def Obligations.PityResetLoadsTheStart : Prop :=
  encode .pityReset = 0x00A ∧
  ∀ s : State, exec .pityReset s = .next ((s.setPityOffset s.block.cfg.pityStart).complete)

/-- Derived from 44_reward section 2 (R199): the offset after `k` COMMON results in a row. -/
def Obligations.PityOffsetAfterCommonResults : Prop :=
  ∀ (c : RewardConfig) (off : BitVec 16) (k : Nat), 1 ≤ k ∨ c.pityFloor.toInt ≤ off.toInt →
    ((fun o => nextPityOffset c o .common)^[k] off).toInt =
      max (off.toInt - k * c.pityStep.toNat) c.pityFloor.toInt

/-- Derived from 44_reward section 3 (R194): the argument checks of `GEN_REWARDS`, the empty batch, a counter
that is full before the first draw or after it, and the batch of one slot, on an empty pool and with `a`
redraws in its roll and `b` in its index draw, in each upgrade mode. The 24-bit value of the upgrade draw is
the window FLOAT_RAW, whose place is the model's choice (log 7). -/
def Obligations.GenRewardsSmallBatches : Prop :=
  ∀ (s : State) (sid : BitVec 4) (i : StreamId), streamId? sid = some i → s.block.status.init = true →
    let count := s.block.opa.toNat % 2 ^ 8
    let mode := s.block.cfg.upgMode
    let cleared := s.setRewards (Vector.replicate 16 RewardSlot.empty)
    encode (.genRewards sid) = BitVec.ofNat 64 (0x022 + 256 * sid.toNat) ∧
    (16 < count ∨ mode = 3 → exec (.genRewards sid) s = .next (s.raise .badArg)) ∧
    (count = 0 → mode ≠ 3 → exec (.genRewards sid) s = .next ((cleared.setRes0 0).complete)) ∧
    (1 ≤ count → count ≤ 16 → mode ≠ 3 → (s.row i).ctr.toNat = 2 ^ 32 - 1 →
      exec (.genRewards sid) s = .next (cleared.raise .ctrOvf)) ∧
    (∀ a, 1 ≤ count → count ≤ 16 → mode ≠ 3 → (s.row i).ctr.toNat = 2 ^ 32 - 2 →
      (s.row i).redraws s.params 100 a →
      let r := rarityOfRoll s.block.cfg s.block.pityOffset ((s.row i).bitsAt s.params a % 100)
      s.block.cfg.poolSize r ≠ 0 → exec (.genRewards sid) s =
        .next (((cleared.setRow i ((s.row i).drawn a)).setPityOffset
          (offsetAfter s.block.cfg s.block.pityOffset r)).raise .ctrOvf)) ∧
    (∀ a b, count = 1 → mode ≠ 3 → (s.row i).ctr.toNat + 3 ≤ 2 ^ 32 - 1 →
      (s.row i).redraws s.params 100 a →
      let roll := (s.row i).bitsAt s.params a % 100
      let r := rarityOfRoll s.block.cfg s.block.pityOffset roll
      let pool := s.block.cfg.poolSize r
      let row1 := (s.row i).drawn a
      (pool = 0 → ∃ t, exec (.genRewards sid) s = .next t ∧ t.row i = row1 ∧
        t.block.status.err = some .badArg ∧ t.block.res0 = s.block.res0 ∧
        t.block.reward = Vector.replicate 16 RewardSlot.empty ∧
        t.block.pityOffset = offsetAfter s.block.cfg s.block.pityOffset r) ∧
      (pool ≠ 0 → row1.redraws s.params pool b →
      let row2 := row1.drawn b
      let m := (row2.rawAt 0).toNat / 2 ^ s.params.floatLow.val % 2 ^ 24
      ∃ t, exec (.genRewards sid) s = .next t ∧ t.block.res0 = 1 ∧
        t.row i = (if mode = 0 then row2 else row2.drawn 0) ∧
        t.block.reward = (Vector.replicate 16 RewardSlot.empty).set 0
          ⟨BitVec.ofNat 31 (row1.bitsAt s.params b % pool), r,
            decide (mode ≠ 0) && less24 m s.block.cfg.upgP, true⟩ ∧
        t.block.pityOffset = offsetAfter s.block.cfg s.block.pityOffset r ∧
        t.block.status = { s.block.status with err := none }))

/-- Derived from 44_reward section 3 (R194, R196, R197, R198): the second slot of a batch, when its roll gives
the rarity of the first again. On a pool of one entry the command fails with `E_POOL_EXHAUSTED` after that
roll, whatever its count; on a larger one a duplicate index is drawn again, with no new roll and no new pity
update, here in a batch of two with one duplicate. `a`, `b`, `c`, `d`, `e` are the redraws of the five
bounded draws in their order. The 24-bit value of an upgrade draw is the window FLOAT_RAW, whose place is the
model's choice (log 7). -/
def Obligations.GenRewardsSecondSlot : Prop :=
  ∀ (s : State) (sid : BitVec 4) (i : StreamId) (a b c : Nat),
    streamId? sid = some i → s.block.status.init = true →
    let count := s.block.opa.toNat % 2 ^ 8
    let cfg := s.block.cfg
    let mode := cfg.upgMode
    let start := s.row i
    let r := rarityOfRoll cfg s.block.pityOffset (start.bitsAt s.params a % 100)
    let pool := cfg.poolSize r
    let offset := offsetAfter cfg s.block.pityOffset r
    let rolled := start.drawn a
    let index := rolled.bitsAt s.params b % pool
    let picked := rolled.drawn b
    let second := if mode = 1 then picked.drawn 0 else picked
    let rolled' := second.drawn c
    let upgrade (row : Row) : Bool :=
      decide (mode ≠ 0) && less24 ((row.rawAt 0).toNat / 2 ^ s.params.floatLow.val % 2 ^ 24) cfg.upgP
    let slots (upg : Bool) : Vector RewardSlot 16 :=
      (Vector.replicate 16 RewardSlot.empty).set 0 ⟨BitVec.ofNat 31 index, r, upg, true⟩
    2 ≤ count → count ≤ 16 → mode ≠ 3 → start.ctr.toNat + 7 ≤ 2 ^ 32 - 1 → pool ≠ 0 →
    start.redraws s.params 100 a → rolled.redraws s.params pool b → second.redraws s.params 100 c →
    rarityOfRoll cfg offset (second.bitsAt s.params c % 100) = r →
    (pool = 1 → ∃ t, exec (.genRewards sid) s = .next t ∧ t.row i = rolled' ∧
      t.block.status.err = some .poolExhausted ∧ t.block.pityOffset = offsetAfter cfg offset r ∧
      t.block.res0 = s.block.res0 ∧ t.block.reward = slots (decide (mode = 1) && upgrade picked)) ∧
    (∀ d e, count = 2 → rolled'.redraws s.params pool d → rolled'.bitsAt s.params d % pool = index →
      let again := rolled'.drawn d
      again.redraws s.params pool e → again.bitsAt s.params e % pool ≠ index →
      let picked' := again.drawn e
      let last := picked'.drawn 0
      ∃ t, exec (.genRewards sid) s = .next t ∧ t.block.res0 = 2 ∧
        t.row i = (if mode = 0 then picked' else if mode = 1 then last else last.drawn 0) ∧
        t.block.pityOffset = offsetAfter cfg offset r ∧
        t.block.reward = (slots (upgrade (if mode = 1 then picked else picked'))).set 1
          ⟨BitVec.ofNat 31 (again.bitsAt s.params e % pool), r,
            upgrade (if mode = 1 then picked' else last), true⟩ ∧
        t.block.status = { s.block.status with err := none })

/-- Derived from 44_reward section 3 (R194, R198): the whole batch when every bounded draw is accepted at
once, no index is drawn twice and no pool is exhausted: which raw draw of the stream serves which slot, in
each upgrade mode, and the pity offset before each roll. The 24-bit value of an upgrade draw is the window
FLOAT_RAW, whose place is the model's choice (log 7). -/
def Obligations.GenRewardsPlainBatch : Prop :=
  ∀ (s : State) (sid : BitVec 4) (i : StreamId), streamId? sid = some i → s.block.status.init = true →
    let count := s.block.opa.toNat % 2 ^ 8
    let cfg := s.block.cfg
    let perSlot := if cfg.upgMode = 1 then 3 else 2
    let total := count * if cfg.upgMode = 0 then 2 else 3
    let roll (k : Nat) : Nat := (s.row i).bitsAt s.params (perSlot * k) % 100
    let rarity (k : Nat) : Rarity := batchRarity cfg s.block.pityOffset roll k
    let index (k : Nat) : Nat := (s.row i).bitsAt s.params (perSlot * k + 1) % cfg.poolSize (rarity k)
    let upgradeAt (k : Nat) : Nat := if cfg.upgMode = 1 then perSlot * k + 2 else 2 * count + k
    let m (k : Nat) : Nat := ((s.row i).rawAt (upgradeAt k)).toNat / 2 ^ s.params.floatLow.val % 2 ^ 24
    count ≤ 16 → cfg.upgMode ≠ 3 → (s.row i).ctr.toNat + total ≤ 2 ^ 32 - 1 →
    (∀ k, k < count → NoOverflow ((s.row i).bitsAt s.params (perSlot * k)) 100) →
    (∀ k, k < count → ((List.range k).countP fun j => rarity j = rarity k) < cfg.poolSize (rarity k)) →
    (∀ k, k < count →
      NoOverflow ((s.row i).bitsAt s.params (perSlot * k + 1)) (cfg.poolSize (rarity k))) →
    (∀ j k, j < k → k < count → ¬(rarity j = rarity k ∧ index j = index k)) →
    ∃ t, exec (.genRewards sid) s = .next t ∧ t.row i = (s.row i).plainly total ∧
      t.block.res0.toNat = count ∧ t.block.pityOffset = batchOffset cfg s.block.pityOffset roll count ∧
      (∀ k : Fin 16, t.block.reward[k.val] =
        if k.val < count then
          ⟨BitVec.ofNat 31 (index k), rarity k, decide (cfg.upgMode ≠ 0) && less24 (m k) cfg.upgP, true⟩
        else RewardSlot.empty) ∧
      t.block.status = { s.block.status with err := none }

/-- Derived from 44_reward section 3 (R194, R196, R197) and 10_state section 9 (R47): after every
`GEN_REWARDS` that completes, the first `count` slots are valid, lie in their pools and are pairwise no
duplicates, and the others are empty; after one that fails mid-batch the filled slots are a beginning of the
buffer, and `E_BAD_ARG` and `E_POOL_EXHAUSTED` name a pool that is empty or used up. -/
def Obligations.GenRewardsFillsDistinctSlots : Prop :=
  ∀ (s t : State) (sid : BitVec 4) (i : StreamId), streamId? sid = some i → s.block.status.init = true →
    s.countOperand ≤ 16 → s.block.cfg.upgMode ≠ 3 → exec (.genRewards sid) s = .next t →
    ∃ m, m ≤ s.countOperand ∧
      (t.block.status.err = none → m = s.countOperand ∧ t.block.res0 = BitVec.ofNat 64 m) ∧
      (t.block.status.err = some .badArg → ∃ r, s.block.cfg.poolSize r = 0) ∧
      (t.block.status.err = some .poolExhausted → ∃ r, s.block.cfg.poolSize r ≤
        t.block.reward.toList.countP fun slot => slot.valid && decide (slot.rarity = r)) ∧
      (∀ k : Fin 16, k.val < m → t.block.reward[k.val].valid = true ∧
        t.block.reward[k.val].index.toNat < s.block.cfg.poolSize t.block.reward[k.val].rarity) ∧
      (∀ k : Fin 16, m ≤ k.val → t.block.reward[k.val] = RewardSlot.empty) ∧
      (∀ j k : Fin 16, j < k → k.val < m →
        ¬(t.block.reward[j.val].rarity = t.block.reward[k.val].rarity ∧
          t.block.reward[j.val].index = t.block.reward[k.val].index))

/-- Derived from 43_shuffle and 44_reward (the parts "State written" of R180, R192 and R194): what the three
commands of the engines leave unchanged, whether they complete or fail; `SHUFFLE` stores to no `ITEM` entry
at or above its length operand. -/
def Obligations.EngineCommandsFrame : Prop :=
  ∀ (i : Instr) (sid : BitVec 4) (s t : State),
    i ∈ [Instr.shuffle sid, .rollRarity sid, .genRewards sid] → exec i s = .next t → Framed i s t

/-! ### System commands -/

/-- 45_system R210, R211: `NOP` and `CLRERR` complete in every state. -/
def Obligations.SystemCommands : Prop :=
  encode .nop = 0x000 ∧ encode .clrerr = 0x001 ∧
  ∀ s : State, exec .nop s = .next (s.setStatus { s.block.status with err := none }) ∧
    exec .clrerr s = .next (s.setStatus
      { s.block.status with err := none, errFirst := none, errCmd := 0 })

/-! ### Whole machine -/

/-- Derived from 10_state sections 4 to 7 (R25, R26, R32) and log 5: the invariant of every step. -/
def Obligations.EveryStepKeepsTheInvariant : Prop :=
  ∀ s t : State, s.Inv → step s = .next t → t.Inv

/-- Derived from 10_state section 11: the state after reset meets the invariant. -/
def Obligations.ResetMeetsTheInvariant : Prop := State.reset.Inv

/-- Derived from 42_stream_manager section 6 (R159) and 93_implementation_defined U6: what `ITEM` holds,
the free values among it, has no influence on anything but `ITEM`. -/
def Obligations.ItemContentInfluencesNothingElse : Prop :=
  ∀ (i : Instr) (s t : State), s.withoutItems = t.withoutItems →
    outcomeWithoutItems (exec i s) = outcomeWithoutItems (exec i t)

/-- Derived from 30_encoding section 6 (R87): the macro `DRAW_RANGE s, lo, hi` is three host moves, and
these run the command on its operands. -/
def Obligations.MacroRunsItsCommand : Prop :=
  ∀ (s : State) (sid : BitVec 4) (lo hi : Int), legalSid sid = true →
    s.moves = (AsmLine.drawRange sid lo hi).expand →
    Host.Core.run core 3 s = exec (.drawRange sid) ((((s.take []).setOpa (BitVec.ofInt 64 lo)).setOpb
      (BitVec.ofInt 64 hi)).setCmd (encode (.drawRange sid)))
end

