-- ==== Sys2Proof/Laws/State.lean ====
section
/-! SUPPORT. One lemma for each field under each update of the state. -/

namespace Sys2Proof.Machine

variable (s : State)

@[simp] theorem setItem_params (k : Nat) (v : Word) : (s.setItem k v).params = s.params := rfl
@[simp] theorem setItem_moves (k : Nat) (v : Word) : (s.setItem k v).moves = s.moves := rfl
@[simp] theorem setItem_readData (k : Nat) (v : Word) : (s.setItem k v).readData = s.readData := rfl
@[simp] theorem setItem_resets (k : Nat) (v : Word) : (s.setItem k v).resets = s.resets := rfl
@[simp] theorem setItem_cmd (k : Nat) (v : Word) : (s.setItem k v).block.cmd = s.block.cmd := rfl
@[simp] theorem setItem_status (k : Nat) (v : Word) : (s.setItem k v).block.status = s.block.status := rfl
@[simp] theorem setItem_opa (k : Nat) (v : Word) : (s.setItem k v).block.opa = s.block.opa := rfl
@[simp] theorem setItem_opb (k : Nat) (v : Word) : (s.setItem k v).block.opb = s.block.opb := rfl
@[simp] theorem setItem_res0 (k : Nat) (v : Word) : (s.setItem k v).block.res0 = s.block.res0 := rfl
@[simp] theorem setItem_res1 (k : Nat) (v : Word) : (s.setItem k v).block.res1 = s.block.res1 := rfl
@[simp] theorem setItem_mgr (k : Nat) (v : Word) : (s.setItem k v).block.mgr = s.block.mgr := rfl
@[simp] theorem setItem_shadow (k : Nat) (v : Word) : (s.setItem k v).block.shadow = s.block.shadow := rfl
@[simp] theorem setItem_cfg (k : Nat) (v : Word) : (s.setItem k v).block.cfg = s.block.cfg := rfl
@[simp] theorem setItem_pityOffset (k : Nat) (v : Word) : (s.setItem k v).block.pityOffset = s.block.pityOffset := rfl
@[simp] theorem setItem_snap (k : Nat) (v : Word) : (s.setItem k v).block.snap = s.block.snap := rfl
@[simp] theorem setItem_reward (k : Nat) (v : Word) : (s.setItem k v).block.reward = s.block.reward := rfl
@[simp] theorem setItem_items (k : Nat) (v : Word) : (s.setItem k v).block.items = s.block.items.write k v := rfl
@[simp] theorem setItem_row (k : Nat) (v : Word) (j : StreamId) : (s.setItem k v).row j = s.row j := rfl

@[simp] theorem setRow_params (i : StreamId) (r : Row) : (s.setRow i r).params = s.params := rfl
@[simp] theorem setRow_moves (i : StreamId) (r : Row) : (s.setRow i r).moves = s.moves := rfl
@[simp] theorem setRow_readData (i : StreamId) (r : Row) : (s.setRow i r).readData = s.readData := rfl
@[simp] theorem setRow_resets (i : StreamId) (r : Row) : (s.setRow i r).resets = s.resets := rfl
@[simp] theorem setRow_cmd (i : StreamId) (r : Row) : (s.setRow i r).block.cmd = s.block.cmd := rfl
@[simp] theorem setRow_status (i : StreamId) (r : Row) : (s.setRow i r).block.status = s.block.status := rfl
@[simp] theorem setRow_opa (i : StreamId) (r : Row) : (s.setRow i r).block.opa = s.block.opa := rfl
@[simp] theorem setRow_opb (i : StreamId) (r : Row) : (s.setRow i r).block.opb = s.block.opb := rfl
@[simp] theorem setRow_res0 (i : StreamId) (r : Row) : (s.setRow i r).block.res0 = s.block.res0 := rfl
@[simp] theorem setRow_res1 (i : StreamId) (r : Row) : (s.setRow i r).block.res1 = s.block.res1 := rfl
@[simp] theorem setRow_shadow (i : StreamId) (r : Row) : (s.setRow i r).block.shadow = s.block.shadow := rfl
@[simp] theorem setRow_cfg (i : StreamId) (r : Row) : (s.setRow i r).block.cfg = s.block.cfg := rfl
@[simp] theorem setRow_pityOffset (i : StreamId) (r : Row) : (s.setRow i r).block.pityOffset = s.block.pityOffset := rfl
@[simp] theorem setRow_snap (i : StreamId) (r : Row) : (s.setRow i r).block.snap = s.block.snap := rfl
@[simp] theorem setRow_reward (i : StreamId) (r : Row) : (s.setRow i r).block.reward = s.block.reward := rfl
@[simp] theorem setRow_items (i : StreamId) (r : Row) : (s.setRow i r).block.items = s.block.items := rfl
@[simp] theorem setRow_item (i : StreamId) (r : Row) (j : Nat) : (s.setRow i r).item j = s.item j := rfl
@[simp] theorem setRow_baseSeed (i : StreamId) (r : Row) : (s.setRow i r).block.mgr.baseSeed = s.block.mgr.baseSeed := rfl
@[simp] theorem setRow_floor (i : StreamId) (r : Row) : (s.setRow i r).block.mgr.floor = s.block.mgr.floor := rfl
@[simp] theorem setRow_act (i : StreamId) (r : Row) : (s.setRow i r).block.mgr.act = s.block.mgr.act := rfl

@[simp] theorem setManagerRegs_params (w : Word) (f : BitVec 32) (a : BitVec 8) : (s.setManagerRegs w f a).params = s.params := rfl
@[simp] theorem setManagerRegs_moves (w : Word) (f : BitVec 32) (a : BitVec 8) : (s.setManagerRegs w f a).moves = s.moves := rfl
@[simp] theorem setManagerRegs_readData (w : Word) (f : BitVec 32) (a : BitVec 8) : (s.setManagerRegs w f a).readData = s.readData := rfl
@[simp] theorem setManagerRegs_resets (w : Word) (f : BitVec 32) (a : BitVec 8) : (s.setManagerRegs w f a).resets = s.resets := rfl
@[simp] theorem setManagerRegs_cmd (w : Word) (f : BitVec 32) (a : BitVec 8) : (s.setManagerRegs w f a).block.cmd = s.block.cmd := rfl
@[simp] theorem setManagerRegs_status (w : Word) (f : BitVec 32) (a : BitVec 8) : (s.setManagerRegs w f a).block.status = s.block.status := rfl
@[simp] theorem setManagerRegs_opa (w : Word) (f : BitVec 32) (a : BitVec 8) : (s.setManagerRegs w f a).block.opa = s.block.opa := rfl
@[simp] theorem setManagerRegs_opb (w : Word) (f : BitVec 32) (a : BitVec 8) : (s.setManagerRegs w f a).block.opb = s.block.opb := rfl
@[simp] theorem setManagerRegs_res0 (w : Word) (f : BitVec 32) (a : BitVec 8) : (s.setManagerRegs w f a).block.res0 = s.block.res0 := rfl
@[simp] theorem setManagerRegs_res1 (w : Word) (f : BitVec 32) (a : BitVec 8) : (s.setManagerRegs w f a).block.res1 = s.block.res1 := rfl
@[simp] theorem setManagerRegs_mgr (w : Word) (f : BitVec 32) (a : BitVec 8) : (s.setManagerRegs w f a).block.mgr = { s.block.mgr with baseSeed := w, floor := f, act := a } := rfl
@[simp] theorem setManagerRegs_shadow (w : Word) (f : BitVec 32) (a : BitVec 8) : (s.setManagerRegs w f a).block.shadow = s.block.shadow := rfl
@[simp] theorem setManagerRegs_cfg (w : Word) (f : BitVec 32) (a : BitVec 8) : (s.setManagerRegs w f a).block.cfg = s.block.cfg := rfl
@[simp] theorem setManagerRegs_pityOffset (w : Word) (f : BitVec 32) (a : BitVec 8) : (s.setManagerRegs w f a).block.pityOffset = s.block.pityOffset := rfl
@[simp] theorem setManagerRegs_snap (w : Word) (f : BitVec 32) (a : BitVec 8) : (s.setManagerRegs w f a).block.snap = s.block.snap := rfl
@[simp] theorem setManagerRegs_reward (w : Word) (f : BitVec 32) (a : BitVec 8) : (s.setManagerRegs w f a).block.reward = s.block.reward := rfl
@[simp] theorem setManagerRegs_items (w : Word) (f : BitVec 32) (a : BitVec 8) : (s.setManagerRegs w f a).block.items = s.block.items := rfl
@[simp] theorem setManagerRegs_row (w : Word) (f : BitVec 32) (a : BitVec 8) (j : StreamId) : (s.setManagerRegs w f a).row j = s.row j := rfl
@[simp] theorem setManagerRegs_item (w : Word) (f : BitVec 32) (a : BitVec 8) (j : Nat) : (s.setManagerRegs w f a).item j = s.item j := rfl

@[simp] theorem setFloor_params (f : BitVec 32) : (s.setFloor f).params = s.params := rfl
@[simp] theorem setFloor_moves (f : BitVec 32) : (s.setFloor f).moves = s.moves := rfl
@[simp] theorem setFloor_readData (f : BitVec 32) : (s.setFloor f).readData = s.readData := rfl
@[simp] theorem setFloor_resets (f : BitVec 32) : (s.setFloor f).resets = s.resets := rfl
@[simp] theorem setFloor_cmd (f : BitVec 32) : (s.setFloor f).block.cmd = s.block.cmd := rfl
@[simp] theorem setFloor_status (f : BitVec 32) : (s.setFloor f).block.status = s.block.status := rfl
@[simp] theorem setFloor_opa (f : BitVec 32) : (s.setFloor f).block.opa = s.block.opa := rfl
@[simp] theorem setFloor_opb (f : BitVec 32) : (s.setFloor f).block.opb = s.block.opb := rfl
@[simp] theorem setFloor_res0 (f : BitVec 32) : (s.setFloor f).block.res0 = s.block.res0 := rfl
@[simp] theorem setFloor_res1 (f : BitVec 32) : (s.setFloor f).block.res1 = s.block.res1 := rfl
@[simp] theorem setFloor_mgr (f : BitVec 32) : (s.setFloor f).block.mgr = { s.block.mgr with floor := f } := rfl
@[simp] theorem setFloor_shadow (f : BitVec 32) : (s.setFloor f).block.shadow = s.block.shadow := rfl
@[simp] theorem setFloor_cfg (f : BitVec 32) : (s.setFloor f).block.cfg = s.block.cfg := rfl
@[simp] theorem setFloor_pityOffset (f : BitVec 32) : (s.setFloor f).block.pityOffset = s.block.pityOffset := rfl
@[simp] theorem setFloor_snap (f : BitVec 32) : (s.setFloor f).block.snap = s.block.snap := rfl
@[simp] theorem setFloor_reward (f : BitVec 32) : (s.setFloor f).block.reward = s.block.reward := rfl
@[simp] theorem setFloor_items (f : BitVec 32) : (s.setFloor f).block.items = s.block.items := rfl
@[simp] theorem setFloor_row (f : BitVec 32) (j : StreamId) : (s.setFloor f).row j = s.row j := rfl
@[simp] theorem setFloor_item (f : BitVec 32) (j : Nat) : (s.setFloor f).item j = s.item j := rfl

@[simp] theorem setAct_params (a : BitVec 8) : (s.setAct a).params = s.params := rfl
@[simp] theorem setAct_moves (a : BitVec 8) : (s.setAct a).moves = s.moves := rfl
@[simp] theorem setAct_readData (a : BitVec 8) : (s.setAct a).readData = s.readData := rfl
@[simp] theorem setAct_resets (a : BitVec 8) : (s.setAct a).resets = s.resets := rfl
@[simp] theorem setAct_cmd (a : BitVec 8) : (s.setAct a).block.cmd = s.block.cmd := rfl
@[simp] theorem setAct_status (a : BitVec 8) : (s.setAct a).block.status = s.block.status := rfl
@[simp] theorem setAct_opa (a : BitVec 8) : (s.setAct a).block.opa = s.block.opa := rfl
@[simp] theorem setAct_opb (a : BitVec 8) : (s.setAct a).block.opb = s.block.opb := rfl
@[simp] theorem setAct_res0 (a : BitVec 8) : (s.setAct a).block.res0 = s.block.res0 := rfl
@[simp] theorem setAct_res1 (a : BitVec 8) : (s.setAct a).block.res1 = s.block.res1 := rfl
@[simp] theorem setAct_mgr (a : BitVec 8) : (s.setAct a).block.mgr = { s.block.mgr with act := a } := rfl
@[simp] theorem setAct_shadow (a : BitVec 8) : (s.setAct a).block.shadow = s.block.shadow := rfl
@[simp] theorem setAct_cfg (a : BitVec 8) : (s.setAct a).block.cfg = s.block.cfg := rfl
@[simp] theorem setAct_pityOffset (a : BitVec 8) : (s.setAct a).block.pityOffset = s.block.pityOffset := rfl
@[simp] theorem setAct_snap (a : BitVec 8) : (s.setAct a).block.snap = s.block.snap := rfl
@[simp] theorem setAct_reward (a : BitVec 8) : (s.setAct a).block.reward = s.block.reward := rfl
@[simp] theorem setAct_items (a : BitVec 8) : (s.setAct a).block.items = s.block.items := rfl
@[simp] theorem setAct_row (a : BitVec 8) (j : StreamId) : (s.setAct a).row j = s.row j := rfl
@[simp] theorem setAct_item (a : BitVec 8) (j : Nat) : (s.setAct a).item j = s.item j := rfl

@[simp] theorem setMgr_params (m : Manager) : (s.setMgr m).params = s.params := rfl
@[simp] theorem setMgr_moves (m : Manager) : (s.setMgr m).moves = s.moves := rfl
@[simp] theorem setMgr_readData (m : Manager) : (s.setMgr m).readData = s.readData := rfl
@[simp] theorem setMgr_resets (m : Manager) : (s.setMgr m).resets = s.resets := rfl
@[simp] theorem setMgr_cmd (m : Manager) : (s.setMgr m).block.cmd = s.block.cmd := rfl
@[simp] theorem setMgr_status (m : Manager) : (s.setMgr m).block.status = s.block.status := rfl
@[simp] theorem setMgr_opa (m : Manager) : (s.setMgr m).block.opa = s.block.opa := rfl
@[simp] theorem setMgr_opb (m : Manager) : (s.setMgr m).block.opb = s.block.opb := rfl
@[simp] theorem setMgr_res0 (m : Manager) : (s.setMgr m).block.res0 = s.block.res0 := rfl
@[simp] theorem setMgr_res1 (m : Manager) : (s.setMgr m).block.res1 = s.block.res1 := rfl
@[simp] theorem setMgr_mgr (m : Manager) : (s.setMgr m).block.mgr = m := rfl
@[simp] theorem setMgr_shadow (m : Manager) : (s.setMgr m).block.shadow = s.block.shadow := rfl
@[simp] theorem setMgr_cfg (m : Manager) : (s.setMgr m).block.cfg = s.block.cfg := rfl
@[simp] theorem setMgr_pityOffset (m : Manager) : (s.setMgr m).block.pityOffset = s.block.pityOffset := rfl
@[simp] theorem setMgr_snap (m : Manager) : (s.setMgr m).block.snap = s.block.snap := rfl
@[simp] theorem setMgr_reward (m : Manager) : (s.setMgr m).block.reward = s.block.reward := rfl
@[simp] theorem setMgr_items (m : Manager) : (s.setMgr m).block.items = s.block.items := rfl
@[simp] theorem setMgr_row (m : Manager) (j : StreamId) : (s.setMgr m).row j = m.row j := rfl
@[simp] theorem setMgr_item (m : Manager) (j : Nat) : (s.setMgr m).item j = s.item j := rfl

@[simp] theorem setShadow_params (m : Manager) : (s.setShadow m).params = s.params := rfl
@[simp] theorem setShadow_moves (m : Manager) : (s.setShadow m).moves = s.moves := rfl
@[simp] theorem setShadow_readData (m : Manager) : (s.setShadow m).readData = s.readData := rfl
@[simp] theorem setShadow_resets (m : Manager) : (s.setShadow m).resets = s.resets := rfl
@[simp] theorem setShadow_cmd (m : Manager) : (s.setShadow m).block.cmd = s.block.cmd := rfl
@[simp] theorem setShadow_status (m : Manager) : (s.setShadow m).block.status = s.block.status := rfl
@[simp] theorem setShadow_opa (m : Manager) : (s.setShadow m).block.opa = s.block.opa := rfl
@[simp] theorem setShadow_opb (m : Manager) : (s.setShadow m).block.opb = s.block.opb := rfl
@[simp] theorem setShadow_res0 (m : Manager) : (s.setShadow m).block.res0 = s.block.res0 := rfl
@[simp] theorem setShadow_res1 (m : Manager) : (s.setShadow m).block.res1 = s.block.res1 := rfl
@[simp] theorem setShadow_mgr (m : Manager) : (s.setShadow m).block.mgr = s.block.mgr := rfl
@[simp] theorem setShadow_shadow (m : Manager) : (s.setShadow m).block.shadow = m := rfl
@[simp] theorem setShadow_cfg (m : Manager) : (s.setShadow m).block.cfg = s.block.cfg := rfl
@[simp] theorem setShadow_pityOffset (m : Manager) : (s.setShadow m).block.pityOffset = s.block.pityOffset := rfl
@[simp] theorem setShadow_snap (m : Manager) : (s.setShadow m).block.snap = s.block.snap := rfl
@[simp] theorem setShadow_reward (m : Manager) : (s.setShadow m).block.reward = s.block.reward := rfl
@[simp] theorem setShadow_items (m : Manager) : (s.setShadow m).block.items = s.block.items := rfl
@[simp] theorem setShadow_row (m : Manager) (j : StreamId) : (s.setShadow m).row j = s.row j := rfl
@[simp] theorem setShadow_item (m : Manager) (j : Nat) : (s.setShadow m).item j = s.item j := rfl

@[simp] theorem setSnap_params (v : Vector (BitVec 32) 13) : (s.setSnap v).params = s.params := rfl
@[simp] theorem setSnap_moves (v : Vector (BitVec 32) 13) : (s.setSnap v).moves = s.moves := rfl
@[simp] theorem setSnap_readData (v : Vector (BitVec 32) 13) : (s.setSnap v).readData = s.readData := rfl
@[simp] theorem setSnap_resets (v : Vector (BitVec 32) 13) : (s.setSnap v).resets = s.resets := rfl
@[simp] theorem setSnap_cmd (v : Vector (BitVec 32) 13) : (s.setSnap v).block.cmd = s.block.cmd := rfl
@[simp] theorem setSnap_status (v : Vector (BitVec 32) 13) : (s.setSnap v).block.status = s.block.status := rfl
@[simp] theorem setSnap_opa (v : Vector (BitVec 32) 13) : (s.setSnap v).block.opa = s.block.opa := rfl
@[simp] theorem setSnap_opb (v : Vector (BitVec 32) 13) : (s.setSnap v).block.opb = s.block.opb := rfl
@[simp] theorem setSnap_res0 (v : Vector (BitVec 32) 13) : (s.setSnap v).block.res0 = s.block.res0 := rfl
@[simp] theorem setSnap_res1 (v : Vector (BitVec 32) 13) : (s.setSnap v).block.res1 = s.block.res1 := rfl
@[simp] theorem setSnap_mgr (v : Vector (BitVec 32) 13) : (s.setSnap v).block.mgr = s.block.mgr := rfl
@[simp] theorem setSnap_shadow (v : Vector (BitVec 32) 13) : (s.setSnap v).block.shadow = s.block.shadow := rfl
@[simp] theorem setSnap_cfg (v : Vector (BitVec 32) 13) : (s.setSnap v).block.cfg = s.block.cfg := rfl
@[simp] theorem setSnap_pityOffset (v : Vector (BitVec 32) 13) : (s.setSnap v).block.pityOffset = s.block.pityOffset := rfl
@[simp] theorem setSnap_snap (v : Vector (BitVec 32) 13) : (s.setSnap v).block.snap = v := rfl
@[simp] theorem setSnap_reward (v : Vector (BitVec 32) 13) : (s.setSnap v).block.reward = s.block.reward := rfl
@[simp] theorem setSnap_items (v : Vector (BitVec 32) 13) : (s.setSnap v).block.items = s.block.items := rfl
@[simp] theorem setSnap_row (v : Vector (BitVec 32) 13) (j : StreamId) : (s.setSnap v).row j = s.row j := rfl
@[simp] theorem setSnap_item (v : Vector (BitVec 32) 13) (j : Nat) : (s.setSnap v).item j = s.item j := rfl

@[simp] theorem setRewards_params (v : Vector RewardSlot 16) : (s.setRewards v).params = s.params := rfl
@[simp] theorem setRewards_moves (v : Vector RewardSlot 16) : (s.setRewards v).moves = s.moves := rfl
@[simp] theorem setRewards_readData (v : Vector RewardSlot 16) : (s.setRewards v).readData = s.readData := rfl
@[simp] theorem setRewards_resets (v : Vector RewardSlot 16) : (s.setRewards v).resets = s.resets := rfl
@[simp] theorem setRewards_cmd (v : Vector RewardSlot 16) : (s.setRewards v).block.cmd = s.block.cmd := rfl
@[simp] theorem setRewards_status (v : Vector RewardSlot 16) : (s.setRewards v).block.status = s.block.status := rfl
@[simp] theorem setRewards_opa (v : Vector RewardSlot 16) : (s.setRewards v).block.opa = s.block.opa := rfl
@[simp] theorem setRewards_opb (v : Vector RewardSlot 16) : (s.setRewards v).block.opb = s.block.opb := rfl
@[simp] theorem setRewards_res0 (v : Vector RewardSlot 16) : (s.setRewards v).block.res0 = s.block.res0 := rfl
@[simp] theorem setRewards_res1 (v : Vector RewardSlot 16) : (s.setRewards v).block.res1 = s.block.res1 := rfl
@[simp] theorem setRewards_mgr (v : Vector RewardSlot 16) : (s.setRewards v).block.mgr = s.block.mgr := rfl
@[simp] theorem setRewards_shadow (v : Vector RewardSlot 16) : (s.setRewards v).block.shadow = s.block.shadow := rfl
@[simp] theorem setRewards_cfg (v : Vector RewardSlot 16) : (s.setRewards v).block.cfg = s.block.cfg := rfl
@[simp] theorem setRewards_pityOffset (v : Vector RewardSlot 16) : (s.setRewards v).block.pityOffset = s.block.pityOffset := rfl
@[simp] theorem setRewards_snap (v : Vector RewardSlot 16) : (s.setRewards v).block.snap = s.block.snap := rfl
@[simp] theorem setRewards_reward (v : Vector RewardSlot 16) : (s.setRewards v).block.reward = v := rfl
@[simp] theorem setRewards_items (v : Vector RewardSlot 16) : (s.setRewards v).block.items = s.block.items := rfl
@[simp] theorem setRewards_row (v : Vector RewardSlot 16) (j : StreamId) : (s.setRewards v).row j = s.row j := rfl
@[simp] theorem setRewards_item (v : Vector RewardSlot 16) (j : Nat) : (s.setRewards v).item j = s.item j := rfl

@[simp] theorem setRes0_params (v : Word) : (s.setRes0 v).params = s.params := rfl
@[simp] theorem setRes0_moves (v : Word) : (s.setRes0 v).moves = s.moves := rfl
@[simp] theorem setRes0_readData (v : Word) : (s.setRes0 v).readData = s.readData := rfl
@[simp] theorem setRes0_resets (v : Word) : (s.setRes0 v).resets = s.resets := rfl
@[simp] theorem setRes0_cmd (v : Word) : (s.setRes0 v).block.cmd = s.block.cmd := rfl
@[simp] theorem setRes0_status (v : Word) : (s.setRes0 v).block.status = s.block.status := rfl
@[simp] theorem setRes0_opa (v : Word) : (s.setRes0 v).block.opa = s.block.opa := rfl
@[simp] theorem setRes0_opb (v : Word) : (s.setRes0 v).block.opb = s.block.opb := rfl
@[simp] theorem setRes0_res0 (v : Word) : (s.setRes0 v).block.res0 = v := rfl
@[simp] theorem setRes0_res1 (v : Word) : (s.setRes0 v).block.res1 = s.block.res1 := rfl
@[simp] theorem setRes0_mgr (v : Word) : (s.setRes0 v).block.mgr = s.block.mgr := rfl
@[simp] theorem setRes0_shadow (v : Word) : (s.setRes0 v).block.shadow = s.block.shadow := rfl
@[simp] theorem setRes0_cfg (v : Word) : (s.setRes0 v).block.cfg = s.block.cfg := rfl
@[simp] theorem setRes0_pityOffset (v : Word) : (s.setRes0 v).block.pityOffset = s.block.pityOffset := rfl
@[simp] theorem setRes0_snap (v : Word) : (s.setRes0 v).block.snap = s.block.snap := rfl
@[simp] theorem setRes0_reward (v : Word) : (s.setRes0 v).block.reward = s.block.reward := rfl
@[simp] theorem setRes0_items (v : Word) : (s.setRes0 v).block.items = s.block.items := rfl
@[simp] theorem setRes0_row (v : Word) (j : StreamId) : (s.setRes0 v).row j = s.row j := rfl
@[simp] theorem setRes0_item (v : Word) (j : Nat) : (s.setRes0 v).item j = s.item j := rfl

@[simp] theorem setRes1_params (v : Word) : (s.setRes1 v).params = s.params := rfl
@[simp] theorem setRes1_moves (v : Word) : (s.setRes1 v).moves = s.moves := rfl
@[simp] theorem setRes1_readData (v : Word) : (s.setRes1 v).readData = s.readData := rfl
@[simp] theorem setRes1_resets (v : Word) : (s.setRes1 v).resets = s.resets := rfl
@[simp] theorem setRes1_cmd (v : Word) : (s.setRes1 v).block.cmd = s.block.cmd := rfl
@[simp] theorem setRes1_status (v : Word) : (s.setRes1 v).block.status = s.block.status := rfl
@[simp] theorem setRes1_opa (v : Word) : (s.setRes1 v).block.opa = s.block.opa := rfl
@[simp] theorem setRes1_opb (v : Word) : (s.setRes1 v).block.opb = s.block.opb := rfl
@[simp] theorem setRes1_res0 (v : Word) : (s.setRes1 v).block.res0 = s.block.res0 := rfl
@[simp] theorem setRes1_res1 (v : Word) : (s.setRes1 v).block.res1 = v := rfl
@[simp] theorem setRes1_mgr (v : Word) : (s.setRes1 v).block.mgr = s.block.mgr := rfl
@[simp] theorem setRes1_shadow (v : Word) : (s.setRes1 v).block.shadow = s.block.shadow := rfl
@[simp] theorem setRes1_cfg (v : Word) : (s.setRes1 v).block.cfg = s.block.cfg := rfl
@[simp] theorem setRes1_pityOffset (v : Word) : (s.setRes1 v).block.pityOffset = s.block.pityOffset := rfl
@[simp] theorem setRes1_snap (v : Word) : (s.setRes1 v).block.snap = s.block.snap := rfl
@[simp] theorem setRes1_reward (v : Word) : (s.setRes1 v).block.reward = s.block.reward := rfl
@[simp] theorem setRes1_items (v : Word) : (s.setRes1 v).block.items = s.block.items := rfl
@[simp] theorem setRes1_row (v : Word) (j : StreamId) : (s.setRes1 v).row j = s.row j := rfl
@[simp] theorem setRes1_item (v : Word) (j : Nat) : (s.setRes1 v).item j = s.item j := rfl

@[simp] theorem setPityOffset_params (v : BitVec 16) : (s.setPityOffset v).params = s.params := rfl
@[simp] theorem setPityOffset_moves (v : BitVec 16) : (s.setPityOffset v).moves = s.moves := rfl
@[simp] theorem setPityOffset_readData (v : BitVec 16) : (s.setPityOffset v).readData = s.readData := rfl
@[simp] theorem setPityOffset_resets (v : BitVec 16) : (s.setPityOffset v).resets = s.resets := rfl
@[simp] theorem setPityOffset_cmd (v : BitVec 16) : (s.setPityOffset v).block.cmd = s.block.cmd := rfl
@[simp] theorem setPityOffset_status (v : BitVec 16) : (s.setPityOffset v).block.status = s.block.status := rfl
@[simp] theorem setPityOffset_opa (v : BitVec 16) : (s.setPityOffset v).block.opa = s.block.opa := rfl
@[simp] theorem setPityOffset_opb (v : BitVec 16) : (s.setPityOffset v).block.opb = s.block.opb := rfl
@[simp] theorem setPityOffset_res0 (v : BitVec 16) : (s.setPityOffset v).block.res0 = s.block.res0 := rfl
@[simp] theorem setPityOffset_res1 (v : BitVec 16) : (s.setPityOffset v).block.res1 = s.block.res1 := rfl
@[simp] theorem setPityOffset_mgr (v : BitVec 16) : (s.setPityOffset v).block.mgr = s.block.mgr := rfl
@[simp] theorem setPityOffset_shadow (v : BitVec 16) : (s.setPityOffset v).block.shadow = s.block.shadow := rfl
@[simp] theorem setPityOffset_cfg (v : BitVec 16) : (s.setPityOffset v).block.cfg = s.block.cfg := rfl
@[simp] theorem setPityOffset_pityOffset (v : BitVec 16) : (s.setPityOffset v).block.pityOffset = v := rfl
@[simp] theorem setPityOffset_snap (v : BitVec 16) : (s.setPityOffset v).block.snap = s.block.snap := rfl
@[simp] theorem setPityOffset_reward (v : BitVec 16) : (s.setPityOffset v).block.reward = s.block.reward := rfl
@[simp] theorem setPityOffset_items (v : BitVec 16) : (s.setPityOffset v).block.items = s.block.items := rfl
@[simp] theorem setPityOffset_row (v : BitVec 16) (j : StreamId) : (s.setPityOffset v).row j = s.row j := rfl
@[simp] theorem setPityOffset_item (v : BitVec 16) (j : Nat) : (s.setPityOffset v).item j = s.item j := rfl

@[simp] theorem setStatus_params (u : Status) : (s.setStatus u).params = s.params := rfl
@[simp] theorem setStatus_moves (u : Status) : (s.setStatus u).moves = s.moves := rfl
@[simp] theorem setStatus_readData (u : Status) : (s.setStatus u).readData = s.readData := rfl
@[simp] theorem setStatus_resets (u : Status) : (s.setStatus u).resets = s.resets := rfl
@[simp] theorem setStatus_cmd (u : Status) : (s.setStatus u).block.cmd = s.block.cmd := rfl
@[simp] theorem setStatus_status (u : Status) : (s.setStatus u).block.status = u := rfl
@[simp] theorem setStatus_opa (u : Status) : (s.setStatus u).block.opa = s.block.opa := rfl
@[simp] theorem setStatus_opb (u : Status) : (s.setStatus u).block.opb = s.block.opb := rfl
@[simp] theorem setStatus_res0 (u : Status) : (s.setStatus u).block.res0 = s.block.res0 := rfl
@[simp] theorem setStatus_res1 (u : Status) : (s.setStatus u).block.res1 = s.block.res1 := rfl
@[simp] theorem setStatus_mgr (u : Status) : (s.setStatus u).block.mgr = s.block.mgr := rfl
@[simp] theorem setStatus_shadow (u : Status) : (s.setStatus u).block.shadow = s.block.shadow := rfl
@[simp] theorem setStatus_cfg (u : Status) : (s.setStatus u).block.cfg = s.block.cfg := rfl
@[simp] theorem setStatus_pityOffset (u : Status) : (s.setStatus u).block.pityOffset = s.block.pityOffset := rfl
@[simp] theorem setStatus_snap (u : Status) : (s.setStatus u).block.snap = s.block.snap := rfl
@[simp] theorem setStatus_reward (u : Status) : (s.setStatus u).block.reward = s.block.reward := rfl
@[simp] theorem setStatus_items (u : Status) : (s.setStatus u).block.items = s.block.items := rfl
@[simp] theorem setStatus_row (u : Status) (j : StreamId) : (s.setStatus u).row j = s.row j := rfl
@[simp] theorem setStatus_item (u : Status) (j : Nat) : (s.setStatus u).item j = s.item j := rfl

@[simp] theorem setInit_params : (s.setInit).params = s.params := rfl
@[simp] theorem setInit_moves : (s.setInit).moves = s.moves := rfl
@[simp] theorem setInit_readData : (s.setInit).readData = s.readData := rfl
@[simp] theorem setInit_resets : (s.setInit).resets = s.resets := rfl
@[simp] theorem setInit_cmd : (s.setInit).block.cmd = s.block.cmd := rfl
@[simp] theorem setInit_status : (s.setInit).block.status = { s.block.status with init := true } := rfl
@[simp] theorem setInit_opa : (s.setInit).block.opa = s.block.opa := rfl
@[simp] theorem setInit_opb : (s.setInit).block.opb = s.block.opb := rfl
@[simp] theorem setInit_res0 : (s.setInit).block.res0 = s.block.res0 := rfl
@[simp] theorem setInit_res1 : (s.setInit).block.res1 = s.block.res1 := rfl
@[simp] theorem setInit_mgr : (s.setInit).block.mgr = s.block.mgr := rfl
@[simp] theorem setInit_shadow : (s.setInit).block.shadow = s.block.shadow := rfl
@[simp] theorem setInit_cfg : (s.setInit).block.cfg = s.block.cfg := rfl
@[simp] theorem setInit_pityOffset : (s.setInit).block.pityOffset = s.block.pityOffset := rfl
@[simp] theorem setInit_snap : (s.setInit).block.snap = s.block.snap := rfl
@[simp] theorem setInit_reward : (s.setInit).block.reward = s.block.reward := rfl
@[simp] theorem setInit_items : (s.setInit).block.items = s.block.items := rfl
@[simp] theorem setInit_row (j : StreamId) : (s.setInit).row j = s.row j := rfl
@[simp] theorem setInit_item (j : Nat) : (s.setInit).item j = s.item j := rfl

@[simp] theorem setCkpt_params : (s.setCkpt).params = s.params := rfl
@[simp] theorem setCkpt_moves : (s.setCkpt).moves = s.moves := rfl
@[simp] theorem setCkpt_readData : (s.setCkpt).readData = s.readData := rfl
@[simp] theorem setCkpt_resets : (s.setCkpt).resets = s.resets := rfl
@[simp] theorem setCkpt_cmd : (s.setCkpt).block.cmd = s.block.cmd := rfl
@[simp] theorem setCkpt_status : (s.setCkpt).block.status = { s.block.status with ckpt := true } := rfl
@[simp] theorem setCkpt_opa : (s.setCkpt).block.opa = s.block.opa := rfl
@[simp] theorem setCkpt_opb : (s.setCkpt).block.opb = s.block.opb := rfl
@[simp] theorem setCkpt_res0 : (s.setCkpt).block.res0 = s.block.res0 := rfl
@[simp] theorem setCkpt_res1 : (s.setCkpt).block.res1 = s.block.res1 := rfl
@[simp] theorem setCkpt_mgr : (s.setCkpt).block.mgr = s.block.mgr := rfl
@[simp] theorem setCkpt_shadow : (s.setCkpt).block.shadow = s.block.shadow := rfl
@[simp] theorem setCkpt_cfg : (s.setCkpt).block.cfg = s.block.cfg := rfl
@[simp] theorem setCkpt_pityOffset : (s.setCkpt).block.pityOffset = s.block.pityOffset := rfl
@[simp] theorem setCkpt_snap : (s.setCkpt).block.snap = s.block.snap := rfl
@[simp] theorem setCkpt_reward : (s.setCkpt).block.reward = s.block.reward := rfl
@[simp] theorem setCkpt_items : (s.setCkpt).block.items = s.block.items := rfl
@[simp] theorem setCkpt_row (j : StreamId) : (s.setCkpt).row j = s.row j := rfl
@[simp] theorem setCkpt_item (j : Nat) : (s.setCkpt).item j = s.item j := rfl

@[simp] theorem rearm_params : (s.rearm).params = s.params := rfl
@[simp] theorem rearm_moves : (s.rearm).moves = s.moves := rfl
@[simp] theorem rearm_readData : (s.rearm).readData = s.readData := rfl
@[simp] theorem rearm_resets : (s.rearm).resets = s.resets := rfl
@[simp] theorem rearm_cmd : (s.rearm).block.cmd = s.block.cmd := rfl
@[simp] theorem rearm_status : (s.rearm).block.status = { s.block.status with errFirst := none, errCmd := 0 } := rfl
@[simp] theorem rearm_opa : (s.rearm).block.opa = s.block.opa := rfl
@[simp] theorem rearm_opb : (s.rearm).block.opb = s.block.opb := rfl
@[simp] theorem rearm_res0 : (s.rearm).block.res0 = s.block.res0 := rfl
@[simp] theorem rearm_res1 : (s.rearm).block.res1 = s.block.res1 := rfl
@[simp] theorem rearm_mgr : (s.rearm).block.mgr = s.block.mgr := rfl
@[simp] theorem rearm_shadow : (s.rearm).block.shadow = s.block.shadow := rfl
@[simp] theorem rearm_cfg : (s.rearm).block.cfg = s.block.cfg := rfl
@[simp] theorem rearm_pityOffset : (s.rearm).block.pityOffset = s.block.pityOffset := rfl
@[simp] theorem rearm_snap : (s.rearm).block.snap = s.block.snap := rfl
@[simp] theorem rearm_reward : (s.rearm).block.reward = s.block.reward := rfl
@[simp] theorem rearm_items : (s.rearm).block.items = s.block.items := rfl
@[simp] theorem rearm_row (j : StreamId) : (s.rearm).row j = s.row j := rfl
@[simp] theorem rearm_item (j : Nat) : (s.rearm).item j = s.item j := rfl

@[simp] theorem complete_params : (s.complete).params = s.params := rfl
@[simp] theorem complete_moves : (s.complete).moves = s.moves := rfl
@[simp] theorem complete_readData : (s.complete).readData = s.readData := rfl
@[simp] theorem complete_resets : (s.complete).resets = s.resets := rfl
@[simp] theorem complete_cmd : (s.complete).block.cmd = s.block.cmd := rfl
@[simp] theorem complete_status : (s.complete).block.status = { s.block.status with err := none } := rfl
@[simp] theorem complete_opa : (s.complete).block.opa = s.block.opa := rfl
@[simp] theorem complete_opb : (s.complete).block.opb = s.block.opb := rfl
@[simp] theorem complete_res0 : (s.complete).block.res0 = s.block.res0 := rfl
@[simp] theorem complete_res1 : (s.complete).block.res1 = s.block.res1 := rfl
@[simp] theorem complete_mgr : (s.complete).block.mgr = s.block.mgr := rfl
@[simp] theorem complete_shadow : (s.complete).block.shadow = s.block.shadow := rfl
@[simp] theorem complete_cfg : (s.complete).block.cfg = s.block.cfg := rfl
@[simp] theorem complete_pityOffset : (s.complete).block.pityOffset = s.block.pityOffset := rfl
@[simp] theorem complete_snap : (s.complete).block.snap = s.block.snap := rfl
@[simp] theorem complete_reward : (s.complete).block.reward = s.block.reward := rfl
@[simp] theorem complete_items : (s.complete).block.items = s.block.items := rfl
@[simp] theorem complete_row (j : StreamId) : (s.complete).row j = s.row j := rfl
@[simp] theorem complete_item (j : Nat) : (s.complete).item j = s.item j := rfl

@[simp] theorem raise_params (e : Err) : (s.raise e).params = s.params := by unfold State.raise; split <;> rfl
@[simp] theorem raise_moves (e : Err) : (s.raise e).moves = s.moves := by unfold State.raise; split <;> rfl
@[simp] theorem raise_readData (e : Err) : (s.raise e).readData = s.readData := by unfold State.raise; split <;> rfl
@[simp] theorem raise_resets (e : Err) : (s.raise e).resets = s.resets := by unfold State.raise; split <;> rfl
@[simp] theorem raise_cmd (e : Err) : (s.raise e).block.cmd = s.block.cmd := by unfold State.raise; split <;> rfl
@[simp] theorem raise_opa (e : Err) : (s.raise e).block.opa = s.block.opa := by unfold State.raise; split <;> rfl
@[simp] theorem raise_opb (e : Err) : (s.raise e).block.opb = s.block.opb := by unfold State.raise; split <;> rfl
@[simp] theorem raise_res0 (e : Err) : (s.raise e).block.res0 = s.block.res0 := by unfold State.raise; split <;> rfl
@[simp] theorem raise_res1 (e : Err) : (s.raise e).block.res1 = s.block.res1 := by unfold State.raise; split <;> rfl
@[simp] theorem raise_mgr (e : Err) : (s.raise e).block.mgr = s.block.mgr := by unfold State.raise; split <;> rfl
@[simp] theorem raise_shadow (e : Err) : (s.raise e).block.shadow = s.block.shadow := by unfold State.raise; split <;> rfl
@[simp] theorem raise_cfg (e : Err) : (s.raise e).block.cfg = s.block.cfg := by unfold State.raise; split <;> rfl
@[simp] theorem raise_pityOffset (e : Err) : (s.raise e).block.pityOffset = s.block.pityOffset := by unfold State.raise; split <;> rfl
@[simp] theorem raise_snap (e : Err) : (s.raise e).block.snap = s.block.snap := by unfold State.raise; split <;> rfl
@[simp] theorem raise_reward (e : Err) : (s.raise e).block.reward = s.block.reward := by unfold State.raise; split <;> rfl
@[simp] theorem raise_items (e : Err) : (s.raise e).block.items = s.block.items := by unfold State.raise; split <;> rfl
@[simp] theorem raise_row (e : Err) (j : StreamId) : (s.raise e).row j = s.row j := by unfold State.raise; split <;> rfl
@[simp] theorem raise_item (e : Err) (j : Nat) : (s.raise e).item j = s.item j := by unfold State.raise; split <;> rfl

@[simp] theorem setCfg_params (c : RewardConfig) : (s.setCfg c).params = s.params := rfl
@[simp] theorem setCfg_moves (c : RewardConfig) : (s.setCfg c).moves = s.moves := rfl
@[simp] theorem setCfg_readData (c : RewardConfig) : (s.setCfg c).readData = s.readData := rfl
@[simp] theorem setCfg_resets (c : RewardConfig) : (s.setCfg c).resets = s.resets := rfl
@[simp] theorem setCfg_cmd (c : RewardConfig) : (s.setCfg c).block.cmd = s.block.cmd := rfl
@[simp] theorem setCfg_status (c : RewardConfig) : (s.setCfg c).block.status = s.block.status := rfl
@[simp] theorem setCfg_opa (c : RewardConfig) : (s.setCfg c).block.opa = s.block.opa := rfl
@[simp] theorem setCfg_opb (c : RewardConfig) : (s.setCfg c).block.opb = s.block.opb := rfl
@[simp] theorem setCfg_res0 (c : RewardConfig) : (s.setCfg c).block.res0 = s.block.res0 := rfl
@[simp] theorem setCfg_res1 (c : RewardConfig) : (s.setCfg c).block.res1 = s.block.res1 := rfl
@[simp] theorem setCfg_mgr (c : RewardConfig) : (s.setCfg c).block.mgr = s.block.mgr := rfl
@[simp] theorem setCfg_shadow (c : RewardConfig) : (s.setCfg c).block.shadow = s.block.shadow := rfl
@[simp] theorem setCfg_cfg (c : RewardConfig) : (s.setCfg c).block.cfg = c := rfl
@[simp] theorem setCfg_pityOffset (c : RewardConfig) : (s.setCfg c).block.pityOffset = s.block.pityOffset := rfl
@[simp] theorem setCfg_snap (c : RewardConfig) : (s.setCfg c).block.snap = s.block.snap := rfl
@[simp] theorem setCfg_reward (c : RewardConfig) : (s.setCfg c).block.reward = s.block.reward := rfl
@[simp] theorem setCfg_items (c : RewardConfig) : (s.setCfg c).block.items = s.block.items := rfl
@[simp] theorem setCfg_row (c : RewardConfig) (j : StreamId) : (s.setCfg c).row j = s.row j := rfl
@[simp] theorem setCfg_item (c : RewardConfig) (j : Nat) : (s.setCfg c).item j = s.item j := rfl

@[simp] theorem setOpa_params (v : Word) : (s.setOpa v).params = s.params := rfl
@[simp] theorem setOpa_moves (v : Word) : (s.setOpa v).moves = s.moves := rfl
@[simp] theorem setOpa_readData (v : Word) : (s.setOpa v).readData = s.readData := rfl
@[simp] theorem setOpa_resets (v : Word) : (s.setOpa v).resets = s.resets := rfl
@[simp] theorem setOpa_cmd (v : Word) : (s.setOpa v).block.cmd = s.block.cmd := rfl
@[simp] theorem setOpa_status (v : Word) : (s.setOpa v).block.status = s.block.status := rfl
@[simp] theorem setOpa_opa (v : Word) : (s.setOpa v).block.opa = v := rfl
@[simp] theorem setOpa_opb (v : Word) : (s.setOpa v).block.opb = s.block.opb := rfl
@[simp] theorem setOpa_res0 (v : Word) : (s.setOpa v).block.res0 = s.block.res0 := rfl
@[simp] theorem setOpa_res1 (v : Word) : (s.setOpa v).block.res1 = s.block.res1 := rfl
@[simp] theorem setOpa_mgr (v : Word) : (s.setOpa v).block.mgr = s.block.mgr := rfl
@[simp] theorem setOpa_shadow (v : Word) : (s.setOpa v).block.shadow = s.block.shadow := rfl
@[simp] theorem setOpa_cfg (v : Word) : (s.setOpa v).block.cfg = s.block.cfg := rfl
@[simp] theorem setOpa_pityOffset (v : Word) : (s.setOpa v).block.pityOffset = s.block.pityOffset := rfl
@[simp] theorem setOpa_snap (v : Word) : (s.setOpa v).block.snap = s.block.snap := rfl
@[simp] theorem setOpa_reward (v : Word) : (s.setOpa v).block.reward = s.block.reward := rfl
@[simp] theorem setOpa_items (v : Word) : (s.setOpa v).block.items = s.block.items := rfl
@[simp] theorem setOpa_row (v : Word) (j : StreamId) : (s.setOpa v).row j = s.row j := rfl
@[simp] theorem setOpa_item (v : Word) (j : Nat) : (s.setOpa v).item j = s.item j := rfl

@[simp] theorem setOpb_params (v : Word) : (s.setOpb v).params = s.params := rfl
@[simp] theorem setOpb_moves (v : Word) : (s.setOpb v).moves = s.moves := rfl
@[simp] theorem setOpb_readData (v : Word) : (s.setOpb v).readData = s.readData := rfl
@[simp] theorem setOpb_resets (v : Word) : (s.setOpb v).resets = s.resets := rfl
@[simp] theorem setOpb_cmd (v : Word) : (s.setOpb v).block.cmd = s.block.cmd := rfl
@[simp] theorem setOpb_status (v : Word) : (s.setOpb v).block.status = s.block.status := rfl
@[simp] theorem setOpb_opa (v : Word) : (s.setOpb v).block.opa = s.block.opa := rfl
@[simp] theorem setOpb_opb (v : Word) : (s.setOpb v).block.opb = v := rfl
@[simp] theorem setOpb_res0 (v : Word) : (s.setOpb v).block.res0 = s.block.res0 := rfl
@[simp] theorem setOpb_res1 (v : Word) : (s.setOpb v).block.res1 = s.block.res1 := rfl
@[simp] theorem setOpb_mgr (v : Word) : (s.setOpb v).block.mgr = s.block.mgr := rfl
@[simp] theorem setOpb_shadow (v : Word) : (s.setOpb v).block.shadow = s.block.shadow := rfl
@[simp] theorem setOpb_cfg (v : Word) : (s.setOpb v).block.cfg = s.block.cfg := rfl
@[simp] theorem setOpb_pityOffset (v : Word) : (s.setOpb v).block.pityOffset = s.block.pityOffset := rfl
@[simp] theorem setOpb_snap (v : Word) : (s.setOpb v).block.snap = s.block.snap := rfl
@[simp] theorem setOpb_reward (v : Word) : (s.setOpb v).block.reward = s.block.reward := rfl
@[simp] theorem setOpb_items (v : Word) : (s.setOpb v).block.items = s.block.items := rfl
@[simp] theorem setOpb_row (v : Word) (j : StreamId) : (s.setOpb v).row j = s.row j := rfl
@[simp] theorem setOpb_item (v : Word) (j : Nat) : (s.setOpb v).item j = s.item j := rfl

@[simp] theorem setCmd_params (v : Word) : (s.setCmd v).params = s.params := rfl
@[simp] theorem setCmd_moves (v : Word) : (s.setCmd v).moves = s.moves := rfl
@[simp] theorem setCmd_readData (v : Word) : (s.setCmd v).readData = s.readData := rfl
@[simp] theorem setCmd_resets (v : Word) : (s.setCmd v).resets = s.resets := rfl
@[simp] theorem setCmd_cmd (v : Word) : (s.setCmd v).block.cmd = v := rfl
@[simp] theorem setCmd_status (v : Word) : (s.setCmd v).block.status = s.block.status := rfl
@[simp] theorem setCmd_opa (v : Word) : (s.setCmd v).block.opa = s.block.opa := rfl
@[simp] theorem setCmd_opb (v : Word) : (s.setCmd v).block.opb = s.block.opb := rfl
@[simp] theorem setCmd_res0 (v : Word) : (s.setCmd v).block.res0 = s.block.res0 := rfl
@[simp] theorem setCmd_res1 (v : Word) : (s.setCmd v).block.res1 = s.block.res1 := rfl
@[simp] theorem setCmd_mgr (v : Word) : (s.setCmd v).block.mgr = s.block.mgr := rfl
@[simp] theorem setCmd_shadow (v : Word) : (s.setCmd v).block.shadow = s.block.shadow := rfl
@[simp] theorem setCmd_cfg (v : Word) : (s.setCmd v).block.cfg = s.block.cfg := rfl
@[simp] theorem setCmd_pityOffset (v : Word) : (s.setCmd v).block.pityOffset = s.block.pityOffset := rfl
@[simp] theorem setCmd_snap (v : Word) : (s.setCmd v).block.snap = s.block.snap := rfl
@[simp] theorem setCmd_reward (v : Word) : (s.setCmd v).block.reward = s.block.reward := rfl
@[simp] theorem setCmd_items (v : Word) : (s.setCmd v).block.items = s.block.items := rfl
@[simp] theorem setCmd_row (v : Word) (j : StreamId) : (s.setCmd v).row j = s.row j := rfl
@[simp] theorem setCmd_item (v : Word) (j : Nat) : (s.setCmd v).item j = s.item j := rfl

@[simp] theorem take_params (rest : List HostMove) : (s.take rest).params = s.params := rfl
@[simp] theorem take_moves (rest : List HostMove) : (s.take rest).moves = rest := rfl
@[simp] theorem take_readData (rest : List HostMove) : (s.take rest).readData = none := rfl
@[simp] theorem take_resets (rest : List HostMove) : (s.take rest).resets = s.resets := rfl
@[simp] theorem take_cmd (rest : List HostMove) : (s.take rest).block.cmd = s.block.cmd := rfl
@[simp] theorem take_status (rest : List HostMove) : (s.take rest).block.status = s.block.status := rfl
@[simp] theorem take_opa (rest : List HostMove) : (s.take rest).block.opa = s.block.opa := rfl
@[simp] theorem take_opb (rest : List HostMove) : (s.take rest).block.opb = s.block.opb := rfl
@[simp] theorem take_res0 (rest : List HostMove) : (s.take rest).block.res0 = s.block.res0 := rfl
@[simp] theorem take_res1 (rest : List HostMove) : (s.take rest).block.res1 = s.block.res1 := rfl
@[simp] theorem take_mgr (rest : List HostMove) : (s.take rest).block.mgr = s.block.mgr := rfl
@[simp] theorem take_shadow (rest : List HostMove) : (s.take rest).block.shadow = s.block.shadow := rfl
@[simp] theorem take_cfg (rest : List HostMove) : (s.take rest).block.cfg = s.block.cfg := rfl
@[simp] theorem take_pityOffset (rest : List HostMove) : (s.take rest).block.pityOffset = s.block.pityOffset := rfl
@[simp] theorem take_snap (rest : List HostMove) : (s.take rest).block.snap = s.block.snap := rfl
@[simp] theorem take_reward (rest : List HostMove) : (s.take rest).block.reward = s.block.reward := rfl
@[simp] theorem take_items (rest : List HostMove) : (s.take rest).block.items = s.block.items := rfl
@[simp] theorem take_row (rest : List HostMove) (j : StreamId) : (s.take rest).row j = s.row j := rfl
@[simp] theorem take_item (rest : List HostMove) (j : Nat) : (s.take rest).item j = s.item j := rfl

@[simp] theorem raise_init (e : Err) : (s.raise e).block.status.init = s.block.status.init := by unfold State.raise; split <;> rfl
@[simp] theorem raise_ckpt (e : Err) : (s.raise e).block.status.ckpt = s.block.status.ckpt := by unfold State.raise; split <;> rfl
@[simp] theorem raise_err (e : Err) : (s.raise e).block.status.err = some e := by unfold State.raise; split <;> rfl

/-- `ERR_FIRST` keeps the first failure (60_exceptions R221). -/
@[simp] theorem raise_errFirst (e : Err) :
    (s.raise e).block.status.errFirst = some (s.block.status.errFirst.getD e) := by
  unfold State.raise; split <;> simp_all

/-- `ERR_CMD` is written with `ERR_FIRST` (60_exceptions R221). -/
theorem raise_errCmd (e : Err) :
    (s.raise e).block.status.errCmd =
      if s.block.status.errFirst = none then s.block.cmd.extractLsb' 0 12 else s.block.status.errCmd := by
  unfold State.raise; split <;> simp_all

@[simp] theorem setRow_row_same (i : StreamId) (r : Row) : (s.setRow i r).row i = r := by
  simp [State.setRow, State.row, Manager.row]

theorem setRow_row_ne {i j : StreamId} (r : Row) (h : j ≠ i) : (s.setRow i r).row j = s.row j := by
  simp [State.setRow, State.row, Manager.row, Fin.val_inj, h.symm]

theorem setRow_row (i j : StreamId) (r : Row) :
    (s.setRow i r).row j = if j = i then r else s.row j := by
  split <;> simp_all [setRow_row_ne]

@[simp] theorem setRow_setRow (i : StreamId) (r r' : Row) : (s.setRow i r).setRow i r' = s.setRow i r' := by
  simp [State.setRow]

@[simp] theorem setRow_self (i : StreamId) : s.setRow i (s.row i) = s := by
  simp [State.setRow, State.row, Manager.row]

/-- Two rows of a manager agree on every stream when the managers' stream files do. -/
theorem Manager.rows_ext {m m' : Manager} (h : ∀ i, m.row i = m'.row i) : m.rows = m'.rows := by
  apply Vector.ext
  intro i hi
  exact h ⟨i, hi⟩

end Sys2Proof.Machine
end

