-- ==== Sys2Proof/Laws/Ops.lean ====
section
/-! SUPPORT. What the shared operations of Machine/Ops.lean can do. -/

namespace Sys2Proof.Machine

/-! ### The item memory -/

theorem Memory.wf_iff (m : Memory) :
    m.wf = true ↔ m.Pairwise (fun c d => c.1 < d.1) ∧ ∀ c ∈ m, c.1 < itemDepth := by
  simp [Memory.wf]

/-- A write is read back. -/
@[simp] theorem Memory.read?_write_same (m : Memory) (k : Nat) (v : Word) :
    (m.write k v).read? k = some v := by
  induction m with
  | nil => simp [Memory.write, Memory.read?]
  | cons c m ih =>
    obtain ⟨a, u⟩ := c
    simp only [Memory.write]
    split
    · simp [Memory.read?]
    · split
      · simp [Memory.read?]
      · rename_i h
        simp [Memory.read?, ih, Ne.symm h]

/-- A write leaves every other entry alone. -/
theorem Memory.read?_write_ne (m : Memory) {k j : Nat} (v : Word) (h : j ≠ k) :
    (m.write k v).read? j = m.read? j := by
  induction m with
  | nil => simp [Memory.write, Memory.read?, h.symm]
  | cons c m ih =>
    obtain ⟨a, u⟩ := c
    simp only [Memory.write]
    split
    · simp [Memory.read?, h.symm]
    · split
      · rename_i hk
        subst hk
        simp [Memory.read?, h.symm]
      · simp [Memory.read?, ih]

/-- The entries of a written memory. -/
theorem Memory.mem_write {m : Memory} {k : Nat} {v : Word} {c : Nat × Word} (h : c ∈ m.write k v) :
    c = (k, v) ∨ c ∈ m := by
  induction m with
  | nil => simpa [Memory.write] using h
  | cons d m ih =>
    obtain ⟨a, u⟩ := d
    simp only [Memory.write] at h
    split at h
    · simpa using h
    · split at h
      · simp at h; tauto
      · simp at h
        rcases h with h | h
        · simp [h]
        · rcases ih h with h | h <;> simp [h]

/-- A write keeps the canonical form. -/
theorem Memory.wf_write {m : Memory} {k : Nat} {v : Word} (h : m.wf = true) (hk : k < itemDepth) :
    (m.write k v).wf = true := by
  rw [Memory.wf_iff] at h ⊢
  refine ⟨?_, fun c hc => ?_⟩
  · obtain ⟨h, -⟩ := h
    induction m with
    | nil => simp [Memory.write]
    | cons c m ih =>
      obtain ⟨a, u⟩ := c
      rw [List.pairwise_cons] at h
      simp only [Memory.write]
      split
      · rename_i hka
        simp only [List.pairwise_cons, List.mem_cons]
        refine ⟨?_, h⟩
        rintro d (rfl | hd)
        · exact hka
        · exact hka.trans (h.1 d hd)
      · split
        · rename_i hka
          subst hka
          exact List.pairwise_cons.2 h
        · rename_i h1 h2
          refine List.pairwise_cons.2 ⟨fun d hd => ?_, ih h.2⟩
          rcases Memory.mem_write hd with rfl | hd
          · simp only; omega
          · exact h.1 d hd
  · rcases Memory.mem_write hc with rfl | hc
    · exact hk
    · exact h.2 c hc

@[simp] theorem setItem_item_same (s : State) (k : Nat) (v : Word) : (s.setItem k v).item k = v := by
  simp [State.item]

theorem setItem_item_ne (s : State) {k j : Nat} (v : Word) (h : j ≠ k) :
    (s.setItem k v).item j = s.item j := by
  simp [State.item, Memory.read?_write_ne _ _ h]

/-! ### Results -/

section
variable {σ α β : Type}

@[simp] theorem Res.bind_ok_left (a : α) (s : σ) (f : α → σ → Res σ β) : (Res.ok a s).bind f = f a s := rfl
@[simp] theorem Res.bind_raised (e : Err) (s : σ) (f : α → σ → Res σ β) :
    (Res.raised e s).bind f = .raised e s := rfl
@[simp] theorem Res.bind_stuck (f : α → σ → Res σ β) : (Res.stuck : Res σ α).bind f = .stuck := rfl

theorem Res.bind_eq_ok {x : Res σ α} {f : α → σ → Res σ β} {b : β} {t : σ} :
    x.bind f = .ok b t ↔ ∃ a s, x = .ok a s ∧ f a s = .ok b t := by
  cases x <;> simp [Res.bind]

theorem Res.bind_eq_raised {x : Res σ α} {f : α → σ → Res σ β} {e : Err} {t : σ} :
    x.bind f = .raised e t ↔ x = .raised e t ∨ ∃ a s, x = .ok a s ∧ f a s = .raised e t := by
  cases x <;> simp [Res.bind]

theorem Res.bind_eq_stuck {x : Res σ α} {f : α → σ → Res σ β} :
    x.bind f = .stuck ↔ x = .stuck ∨ ∃ a s, x = .ok a s ∧ f a s = .stuck := by
  cases x <;> simp [Res.bind]

/-- The state a result leaves, if it leaves one. -/
def Res.leaves (x : Res σ α) (t : σ) : Prop := (∃ a, x = .ok a t) ∨ ∃ e, x = .raised e t

theorem Res.leaves_bind {x : Res σ α} {f : α → σ → Res σ β} {t : σ} (h : (x.bind f).leaves t) :
    (∃ e, x = .raised e t) ∨ ∃ a s, x = .ok a s ∧ (f a s).leaves t := by
  cases x with
  | ok a s => exact .inr ⟨a, s, rfl, h⟩
  | raised e s =>
    rcases h with ⟨a, h⟩ | ⟨e', h⟩
    · simp [Res.bind] at h
    · simp only [Res.bind, Res.raised.injEq] at h
      exact .inl ⟨e, by rw [h.2]⟩
  | stuck => rcases h with ⟨a, h⟩ | ⟨e', h⟩ <;> simp [Res.bind] at h

@[simp] theorem Res.leaves_ok {a : α} {s t : σ} : (Res.ok a s).leaves t ↔ t = s := by
  simp [Res.leaves, eq_comm]

@[simp] theorem Res.leaves_raised {e : Err} {s t : σ} : (Res.raised e s : Res σ α).leaves t ↔ t = s := by
  simp [Res.leaves, eq_comm]

@[simp] theorem Res.leaves_stuck {t : σ} : ¬(Res.stuck : Res σ α).leaves t := by
  simp [Res.leaves]

/-! ### A row's pseudocode on the block -/

theorem onRow_eq_ok {i : StreamId} {f : Row → Res Row α} {s t : State} {a : α} :
    onRow i f s = .ok a t ↔ ∃ r, f (s.row i) = .ok a r ∧ t = s.setRow i r := by
  unfold onRow
  cases f (s.row i) with
  | ok b r => simp only [Res.ok.injEq]; constructor <;> rintro ⟨_, h⟩ <;> simp_all
  | raised e r => simp
  | stuck => simp

theorem onRow_eq_raised {i : StreamId} {f : Row → Res Row α} {s t : State} {e : Err} :
    onRow i f s = .raised e t ↔ ∃ r, f (s.row i) = .raised e r ∧ t = s.setRow i r := by
  unfold onRow
  cases f (s.row i) with
  | ok b r => simp
  | raised e r => simp only [Res.raised.injEq]; constructor <;> rintro ⟨_, h⟩ <;> simp_all
  | stuck => simp

theorem onRow_eq_stuck {i : StreamId} {f : Row → Res Row α} {s : State} :
    onRow i f s = .stuck ↔ f (s.row i) = .stuck := by
  unfold onRow
  split <;> simp_all

theorem onRow_of_ok {i : StreamId} {f : Row → Res Row α} {s : State} {a : α} {r : Row}
    (h : f (s.row i) = .ok a r) : onRow i f s = .ok a (s.setRow i r) := by
  simp [onRow, h]

/-- A row's pseudocode changes at most that row. -/
theorem onRow_leaves {i : StreamId} {f : Row → Res Row α} {s t : State} (h : (onRow i f s).leaves t) :
    ∃ r, t = s.setRow i r ∧ (f (s.row i)).leaves r := by
  rcases h with ⟨a, h⟩ | ⟨e, h⟩
  · obtain ⟨r, hr, rfl⟩ := onRow_eq_ok.1 h
    exact ⟨r, rfl, .inl ⟨a, hr⟩⟩
  · obtain ⟨r, hr, rfl⟩ := onRow_eq_raised.1 h
    exact ⟨r, rfl, .inr ⟨e, hr⟩⟩

end

/-! ### The end of a command and the checks before its rule -/

theorem finish_eq_next {x : Res State Unit} {t : State} :
    finish x = .next t ↔
      (∃ s, x = .ok () s ∧ t = s.complete) ∨ ∃ e s, x = .raised e s ∧ t = s.raise e := by
  unfold finish
  split <;> simp_all [eq_comm]

theorem finish_cases (x : Res State Unit) :
    (∃ t, finish x = .next t) ∨ x = .stuck ∧ finish x = .fault .redrawNeverEnds := by
  unfold finish
  split <;> simp_all

@[simp] theorem finish_ok (s : State) : finish (.ok () s) = .next s.complete := rfl
@[simp] theorem finish_raised (e : Err) (s : State) : finish (.raised e s) = .next (s.raise e) := rfl
@[simp] theorem finish_stuck : finish .stuck = .fault .redrawNeverEnds := rfl

theorem runInit_of_init {rule : State → Res State Unit} {s : State} (h : s.block.status.init = true) :
    runInit rule s = finish (rule s) := by
  simp [runInit, h]

theorem runInit_of_not_init {rule : State → Res State Unit} {s : State}
    (h : s.block.status.init = false) : runInit rule s = .next (s.raise .notInit) := by
  simp [runInit, h]

theorem runStream_of_stream {sid : BitVec 4} {i : StreamId} {rule : StreamId → State → Res State Unit}
    {s : State} (h : streamId? sid = some i) : runStream sid rule s = runInit (rule i) s := by
  simp [runStream, h]

theorem runStream_of_no_stream {sid : BitVec 4} {rule : StreamId → State → Res State Unit}
    {s : State} (h : streamId? sid = none) : runStream sid rule s = .next (s.raise .badStream) := by
  simp [runStream, h]

theorem runStream_ready {sid : BitVec 4} {i : StreamId} {rule : StreamId → State → Res State Unit}
    {s : State} (h : streamId? sid = some i) (hi : s.block.status.init = true) :
    runStream sid rule s = finish (rule i s) := by
  rw [runStream_of_stream h, runInit_of_init hi]

/-- Everything a command behind the initialisation check can do. -/
theorem runInit_next {rule : State → Res State Unit} {s t : State} (h : runInit rule s = .next t) :
    (s.block.status.init = false ∧ t = s.raise .notInit) ∨
    (s.block.status.init = true ∧ ∃ u, rule s = .ok () u ∧ t = u.complete) ∨
    (s.block.status.init = true ∧ ∃ e u, rule s = .raised e u ∧ t = u.raise e) := by
  cases hi : s.block.status.init with
  | false => rw [runInit_of_not_init hi] at h; cases h; exact .inl ⟨rfl, rfl⟩
  | true =>
    rw [runInit_of_init hi, finish_eq_next] at h
    rcases h with h | h
    · exact .inr (.inl ⟨rfl, h⟩)
    · exact .inr (.inr ⟨rfl, h⟩)

/-- Everything a format S command can do. -/
theorem runStream_next {sid : BitVec 4} {rule : StreamId → State → Res State Unit} {s t : State}
    (h : runStream sid rule s = .next t) :
    (streamId? sid = none ∧ t = s.raise .badStream) ∨
    (s.block.status.init = false ∧ t = s.raise .notInit) ∨
    ∃ i, streamId? sid = some i ∧ s.block.status.init = true ∧
      ((∃ u, rule i s = .ok () u ∧ t = u.complete) ∨ ∃ e u, rule i s = .raised e u ∧ t = u.raise e) := by
  cases hs : streamId? sid with
  | none => rw [runStream_of_no_stream hs] at h; cases h; exact .inl ⟨rfl, rfl⟩
  | some i =>
    rw [runStream_of_stream hs] at h
    rcases runInit_next h with h | ⟨hi, h⟩ | ⟨hi, h⟩
    · exact .inr (.inl h)
    · exact .inr (.inr ⟨i, rfl, hi, .inl h⟩)
    · exact .inr (.inr ⟨i, rfl, hi, .inr h⟩)

theorem streamId?_eq_some {sid : BitVec 4} {i : StreamId} (h : streamId? sid = some i) :
    sid.toNat = i.val := by
  unfold streamId? at h
  split at h <;> simp_all [Fin.ext_iff]

theorem streamId?_eq_none {sid : BitVec 4} : streamId? sid = none ↔ legalSid sid = false := by
  unfold streamId? legalSid
  split <;> simp <;> omega

end Sys2Proof.Machine
end

