-- ==== Sys2Proof/Laws/Draws.lean ====
section
/-! SUPPORT. What the draws and the replay of Machine/Draws.lean can do to a row. -/

namespace Sys2Proof.Machine

/-! ### Raw draws -/

@[simp] theorem nextU64_ctr (r : Row) : (nextU64 r).2.ctr = r.ctr := rfl

/-- The counter plays no part in the generator. -/
@[simp] theorem nextU64_withCtr (r : Row) (c : BitVec 32) :
    nextU64 { r with ctr := c } = ((nextU64 r).1, { (nextU64 r).2 with ctr := c }) := rfl

@[simp] theorem advance_zero (r : Row) : r.advance 0 = r := rfl
theorem advance_succ (r : Row) (k : Nat) : r.advance (k + 1) = (nextU64 r).2.advance k := rfl

@[simp] theorem advance_withCtr (r : Row) (k : Nat) (c : BitVec 32) :
    Row.advance k { r with ctr := c } = { r.advance k with ctr := c } := by
  induction k generalizing r with
  | zero => rfl
  | succ k ih => simp only [advance_succ, nextU64_withCtr, ih]

@[simp] theorem advance_ctr (r : Row) (k : Nat) : (r.advance k).ctr = r.ctr := by
  induction k generalizing r with
  | zero => rfl
  | succ k ih => simp [advance_succ, ih]

theorem advance_add (r : Row) (k m : Nat) : (r.advance k).advance m = r.advance (k + m) := by
  induction k generalizing r with
  | zero => simp
  | succ k ih => rw [advance_succ, ih, Nat.succ_add, advance_succ]

theorem advance_succ' (r : Row) (k : Nat) : r.advance (k + 1) = (nextU64 (r.advance k)).2 := by
  rw [← advance_add]; rfl

@[simp] theorem rawAt_withCtr (r : Row) (k : Nat) (c : BitVec 32) :
    Row.rawAt { r with ctr := c } k = r.rawAt k := by
  simp [Row.rawAt]

@[simp] theorem bitsAt_withCtr (p : Config) (r : Row) (k : Nat) (c : BitVec 32) :
    Row.bitsAt p { r with ctr := c } k = r.bitsAt p k := by
  simp [Row.bitsAt]

theorem rawAt_advance (r : Row) (m k : Nat) : (r.advance m).rawAt k = r.rawAt (m + k) := by
  simp [Row.rawAt, advance_add]

theorem bitsAt_advance (p : Config) (r : Row) (m k : Nat) :
    (r.advance m).bitsAt p k = r.bitsAt p (m + k) := by
  simp [Row.bitsAt, rawAt_advance]

theorem bitsAt_next (p : Config) (r : Row) (k : Nat) :
    (nextU64 r).2.bitsAt p k = r.bitsAt p (k + 1) := rfl

theorem boundedRaw_lt (p : Config) (w : Word) : boundedRaw p w < 2 ^ 63 := (w.extractLsb' _ 63).isLt

theorem bitsAt_lt (p : Config) (r : Row) (k : Nat) : r.bitsAt p k < 2 ^ 63 := boundedRaw_lt p _

@[simp] theorem drawn_ctr (r : Row) (k : Nat) : (r.drawn k).ctr = r.ctr + 1 := rfl

/-! ### The accept test -/

/-- The accept test on natural numbers is the overflow test on integers (41_draws R121). -/
theorem accepts_iff {bits n : Nat} (hn : 1 ≤ n) : accepts bits n = true ↔ NoOverflow bits n := by
  have h := Nat.mod_le bits n
  simp only [accepts, NoOverflow, decide_eq_true_eq]
  rw [← Int.natCast_mod]
  omega

/-! ### The rejection loop -/

theorem boundedLoop_eq_ok {p : Config} {n fuel : Nat} {r r' : Row} {v : Nat} (hn : 1 ≤ n) :
    boundedLoop p n fuel r = .ok v r' ↔
      ∃ k, k < fuel ∧ NoOverflow (r.bitsAt p k) n ∧ (∀ j, j < k → ¬ NoOverflow (r.bitsAt p j) n) ∧
        v = r.bitsAt p k % n ∧ r' = r.advance (k + 1) := by
  induction fuel generalizing r with
  | zero => simp [boundedLoop]
  | succ fuel ih =>
    have h0 : accepts (boundedRaw p (nextU64 r).1) n = true ↔ NoOverflow (r.bitsAt p 0) n := accepts_iff hn
    simp only [boundedLoop]
    split
    · rename_i ha
      have ha0 := h0.1 ha
      constructor
      · intro h
        cases h
        exact ⟨0, Nat.succ_pos _, ha0, by simp, rfl, rfl⟩
      · rintro ⟨k, -, -, hj, rfl, rfl⟩
        cases k with
        | zero => rfl
        | succ k => exact absurd ha0 (hj 0 (Nat.succ_pos _))
    · rename_i ha
      have ha0 : ¬ NoOverflow (r.bitsAt p 0) n := fun h => ha (h0.2 h)
      rw [ih]
      constructor
      · rintro ⟨k, hk, hb, hj, rfl, rfl⟩
        refine ⟨k + 1, by omega, hb, fun j hjk => ?_, rfl, rfl⟩
        cases j with
        | zero => exact ha0
        | succ j => exact hj j (by omega)
      · rintro ⟨k, hk, hb, hj, rfl, rfl⟩
        cases k with
        | zero => exact absurd hb ha0
        | succ k => exact ⟨k, by omega, hb, fun j hjk => hj (j + 1) (by omega), rfl, rfl⟩

theorem boundedLoop_eq_stuck {p : Config} {n fuel : Nat} {r : Row} (hn : 1 ≤ n) :
    boundedLoop p n fuel r = .stuck ↔ ∀ k, k < fuel → ¬ NoOverflow (r.bitsAt p k) n := by
  induction fuel generalizing r with
  | zero => simp [boundedLoop]
  | succ fuel ih =>
    have h0 : accepts (boundedRaw p (nextU64 r).1) n = true ↔ NoOverflow (r.bitsAt p 0) n := accepts_iff hn
    simp only [boundedLoop]
    split
    · rename_i ha
      simp only [reduceCtorEq, false_iff]
      exact fun h => h 0 (Nat.succ_pos _) (h0.1 ha)
    · rename_i ha
      rw [ih]
      constructor
      · intro h k hk
        cases k with
        | zero => exact fun h => ha (h0.2 h)
        | succ k => exact h k (by omega)
      · exact fun h k hk => h (k + 1) (by omega)

@[simp] theorem boundedLoop_ne_raised {p : Config} {n fuel : Nat} {r r' : Row} {e : Err} :
    boundedLoop p n fuel r ≠ .raised e r' := by
  induction fuel generalizing r with
  | zero => simp [boundedLoop]
  | succ fuel ih => simp only [boundedLoop]; split <;> simp [ih]

theorem bounded_eq_ok {p : Config} {n : Nat} {r r' : Row} {v : Nat} (hn : 1 ≤ n) :
    bounded p n r = .ok v r' ↔
      ∃ k, r.redraws p n k ∧ v = r.bitsAt p k % n ∧ r' = r.advance (k + 1) := by
  unfold bounded Row.redraws
  rw [boundedLoop_eq_ok hn]
  simp only [and_assoc]

@[simp] theorem bounded_ne_raised {p : Config} {n : Nat} {r r' : Row} {e : Err} :
    bounded p n r ≠ .raised e r' := boundedLoop_ne_raised

@[simp] theorem redraws_withCtr (p : Config) (n : Nat) (r : Row) (c : BitVec 32) (k : Nat) :
    Row.redraws p n { r with ctr := c } k ↔ r.redraws p n k := by
  simp [Row.redraws]

/-- A row makes one number of redraws at most. -/
theorem redraws_unique {p : Config} {n : Nat} {r : Row} {k m : Nat} (hk : r.redraws p n k)
    (hm : r.redraws p n m) : k = m := by
  rcases Nat.lt_trichotomy k m with h | h | h
  · exact absurd hk.2.1 (hm.2.2 k h)
  · exact h
  · exact absurd hm.2.1 (hk.2.2 m h)

/-- A raw draw accepted at once makes no redraw. -/
theorem redraws_zero {p : Config} {n : Nat} {r : Row} (h : NoOverflow (r.bitsAt p 0) n) :
    r.redraws p n 0 := ⟨by decide, h, by simp⟩

/-! ### Counting -/

theorem count_of_max {r : Row} (h : r.ctr.toNat = 2 ^ 32 - 1) : count r = .raised .ctrOvf r := by
  simp [count, h, ctrMax]

theorem count_of_lt {r : Row} (h : r.ctr.toNat < 2 ^ 32 - 1) :
    count r = .ok () { r with ctr := r.ctr + 1 } := by
  have : r.ctr.toNat ≠ ctrMax := by simp only [ctrMax]; omega
  simp [count, this]

theorem ctr_cases (r : Row) : r.ctr.toNat = 2 ^ 32 - 1 ∨ r.ctr.toNat < 2 ^ 32 - 1 := by
  have := r.ctr.isLt
  omega

theorem ctr_succ {c : BitVec 32} (h : c.toNat < 2 ^ 32 - 1) : (c + 1).toNat = c.toNat + 1 := by
  rw [BitVec.toNat_add]
  simp
  omega

/-! ### The draws -/

theorem drawBounded_eq_ok {p : Config} {n : Nat} {r r' : Row} {v : Nat} (hn : 1 ≤ n) :
    drawBounded p n r = .ok v r' ↔ r.ctr.toNat < 2 ^ 32 - 1 ∧
      ∃ k, r.redraws p n k ∧ v = r.bitsAt p k % n ∧ r' = r.drawn k := by
  rcases ctr_cases r with h | h
  · simp [drawBounded, count_of_max h, h]
  · simp [drawBounded, count_of_lt h, bounded_eq_ok hn, Row.drawn]
    intros; omega

theorem drawBounded_eq_raised {p : Config} {n : Nat} {r r' : Row} {e : Err} :
    drawBounded p n r = .raised e r' ↔ r.ctr.toNat = 2 ^ 32 - 1 ∧ e = .ctrOvf ∧ r' = r := by
  rcases ctr_cases r with h | h
  · simp [drawBounded, count_of_max h, h, eq_comm]
  · simp [drawBounded, count_of_lt h]
    omega

theorem drawRange_eq_ok {p : Config} {lo hi : Int} {r r' : Row} {v : Int} :
    drawRange p lo hi r = .ok v r' ↔ lo ≤ hi ∧ r.ctr.toNat < 2 ^ 32 - 1 ∧
      ∃ k, r.redraws p (hi - lo + 1).toNat k ∧
        v = lo + (r.bitsAt p k % (hi - lo + 1).toNat : Nat) ∧ r' = r.drawn k := by
  unfold drawRange
  split
  · rename_i h; simp; intro h'; omega
  · rename_i h
    have hn : 1 ≤ (hi - lo + 1).toNat := by omega
    have hle : lo ≤ hi := by omega
    rcases ctr_cases r with hc | hc
    · simp [count_of_max hc, hc]
    · simp only [count_of_lt hc, Res.bind_ok_left, Res.bind_eq_ok, bounded_eq_ok hn, redraws_withCtr,
        bitsAt_withCtr, advance_withCtr, Res.ok.injEq, hle, hc, true_and]
      constructor
      · rintro ⟨a, s, ⟨k, hk, rfl, rfl⟩, rfl, rfl⟩
        exact ⟨k, hk, rfl, rfl⟩
      · rintro ⟨k, hk, rfl, rfl⟩
        exact ⟨_, _, ⟨k, hk, rfl, rfl⟩, rfl, rfl⟩

theorem drawRange_eq_raised {p : Config} {lo hi : Int} {r r' : Row} {e : Err} :
    drawRange p lo hi r = .raised e r' ↔ r' = r ∧
      (hi < lo ∧ e = .badArg ∨ lo ≤ hi ∧ r.ctr.toNat = 2 ^ 32 - 1 ∧ e = .ctrOvf) := by
  unfold drawRange
  split
  · rename_i h
    have : ¬ lo ≤ hi := by omega
    simp [h, this, eq_comm, and_comm]
  · rename_i h
    have hle : lo ≤ hi := by omega
    rcases ctr_cases r with hc | hc
    · simp [count_of_max hc, hc, hle, h, eq_comm, and_comm]
    · simp [count_of_lt hc, hle, h, Res.bind_eq_raised]
      omega

theorem drawRange_eq_stuck {p : Config} {lo hi : Int} {r : Row} :
    drawRange p lo hi r = .stuck ↔ lo ≤ hi ∧ r.ctr.toNat < 2 ^ 32 - 1 ∧
      bounded p (hi - lo + 1).toNat { r with ctr := r.ctr + 1 } = .stuck := by
  unfold drawRange
  split
  · rename_i h; simp; intro h'; omega
  · rename_i h
    have hle : lo ≤ hi := by omega
    rcases ctr_cases r with hc | hc
    · simp [count_of_max hc, hc]
    · simp [count_of_lt hc, hle, Res.bind_eq_stuck]
      omega

/-- A range draw whose first raw draws are as said answers. -/
theorem drawRange_of_redraws {p : Config} {lo hi : Int} {r : Row} {k : Nat} (h : lo ≤ hi)
    (hc : r.ctr.toNat < 2 ^ 32 - 1) (hk : r.redraws p (hi - lo + 1).toNat k) :
    drawRange p lo hi r = .ok (lo + (r.bitsAt p k % (hi - lo + 1).toNat : Nat)) (r.drawn k) :=
  drawRange_eq_ok.2 ⟨h, hc, k, hk, rfl, rfl⟩

/-- The result of a range draw lies in its range (41_draws R122). -/
theorem drawRange_mem {p : Config} {lo hi : Int} {r r' : Row} {v : Int}
    (h : drawRange p lo hi r = .ok v r') : lo ≤ v ∧ v ≤ hi := by
  obtain ⟨hle, -, k, -, rfl, -⟩ := drawRange_eq_ok.1 h
  have := Nat.mod_lt (r.bitsAt p k) (y := (hi - lo + 1).toNat) (by omega)
  omega

theorem drawRaw_of_max {r : Row} (h : r.ctr.toNat = 2 ^ 32 - 1) : drawRaw r = .raised .ctrOvf r := by
  simp [drawRaw, count_of_max h]

theorem drawRaw_of_lt {r : Row} (h : r.ctr.toNat < 2 ^ 32 - 1) :
    drawRaw r = .ok (r.rawAt 0) (r.drawn 0) := by
  simp [drawRaw, count_of_lt h, Row.rawAt, Row.drawn, advance_succ]

theorem drawChance_of_max {p : Config} {pat : BitVec 32} {r : Row} (h : r.ctr.toNat = 2 ^ 32 - 1) :
    drawChance p pat r = .raised .ctrOvf r := by
  simp [drawChance, drawRaw_of_max h]

theorem drawChance_of_lt {p : Config} {pat : BitVec 32} {r : Row} (h : r.ctr.toNat < 2 ^ 32 - 1) :
    drawChance p pat r = .ok (less24 (floatRaw p (r.rawAt 0)).toNat pat) (r.drawn 0) := by
  simp [drawChance, drawRaw_of_lt h]

/-! ### What every draw does to its row -/

/-- A draw either answers after `k + 1` raw draws and one count, or fails and leaves the row as it was. -/
structure IsDraw {α : Type} (f : Row → Res Row α) : Prop where
  ok : ∀ {r r' a}, f r = .ok a r' → r.ctr.toNat < 2 ^ 32 - 1 ∧ ∃ k, r' = r.drawn k
  raised : ∀ {r r' e}, f r = .raised e r' → r' = r

theorem drawBounded_isDraw (p : Config) {n : Nat} (hn : 1 ≤ n) : IsDraw (drawBounded p n) where
  ok h := by
    obtain ⟨hc, k, -, -, rfl⟩ := (drawBounded_eq_ok hn).1 h
    exact ⟨hc, k, rfl⟩
  raised h := (drawBounded_eq_raised.1 h).2.2

theorem drawRange_isDraw (p : Config) (lo hi : Int) : IsDraw (drawRange p lo hi) where
  ok h := by
    obtain ⟨-, hc, k, -, -, rfl⟩ := drawRange_eq_ok.1 h
    exact ⟨hc, k, rfl⟩
  raised h := (drawRange_eq_raised.1 h).1

theorem drawRaw_isDraw : IsDraw drawRaw where
  ok {r} _ _ h := by
    rcases ctr_cases r with hc | hc
    · simp [drawRaw_of_max hc] at h
    · simp only [drawRaw_of_lt hc, Res.ok.injEq] at h; exact ⟨hc, 0, h.2.symm⟩
  raised {r} _ _ h := by
    rcases ctr_cases r with hc | hc
    · simp only [drawRaw_of_max hc, Res.raised.injEq] at h; exact h.2.symm
    · simp [drawRaw_of_lt hc] at h

theorem drawChance_isDraw (p : Config) (pat : BitVec 32) : IsDraw (drawChance p pat) where
  ok {r} _ _ h := by
    rcases ctr_cases r with hc | hc
    · simp [drawChance_of_max hc] at h
    · simp only [drawChance_of_lt hc, Res.ok.injEq] at h; exact ⟨hc, 0, h.2.symm⟩
  raised {r} _ _ h := by
    rcases ctr_cases r with hc | hc
    · simp only [drawChance_of_max hc, Res.raised.injEq] at h; exact h.2.symm
    · simp [drawChance_of_lt hc] at h

/-! ### Replay -/

/-- A replay of `n` draws answers with the counter raised by `n`. -/
theorem replay_ctr {p : Config} {n : Nat} {r r' : Row} (h : replay p n r = .ok () r') :
    r'.ctr.toNat = r.ctr.toNat + n := by
  induction n generalizing r with
  | zero => simp [replay] at h; simp [h]
  | succ n ih =>
    simp only [replay, Res.bind_eq_ok] at h
    obtain ⟨v, r1, h1, h2⟩ := h
    obtain ⟨hc, k, rfl⟩ := (drawRange_isDraw p 0 999).ok h1
    rw [ih h2, drawn_ctr, ctr_succ hc]
    omega

/-- A replay that stays within the counter does not fail: "Counter-restore is total" (41_draws R127). -/
theorem replay_ne_raised {p : Config} {n : Nat} {r r' : Row} {e : Err}
    (hn : r.ctr.toNat + n ≤ 2 ^ 32 - 1) : replay p n r ≠ .raised e r' := by
  induction n generalizing r with
  | zero => simp [replay]
  | succ n ih =>
    intro h
    simp only [replay, Res.bind_eq_raised] at h
    rcases h with h | ⟨v, r1, h1, h2⟩
    · rcases (drawRange_eq_raised.1 h).2 with ⟨h, -⟩ | ⟨-, h, -⟩ <;> omega
    · obtain ⟨hc, k, rfl⟩ := (drawRange_isDraw p 0 999).ok h1
      refine ih ?_ h2
      rw [drawn_ctr, ctr_succ hc]
      omega

/-- A replay one draw longer is a replay and then one draw. -/
theorem replay_succ' (p : Config) (n : Nat) (r : Row) :
    replay p (n + 1) r =
      (replay p n r).bind fun _ r => (drawRange p 0 999 r).bind fun _ r => .ok () r := by
  induction n generalizing r with
  | zero => simp [replay]
  | succ n ih =>
    rw [replay]
    cases h : drawRange p 0 999 r with
    | ok v r1 => rw [Res.bind_ok_left, ih r1, replay, h, Res.bind_ok_left]
    | raised e r1 => simp [replay, h]
    | stuck => simp [replay, h]

theorem plainly_zero (r : Row) : r.plainly 0 = r := by simp [Row.plainly]

theorem plainly_ctr (r : Row) (n : Nat) : (r.plainly n).ctr = r.ctr + BitVec.ofNat 32 n := rfl

theorem bitsAt_plainly (p : Config) (r : Row) (n k : Nat) :
    (r.plainly n).bitsAt p k = r.bitsAt p (n + k) := by
  simp [Row.plainly, bitsAt_advance]

theorem plainly_succ (r : Row) (n : Nat) : r.plainly (n + 1) = (r.drawn 0).plainly n := by
  simp only [Row.plainly, Row.drawn, advance_withCtr, Row.mk.injEq]
  rw [advance_add, Nat.zero_add, Nat.add_comm 1 n]
  refine ⟨rfl, rfl, ?_⟩
  rw [Nat.add_comm n 1, BitVec.ofNat_add, BitVec.add_assoc]
  rfl

/-- A replay whose raw draws are each accepted at once. -/
theorem replay_of_plain {p : Config} {n : Nat} {r : Row} (hn : r.ctr.toNat + n ≤ 2 ^ 32 - 1)
    (h : r.replaysPlainly p n) : replay p n r = .ok () (r.plainly n) := by
  induction n generalizing r with
  | zero => simp [replay, plainly_zero]
  | succ n ih =>
    have hc : r.ctr.toNat < 2 ^ 32 - 1 := by omega
    have h0 : r.redraws p ((999 : Int) - 0 + 1).toNat 0 := redraws_zero (h 0 (Nat.succ_pos _))
    rw [replay, drawRange_of_redraws (by omega) hc h0, Res.bind_ok_left, ih, ← plainly_succ]
    · rw [drawn_ctr, ctr_succ hc]; omega
    · intro j hj
      have := h (j + 1) (by omega)
      simpa [Row.drawn, bitsAt_advance, Nat.add_comm] using this

@[simp] theorem seeded_ctr (p : Config) (w : Word) : (Row.seeded p w).ctr = 0 := rfl

theorem construct_zero (p : Config) (w : Word) (r : Row) :
    construct p w 0 r = .ok () (Row.seeded p w) := rfl

theorem construct_ne_raised {p : Config} {w : Word} {n : Nat} {r r' : Row} {e : Err}
    (hn : n ≤ 2 ^ 32 - 1) : construct p w n r ≠ .raised e r' :=
  replay_ne_raised (by simpa using hn)

theorem construct_ctr {p : Config} {w : Word} {n : Nat} {r r' : Row}
    (h : construct p w n r = .ok () r') : r'.ctr.toNat = n := by
  simpa using replay_ctr h

theorem construct_of_plain {p : Config} {w : Word} {n : Nat} {r : Row} (hn : n ≤ 2 ^ 32 - 1)
    (h : (Row.seeded p w).replaysPlainly p n) :
    construct p w n r = .ok () ((Row.seeded p w).plainly n) :=
  replay_of_plain (by simpa using hn) h

end Sys2Proof.Machine
end

