-- ==== Sys2Proof/Laws/Frame.lean ====
section
/-! SUPPORT. What each update of the state changes at the host port. -/

namespace Sys2Proof.Machine

theorem ChangesOnly.refl {locs : Loc → Prop} (s : State) : ChangesOnly locs s s :=
  ⟨fun _ _ => rfl, rfl, rfl, rfl, rfl, rfl⟩

theorem ChangesOnly.mono {locs locs' : Loc → Prop} {s t : State} (h : ChangesOnly locs s t)
    (hl : ∀ l, locs l → locs' l) : ChangesOnly locs' s t :=
  ⟨fun a ha => h.port a fun h' => ha (hl _ h'), h.shadow, h.params, h.moves, h.readData, h.resets⟩

theorem ChangesOnly.trans {locs : Loc → Prop} {s t u : State} (h : ChangesOnly locs s t)
    (h' : ChangesOnly locs t u) : ChangesOnly locs s u :=
  ⟨fun a ha => (h'.port a ha).trans (h.port a ha), h'.shadow.trans h.shadow, h'.params.trans h.params,
    h'.moves.trans h.moves, h'.readData.trans h.readData, h'.resets.trans h.resets⟩

/-- To change only some locations it is enough that every other location reads as before. -/
theorem ChangesOnly.of_readLoc {locs : Loc → Prop} {s t : State}
    (h : ∀ l, ¬ locs l → t.readLoc l = s.readLoc l) (h1 : t.block.shadow = s.block.shadow)
    (h2 : t.params = s.params) (h3 : t.moves = s.moves) (h4 : t.readData = s.readData)
    (h5 : t.resets = s.resets) : ChangesOnly locs s t :=
  ⟨fun a ha => h (locOf a) ha, h1, h2, h3, h4, h5⟩

theorem setStatus_changesOnly (s : State) (u : Status) : ChangesOnly (· = .status) s (s.setStatus u) :=
  .of_readLoc (fun l h => by cases l <;> simp_all [State.readLoc]) (by simp) (by simp) (by simp) (by simp)
    (by simp)

theorem complete_changesOnly (s : State) : ChangesOnly (· = .status) s s.complete :=
  setStatus_changesOnly s _

theorem raise_changesOnly (s : State) (e : Err) : ChangesOnly (· = .status) s (s.raise e) := by
  unfold State.raise
  split <;> exact setStatus_changesOnly s _

theorem setRow_changesOnly (s : State) (i : StreamId) (r : Row) :
    ChangesOnly (rowLocs i) s (s.setRow i r) := by
  refine .of_readLoc (fun l h => ?_) (by simp) (by simp) (by simp) (by simp) (by simp)
  unfold rowLocs at h
  cases l <;> simp_all [State.readLoc]
  all_goals rw [setRow_row_ne s r h]

theorem setRes0_changesOnly (s : State) (v : Word) : ChangesOnly (· = .res0) s (s.setRes0 v) :=
  .of_readLoc (fun l h => by cases l <;> simp_all [State.readLoc]) (by simp) (by simp) (by simp) (by simp)
    (by simp)

theorem setRes1_changesOnly (s : State) (v : Word) : ChangesOnly (· = .res1) s (s.setRes1 v) :=
  .of_readLoc (fun l h => by cases l <;> simp_all [State.readLoc]) (by simp) (by simp) (by simp) (by simp)
    (by simp)

theorem setPityOffset_changesOnly (s : State) (v : BitVec 16) :
    ChangesOnly (· = .pityOffset) s (s.setPityOffset v) :=
  .of_readLoc (fun l h => by cases l <;> simp_all [State.readLoc]) (by simp) (by simp) (by simp) (by simp)
    (by simp)

theorem setSnap_changesOnly (s : State) (v : Vector (BitVec 32) 13) :
    ChangesOnly (fun l => ∃ j, l = .snap j) s (s.setSnap v) :=
  .of_readLoc (fun l h => by cases l <;> simp_all [State.readLoc]) (by simp) (by simp) (by simp) (by simp)
    (by simp)

theorem setRewards_changesOnly (s : State) (v : Vector RewardSlot 16) :
    ChangesOnly (fun l => ∃ k, l = .reward k) s (s.setRewards v) :=
  .of_readLoc (fun l h => by cases l <;> simp_all [State.readLoc]) (by simp) (by simp) (by simp) (by simp)
    (by simp)

theorem setFloor_changesOnly (s : State) (f : BitVec 32) : ChangesOnly (· = .floor) s (s.setFloor f) :=
  .of_readLoc (fun l h => by cases l <;> simp_all [State.readLoc]) (by simp) (by simp) (by simp) (by simp)
    (by simp)

theorem setAct_changesOnly (s : State) (a : BitVec 8) : ChangesOnly (· = .act) s (s.setAct a) :=
  .of_readLoc (fun l h => by cases l <;> simp_all [State.readLoc]) (by simp) (by simp) (by simp) (by simp)
    (by simp)

theorem setManagerRegs_changesOnly (s : State) (w : Word) (f : BitVec 32) (a : BitVec 8) :
    ChangesOnly managerLoc s (s.setManagerRegs w f a) :=
  .of_readLoc (fun l h => by unfold managerLoc at h; cases l <;> simp_all [State.readLoc]) (by simp)
    (by simp) (by simp) (by simp) (by simp)

theorem setMgr_changesOnly (s : State) (m : Manager) : ChangesOnly managerLoc s (s.setMgr m) := by
  refine .of_readLoc (fun l h => ?_) (by simp) (by simp) (by simp) (by simp) (by simp)
  unfold managerLoc anyRowLoc rowLocs at h
  cases l <;> simp_all [State.readLoc]

theorem setItem_changesOnly (s : State) (k : Nat) (v : Word) :
    ChangesOnly (fun l => ∃ j : Fin 1024, l = .item j ∧ j.val = k) s (s.setItem k v) := by
  refine .of_readLoc (fun l h => ?_) (by simp) (by simp) (by simp) (by simp) (by simp)
  cases l <;> simp_all [State.readLoc]
  exact setItem_item_ne s v h

/-- A row's pseudocode changes at most the three locations of its row. -/
theorem onRow_changesOnly {α : Type} {i : StreamId} {f : Row → Res Row α} {s t : State}
    (h : (onRow i f s).leaves t) : ChangesOnly (rowLocs i) s t := by
  obtain ⟨r, rfl, -⟩ := onRow_leaves h
  exact setRow_changesOnly s i r

/-- The rule's frame is the command's, with `STATUS` added, for a command behind the stream check. -/
theorem runStream_changesOnly {sid : BitVec 4} {rule : StreamId → State → Res State Unit} {s t : State}
    {locs : Loc → Prop} (h : runStream sid rule s = .next t) (hs : ∀ l, l = .status → locs l)
    (hr : ∀ i u, streamId? sid = some i → (rule i s).leaves u → ChangesOnly locs s u) :
    ChangesOnly locs s t := by
  rcases runStream_next h with ⟨-, rfl⟩ | ⟨-, rfl⟩ | ⟨i, hi, -, ⟨u, hu, rfl⟩ | ⟨e, u, hu, rfl⟩⟩
  · exact (raise_changesOnly s _).mono hs
  · exact (raise_changesOnly s _).mono hs
  · exact (hr i u hi (.inl ⟨(), hu⟩)).trans ((complete_changesOnly u).mono hs)
  · exact (hr i u hi (.inr ⟨e, hu⟩)).trans ((raise_changesOnly u e).mono hs)

theorem finish_changesOnly {x : Res State Unit} {s t : State} {locs : Loc → Prop}
    (h : finish x = .next t) (hs : ∀ l, l = .status → locs l)
    (hr : ∀ u, x.leaves u → ChangesOnly locs s u) : ChangesOnly locs s t := by
  rcases finish_eq_next.1 h with ⟨u, hu, rfl⟩ | ⟨e, u, hu, rfl⟩
  · exact (hr u (.inl ⟨(), hu⟩)).trans ((complete_changesOnly u).mono hs)
  · exact (hr u (.inr ⟨e, hu⟩)).trans ((raise_changesOnly u e).mono hs)

theorem runInit_changesOnly {rule : State → Res State Unit} {s t : State} {locs : Loc → Prop}
    (h : runInit rule s = .next t) (hs : ∀ l, l = .status → locs l)
    (hr : ∀ u, (rule s).leaves u → ChangesOnly locs s u) : ChangesOnly locs s t := by
  cases hi : s.block.status.init with
  | false => rw [runInit_of_not_init hi] at h; cases h; exact (raise_changesOnly s _).mono hs
  | true => rw [runInit_of_init hi] at h; exact finish_changesOnly h hs hr

end Sys2Proof.Machine
end

