-- ==== Sys2Proof/Laws/Manager.lean ====
section
/-! SUPPORT. What the construction of many rows can do (Machine/Manager.lean). -/

namespace Sys2Proof.Machine

/-- From `s` to `t` no field but the stream file changed, and in it no row but those of `is`. -/
structure RowsOnly (is : StreamId → Prop) (s t : State) : Prop where
  rest : { t with block := { t.block with mgr := { t.block.mgr with rows := s.block.mgr.rows } } } = s
  rows : ∀ j, ¬ is j → t.row j = s.row j

theorem RowsOnly.refl (is : StreamId → Prop) (s : State) : RowsOnly is s s := ⟨rfl, fun _ _ => rfl⟩

theorem RowsOnly.trans {is : StreamId → Prop} {s t u : State} (h : RowsOnly is s t)
    (h' : RowsOnly is t u) : RowsOnly is s u := by
  refine ⟨?_, fun j hj => (h'.rows j hj).trans (h.rows j hj)⟩
  have h1 := h.rest
  rw [← h'.rest] at h1
  exact h1

theorem RowsOnly.mono {is js : StreamId → Prop} {s t : State} (h : RowsOnly is s t)
    (hj : ∀ j, is j → js j) : RowsOnly js s t := ⟨h.rest, fun j h' => h.rows j fun h'' => h' (hj j h'')⟩

theorem setRow_rowsOnly (s : State) (i : StreamId) (r : Row) : RowsOnly (· = i) s (s.setRow i r) :=
  ⟨rfl, fun _ h => setRow_row_ne s r h⟩

/-- Everything but the rows is as it was. -/
theorem RowsOnly.fields {is : StreamId → Prop} {s t : State} (h : RowsOnly is s t) :
    t.params = s.params ∧ t.moves = s.moves ∧ t.readData = s.readData ∧ t.resets = s.resets ∧
    t.block.cmd = s.block.cmd ∧ t.block.status = s.block.status ∧ t.block.opa = s.block.opa ∧
    t.block.opb = s.block.opb ∧ t.block.res0 = s.block.res0 ∧ t.block.res1 = s.block.res1 ∧
    t.block.mgr.baseSeed = s.block.mgr.baseSeed ∧ t.block.mgr.floor = s.block.mgr.floor ∧
    t.block.mgr.act = s.block.mgr.act ∧ t.block.shadow = s.block.shadow ∧ t.block.cfg = s.block.cfg ∧
    t.block.pityOffset = s.block.pityOffset ∧ t.block.snap = s.block.snap ∧
    t.block.reward = s.block.reward ∧ t.block.items = s.block.items := by
  have h := h.rest
  rw [← h]
  simp

theorem RowsOnly.changesOnly {is : StreamId → Prop} {s t : State} (h : RowsOnly is s t) :
    ChangesOnly (fun l => ∃ j, is j ∧ rowLocs j l) s t := by
  obtain ⟨h1, h2, h3, h4, h5, h6, h7, h8, h9, h10, h11, h12, h13, h14, h15, h16, h17, h18, h19⟩ := h.fields
  refine .of_readLoc (fun l hl => ?_) h14 h1 h2 h3 h4
  unfold rowLocs at hl
  cases l with
  | s0 i => simp only [State.readLoc]; rw [h.rows]; exact fun hi => hl ⟨i, hi, .inl rfl⟩
  | s1 i => simp only [State.readLoc]; rw [h.rows]; exact fun hi => hl ⟨i, hi, .inr (.inl rfl)⟩
  | ctr i => simp only [State.readLoc]; rw [h.rows]; exact fun hi => hl ⟨i, hi, .inr (.inr rfl)⟩
  | _ => simp_all [State.readLoc, State.item]

/-- Many rows constructed, one after the other: each named row is the one its construction gives, every
other row and everything else is as it was. -/
theorem constructEach_ok {seedOf : StreamId → Word} {countOf : StreamId → Nat} {is : List StreamId}
    {s t : State} (hd : is.Nodup) (h : constructEach seedOf countOf is s = .ok () t) :
    RowsOnly (· ∈ is) s t ∧
      ∀ i, i ∈ is → replay s.params (countOf i) (Row.seeded s.params (seedOf i)) = .ok () (t.row i) := by
  induction is generalizing s with
  | nil => simp only [constructEach, Res.ok.injEq, true_and] at h; subst h; exact ⟨.refl _ _, by simp⟩
  | cons i is ih =>
    simp only [constructEach, Res.bind_eq_ok] at h
    obtain ⟨_, u, h1, h2⟩ := h
    obtain ⟨r, hr, rfl⟩ := onRow_eq_ok.1 h1
    obtain ⟨hi, hd⟩ := List.nodup_cons.1 hd
    obtain ⟨hrest, hrows⟩ := ih hd h2
    refine ⟨((setRow_rowsOnly s i r).mono (by simp)).trans (hrest.mono (by simp +contextual)), ?_⟩
    intro j hj
    rcases List.mem_cons.1 hj with rfl | hj
    · rw [hrest.rows j hi, setRow_row_same]; exact hr
    · simpa using hrows j hj

theorem constructEach_ne_raised {seedOf : StreamId → Word} {countOf : StreamId → Nat}
    {is : List StreamId} {s t : State} {e : Err} (hc : ∀ i, countOf i ≤ 2 ^ 32 - 1) :
    constructEach seedOf countOf is s ≠ .raised e t := by
  induction is generalizing s with
  | nil => simp [constructEach]
  | cons i is ih =>
    intro h
    simp only [constructEach, Res.bind_eq_raised] at h
    rcases h with h | ⟨_, u, -, h⟩
    · obtain ⟨r, hr, -⟩ := onRow_eq_raised.1 h
      exact construct_ne_raised (hc i) hr
    · exact ih h

/-- If each construction answers, all of them do. -/
theorem constructEach_total {seedOf : StreamId → Word} {countOf : StreamId → Nat} {is : List StreamId}
    {s : State}
    (h : ∀ i, i ∈ is → ∃ r, replay s.params (countOf i) (Row.seeded s.params (seedOf i)) = .ok () r) :
    ∃ t, constructEach seedOf countOf is s = .ok () t := by
  induction is generalizing s with
  | nil => exact ⟨s, rfl⟩
  | cons i is ih =>
    obtain ⟨r, hr⟩ := h i (by simp)
    obtain ⟨t, ht⟩ := ih (s := s.setRow i r) fun j hj => by simpa using h j (by simp [hj])
    refine ⟨t, ?_⟩
    simp only [constructEach]
    rw [onRow_of_ok (r := r) hr, Res.bind_ok_left]
    exact ht

theorem allStreams_nodup : allStreams.Nodup := by decide
theorem mem_allStreams (i : StreamId) : i ∈ allStreams := by revert i; decide
theorem mem_floorStreams (i : StreamId) : i ∈ floorStreams ↔ 7 ≤ i.val ∧ i.val ≤ 11 := by
  revert i; decide

@[simp] theorem counters_get (m : Manager) (i : StreamId) : m.counters[i.val] = (m.row i).ctr := by
  simp [Manager.counters]

/-- The snap table of 42_stream_manager R154. -/
theorem snapTarget_eq_some {c target : Nat} : snapTarget c = some target ↔
    (0 < c ∧ c < 250 ∧ target = 250) ∨ (250 < c ∧ c < 500 ∧ target = 500) ∨
      (500 < c ∧ c < 750 ∧ target = 750) := by
  unfold snapTarget
  split
  · simp; omega
  · split
    · simp; omega
    · split <;> simp <;> omega

theorem snapTarget_eq_none {c : Nat} : snapTarget c = none ↔ c = 0 ∨ c = 250 ∨ c = 500 ∨ 750 ≤ c := by
  unfold snapTarget
  split
  · simp; omega
  · split
    · simp; omega
    · split <;> simp <;> omega

end Sys2Proof.Machine
end

