-- ==== Sys2Proof/Laws/Port.lean ====
section
/-! SUPPORT. The address map is one to one outside its reserved words, and a host write changes its own
location only. -/

namespace Sys2Proof.Machine

/-- The address of a location that is not reserved (20_memory R61). -/
def Loc.address : Loc → Nat
  | .cmd => 0x000
  | .status => 0x001
  | .opa => 0x002
  | .opb => 0x003
  | .res0 => 0x004
  | .res1 => 0x005
  | .baseSeed => 0x008
  | .floor => 0x009
  | .act => 0x00A
  | .ctrl => 0x010
  | .rarePct => 0x011
  | .uncPct => 0x012
  | .pityStart => 0x013
  | .pityFloor => 0x014
  | .pityStep => 0x015
  | .pityOffset => 0x016
  | .upgP => 0x017
  | .poolSize r => 0x018 + r.code.toNat
  | .snap i => 0x020 + i.val
  | .s0 i => 0x040 + 4 * i.val
  | .s1 i => 0x040 + 4 * i.val + 1
  | .ctr i => 0x040 + 4 * i.val + 2
  | .reward k => 0x080 + k.val
  | .item k => 0x400 + k.val
  | .reserved => 0

theorem registerAt_address {a : Nat} (h : a < 0x020) (hr : registerAt a ≠ .reserved) :
    (registerAt a).address = a := by
  revert hr
  interval_cases a <;> decide

theorem streamAt_address {a : Nat} (h : 0x040 ≤ a) (hr : streamAt a ≠ .reserved) :
    (streamAt a).address = a := by
  unfold streamAt at hr ⊢
  split
  · rename_i hlt
    rw [dif_pos hlt] at hr
    split at hr <;> simp_all [Loc.address] <;> omega
  · rename_i hlt
    rw [dif_neg hlt] at hr
    exact absurd rfl hr

/-- A location that is not reserved has one address. -/
theorem locOf_address {a : Addr} (hr : locOf a ≠ .reserved) : (locOf a).address = a.toNat := by
  have ha := a.isLt
  revert hr
  unfold locOf
  simp only
  split
  · exact registerAt_address ‹_›
  split
  · unfold snapAt
    split
    · intro; simp only [Loc.address]; omega
    · exact fun h => absurd rfl h
  split
  · exact streamAt_address (by omega)
  split
  · unfold rewardAt
    split
    · intro; simp only [Loc.address]; omega
    · exact fun h => absurd rfl h
  · unfold itemAt
    split
    · intro; simp only [Loc.address]; omega
    · exact fun h => absurd rfl h

/-- Two addresses with one location are reserved. -/
theorem locOf_reserved_of_eq {a b : Addr} (hne : b ≠ a) (h : locOf b = locOf a) : locOf a = .reserved := by
  by_contra hr
  refine hne (BitVec.eq_of_toNat_eq ?_)
  rw [← locOf_address hr, ← locOf_address (by rw [h]; exact hr), h]

theorem setCfg_changesOnly {locs : Loc → Prop} (s : State) (c : RewardConfig)
    (h : ∀ l, ¬ locs l → (s.setCfg c).readLoc l = s.readLoc l) : ChangesOnly locs s (s.setCfg c) :=
  .of_readLoc h rfl rfl rfl rfl rfl

/-- A host write changes its own location only (20_memory R65). -/
theorem writeLoc_changesOnly (s : State) (v : Word) (l : Loc) : ChangesOnly (· = l) s (s.writeLoc v l) := by
  cases l with
  | opa => exact .of_readLoc (fun l h => by cases l <;> first | rfl | exact absurd rfl h) rfl rfl rfl rfl rfl
  | opb => exact .of_readLoc (fun l h => by cases l <;> first | rfl | exact absurd rfl h) rfl rfl rfl rfl rfl
  | poolSize r =>
    refine setCfg_changesOnly s _ fun l h => ?_
    cases l with
    | poolSize r' => cases r <;> cases r' <;> first | rfl | exact absurd rfl h
    | _ => cases r <;> rfl
  | pityOffset => exact setPityOffset_changesOnly s _
  | snap i =>
    refine .of_readLoc (fun l h => ?_) rfl rfl rfl rfl rfl
    cases l with
    | snap j =>
      have hij : i.val ≠ j.val := fun e => h (by rw [Fin.ext e])
      simp [State.writeLoc, State.readLoc, hij]
    | _ => rfl
  | item k =>
    refine (setItem_changesOnly s k.val v).mono ?_
    rintro l ⟨j, rfl, hj⟩
    rw [Fin.ext hj]
  | ctrl | rarePct | uncPct | pityStart | pityFloor | pityStep | upgP =>
    exact setCfg_changesOnly s _ fun l h => by cases l <;> first | rfl | exact absurd rfl h
  | cmd | status | res0 | res1 | baseSeed | floor | act | s0 | s1 | ctr | reward | reserved => exact .refl s

/-- A host write to a location other than `CMD` changes what is read at its address only. -/
theorem hostWrite_port_ne (s : State) {a b : Addr} (v : Word) (h : b ≠ a) :
    (hostWrite a v s).port b = s.port b := by
  by_cases hl : locOf b = locOf a
  · unfold hostWrite
    rw [locOf_reserved_of_eq h hl]
    rfl
  · exact (writeLoc_changesOnly s v (locOf a)).port b hl

end Sys2Proof.Machine
end

