-- ==== Sys2Proof/Laws/Shuffle.lean ====
section
/-! SUPPORT. What the shuffle engine can do (Machine/Shuffle.lean). -/

namespace Sys2Proof.Machine

/-- A swap exchanges two entries and leaves the others. -/
theorem swapItems_item (s : State) (k j m : Nat) :
    (s.swapItems k j).item m = s.item (Equiv.swap k j m) := by
  unfold State.swapItems
  by_cases hj : m = j
  · subst hj; simp
  · rw [setItem_item_ne _ _ hj]
    by_cases hk : m = k
    · subst hk; simp
    · rw [setItem_item_ne _ _ hk, Equiv.swap_apply_of_ne_of_ne hk hj]

@[simp] theorem swapItems_row (s : State) (k j : Nat) (i : StreamId) :
    (s.swapItems k j).row i = s.row i := rfl
@[simp] theorem swapItems_params (s : State) (k j : Nat) : (s.swapItems k j).params = s.params := rfl
@[simp] theorem swapItems_cfg (s : State) (k j : Nat) : (s.swapItems k j).block.cfg = s.block.cfg := rfl
@[simp] theorem swapItems_status (s : State) (k j : Nat) :
    (s.swapItems k j).block.status = s.block.status := rfl

theorem swapItems_wf {s : State} {k j : Nat} (h : s.block.items.wf = true) (hk : k < itemDepth)
    (hj : j < itemDepth) : (s.swapItems k j).block.items.wf = true := by
  unfold State.swapItems
  simp only [setItem_items]
  exact Memory.wf_write (Memory.wf_write h hk) hj

theorem swapItems_changesOnly (s : State) {k j : Nat} {n : Nat} (hk : k < n) (hj : j < n) :
    ChangesOnly (fun l => ∃ m : Fin 1024, l = .item m ∧ m.val < n) s (s.swapItems k j) := by
  unfold State.swapItems
  refine ((setItem_changesOnly s k _).mono ?_).trans ((setItem_changesOnly _ j _).mono ?_)
  · rintro l ⟨m, rfl, rfl⟩; exact ⟨m, rfl, hk⟩
  · rintro l ⟨m, rfl, rfl⟩; exact ⟨m, rfl, hj⟩

/-- One draw of a shuffle: the index lies in `[0, k]`, the bound included (43_shuffle R182). -/
theorem shuffleFrom_succ_ok {i : StreamId} {n : Nat} {s t : State} (h : shuffleFrom i (n + 1) s = .ok () t) :
    ∃ k, (s.row i).ctr.toNat < 2 ^ 32 - 1 ∧ (s.row i).redraws s.params (n + 2) k ∧
      shuffleFrom i n ((s.setRow i ((s.row i).drawn k)).swapItems (n + 1)
        ((s.row i).bitsAt s.params k % (n + 2))) = .ok () t := by
  simp only [shuffleFrom, Res.bind_eq_ok] at h
  obtain ⟨v, u, h1, h2⟩ := h
  obtain ⟨r, hr, rfl⟩ := onRow_eq_ok.1 h1
  obtain ⟨-, hc, k, hk, rfl, rfl⟩ := drawRange_eq_ok.1 hr
  have e : (((n + 1 : Nat) : Int) - 0 + 1).toNat = n + 2 := by omega
  rw [e] at hk h2
  rw [Int.zero_add, Int.toNat_natCast] at h2
  exact ⟨k, hc, hk, h2⟩

/-- The counter of a shuffle that completes (43_shuffle R181). -/
theorem shuffleFrom_ctr {i : StreamId} {n : Nat} {s t : State} (h : shuffleFrom i n s = .ok () t) :
    (t.row i).ctr.toNat = (s.row i).ctr.toNat + n := by
  induction n generalizing s with
  | zero => simp only [shuffleFrom, Res.ok.injEq, true_and] at h; simp [h]
  | succ n ih =>
    obtain ⟨k, hc, -, h⟩ := shuffleFrom_succ_ok h
    rw [ih h]
    simp only [swapItems_row, setRow_row_same, drawn_ctr, ctr_succ hc]
    omega

/-- A shuffle with room in its counter does not fail (43_shuffle R180: "a `SHUFFLE` that starts always
completes"). -/
theorem shuffleFrom_ne_raised {i : StreamId} {n : Nat} {s t : State} {e : Err}
    (hn : (s.row i).ctr.toNat + n ≤ 2 ^ 32 - 1) : shuffleFrom i n s ≠ .raised e t := by
  induction n generalizing s with
  | zero => simp [shuffleFrom]
  | succ n ih =>
    intro h
    simp only [shuffleFrom, Res.bind_eq_raised] at h
    rcases h with h | ⟨v, u, h1, h2⟩
    · obtain ⟨r, hr, -⟩ := onRow_eq_raised.1 h
      rcases (drawRange_eq_raised.1 hr).2 with ⟨h, -⟩ | ⟨-, h, -⟩ <;> omega
    · obtain ⟨r, hr, rfl⟩ := onRow_eq_ok.1 h1
      obtain ⟨hc, k, rfl⟩ := (drawRange_isDraw s.params 0 _).ok hr
      refine ih ?_ h2
      simp only [swapItems_row, setRow_row_same, drawn_ctr, ctr_succ hc]
      omega

end Sys2Proof.Machine
end

