-- ==== Sys2Proof/Laws/Reward.lean ====
section
/-! SUPPORT. What the roll, the index draw and the slots of Machine/Reward.lean can do. -/

namespace Sys2Proof.Machine

/-! ### The pity update -/

/-- The pity update writes `PITY_OFFSET` only (44_reward R192). -/
theorem updatePity_eq (s : State) (r : Rarity) :
    s.updatePity r = s.setPityOffset (if s.block.cfg.pityDis then s.block.pityOffset
      else nextPityOffset s.block.cfg s.block.pityOffset r) := by
  unfold State.updatePity
  split <;> simp_all [State.setPityOffset]

@[simp] theorem updatePity_row (s : State) (r : Rarity) (i : StreamId) :
    (s.updatePity r).row i = s.row i := by rw [updatePity_eq, setPityOffset_row]
@[simp] theorem updatePity_params (s : State) (r : Rarity) : (s.updatePity r).params = s.params := by
  rw [updatePity_eq, setPityOffset_params]
@[simp] theorem updatePity_cfg (s : State) (r : Rarity) : (s.updatePity r).block.cfg = s.block.cfg := by
  rw [updatePity_eq, setPityOffset_cfg]
@[simp] theorem updatePity_status (s : State) (r : Rarity) :
    (s.updatePity r).block.status = s.block.status := by rw [updatePity_eq, setPityOffset_status]
@[simp] theorem updatePity_reward (s : State) (r : Rarity) :
    (s.updatePity r).block.reward = s.block.reward := by rw [updatePity_eq, setPityOffset_reward]
@[simp] theorem updatePity_res0 (s : State) (r : Rarity) : (s.updatePity r).block.res0 = s.block.res0 := by
  rw [updatePity_eq, setPityOffset_res0]
@[simp] theorem updatePity_res1 (s : State) (r : Rarity) : (s.updatePity r).block.res1 = s.block.res1 := by
  rw [updatePity_eq, setPityOffset_res1]
@[simp] theorem updatePity_pityOffset (s : State) (r : Rarity) :
    (s.updatePity r).block.pityOffset = if s.block.cfg.pityDis then s.block.pityOffset
      else nextPityOffset s.block.cfg s.block.pityOffset r := by
  rw [updatePity_eq, setPityOffset_pityOffset]

@[simp] theorem setRow_rollOffset (s : State) (i : StreamId) (r : Row) :
    (s.setRow i r).rollOffset = s.rollOffset := rfl

theorem updatePity_eq_offsetAfter (s : State) (r : Rarity) :
    s.updatePity r = s.setPityOffset (offsetAfter s.block.cfg s.block.pityOffset r) := updatePity_eq s r

theorem rarityOf_rollOffset (s : State) (roll : Nat) :
    rarityOf s.block.cfg (roll + s.rollOffset) = rarityOfRoll s.block.cfg s.block.pityOffset roll := rfl

/-- The offset after a COMMON result fits its 16 bits (44_reward R192). -/
theorem nextPityOffset_common (c : RewardConfig) (off : BitVec 16) :
    (nextPityOffset c off .common).toInt = max (off.toInt - c.pityStep.toNat) c.pityFloor.toInt := by
  have h1 := BitVec.toInt_lt (x := off)
  have h2 := BitVec.le_toInt (x := c.pityFloor)
  have h3 := BitVec.toInt_lt (x := c.pityFloor)
  simp only [nextPityOffset, BitVec.toInt_ofInt]
  norm_num at h1 h2 h3 ⊢
  apply Int.bmod_eq_of_le <;> omega

/-! ### The roll -/

theorem rollRarity_eq_ok {i : StreamId} {s t : State} {rr : Rarity × Int} :
    rollRarity i s = .ok rr t ↔ (s.row i).ctr.toNat < 2 ^ 32 - 1 ∧
      ∃ k, (s.row i).redraws s.params 100 k ∧ rr.2 = ((s.row i).bitsAt s.params k % 100 : Nat) ∧
        rr.1 = rarityOf s.block.cfg (rr.2 + s.rollOffset) ∧
        t = (s.setRow i ((s.row i).drawn k)).updatePity rr.1 := by
  unfold rollRarity
  simp only [Res.bind_eq_ok, onRow_eq_ok, drawRange_eq_ok]
  have e : ((99 : Int) - 0 + 1).toNat = 100 := rfl
  constructor
  · rintro ⟨v, u, ⟨r, ⟨-, hc, k, hk, rfl, rfl⟩, rfl⟩, h⟩
    rw [e, Int.zero_add] at *
    cases h
    exact ⟨hc, k, hk, rfl, rfl, rfl⟩
  · rintro ⟨hc, k, hk, h2, h1, rfl⟩
    refine ⟨_, _, ⟨_, ⟨by omega, hc, k, hk, rfl, rfl⟩, rfl⟩, ?_⟩
    obtain ⟨r, v⟩ := rr
    simp only at h1 h2
    subst h2
    rw [e, Int.zero_add]
    simp [h1]

theorem rollRarity_eq_raised {i : StreamId} {s t : State} {e : Err} :
    rollRarity i s = .raised e t ↔ (s.row i).ctr.toNat = 2 ^ 32 - 1 ∧ e = .ctrOvf ∧ t = s := by
  unfold rollRarity
  simp only [Res.bind_eq_raised, onRow_eq_raised, drawRange_eq_raised]
  constructor
  · rintro (⟨r, ⟨rfl, ⟨h, -⟩ | ⟨-, hc, rfl⟩⟩, rfl⟩ | ⟨_, _, -, h⟩)
    · omega
    · exact ⟨hc, rfl, by simp⟩
    · exact absurd h (by simp)
  · rintro ⟨hc, rfl, rfl⟩
    exact .inl ⟨_, ⟨rfl, .inr ⟨by omega, hc, rfl⟩⟩, by simp⟩

/-- The roll with `k` redraws, as one state (44_reward R192). -/
theorem rollRarity_of_redraws {i : StreamId} {s : State} {k : Nat} (hc : (s.row i).ctr.toNat < 2 ^ 32 - 1)
    (hk : (s.row i).redraws s.params 100 k) :
    let roll := (s.row i).bitsAt s.params k % 100
    let r := rarityOfRoll s.block.cfg s.block.pityOffset roll
    rollRarity i s = .ok (r, (roll : Int)) ((s.setRow i ((s.row i).drawn k)).setPityOffset
      (offsetAfter s.block.cfg s.block.pityOffset r)) :=
  rollRarity_eq_ok.2 ⟨hc, k, hk, rfl, rfl, by rw [updatePity_eq_offsetAfter]; rfl⟩

/-- A roll changes its row and `PITY_OFFSET` only (44_reward R192: "State written"). -/
theorem rollRarity_changesOnly {i : StreamId} {s t : State} (h : (rollRarity i s).leaves t) :
    ChangesOnly (fun l => l = .pityOffset ∨ rowLocs i l) s t := by
  rcases h with ⟨rr, h⟩ | ⟨e, h⟩
  · obtain ⟨-, k, -, -, -, rfl⟩ := rollRarity_eq_ok.1 h
    rw [updatePity_eq]
    exact ((setRow_changesOnly s i _).mono fun l => .inr).trans
      ((setPityOffset_changesOnly _ _).mono fun l => .inl)
  · obtain ⟨-, -, rfl⟩ := rollRarity_eq_raised.1 h
    exact .refl t

/-! ### The index draw -/

theorem isDuplicate_iff {r : Rarity} {idx : BitVec 31} {slots : List RewardSlot} :
    isDuplicate r idx slots = true ↔ ∃ t ∈ slots, t.rarity = r ∧ t.index = idx := by
  simp [isDuplicate]

/-- One pass of the duplicate loop whose index draw makes `k` redraws: the index is taken, or it is a
duplicate and the loop goes on from the row after the draw (44_reward R194, R196). -/
theorem pickIndex_of_redraws {i : StreamId} {r : Rarity} {slots : List RewardSlot} {fuel k : Nat} {s : State}
    (hp : s.block.cfg.poolSize r ≠ 0) (hc : (s.row i).ctr.toNat < 2 ^ 32 - 1)
    (hk : (s.row i).redraws s.params (s.block.cfg.poolSize r) k) :
    let idx := BitVec.ofNat 31 ((s.row i).bitsAt s.params k % s.block.cfg.poolSize r)
    let t := s.setRow i ((s.row i).drawn k)
    pickIndex i r slots (fuel + 1) s =
      if isDuplicate r idx slots then pickIndex i r slots fuel t else .ok idx t := by
  have e : ((s.block.cfg.poolSize r : Int) - 1 - 0 + 1).toNat = s.block.cfg.poolSize r := by omega
  have h := drawRange_of_redraws (lo := 0) (hi := (s.block.cfg.poolSize r : Int) - 1) (by omega) hc
    (by rwa [e])
  rw [e] at h
  simp only [pickIndex, onRow_of_ok h, Res.bind_ok_left, Int.zero_add, BitVec.ofInt_natCast]

/-- An index that is drawn lies in its pool and is no duplicate (44_reward R194, R196); only the row has
changed. -/
theorem pickIndex_ok {i : StreamId} {r : Rarity} {slots : List RewardSlot} {fuel : Nat} {s t : State}
    {idx : BitVec 31} (h : pickIndex i r slots fuel s = .ok idx t) :
    idx.toNat < s.block.cfg.poolSize r ∧ isDuplicate r idx slots = false ∧ ∃ row, t = s.setRow i row := by
  induction fuel generalizing s with
  | zero => simp [pickIndex] at h
  | succ fuel ih =>
    simp only [pickIndex, Res.bind_eq_ok] at h
    obtain ⟨v, u, h1, h2⟩ := h
    obtain ⟨r', hr, rfl⟩ := onRow_eq_ok.1 h1
    split at h2
    · obtain ⟨h3, h4, row, rfl⟩ := ih h2
      exact ⟨h3, h4, row, by simp⟩
    · rename_i hd
      simp only [Res.ok.injEq] at h2
      obtain ⟨rfl, rfl⟩ := h2
      refine ⟨?_, by simpa using hd, r', rfl⟩
      have hm := drawRange_mem hr
      have hp : s.block.cfg.poolSize r < 2 ^ 31 := (s.block.cfg.poolReg r).isLt
      rw [BitVec.toNat_ofInt]
      omega

/-- A failing index draw leaves a changed row at most, and fails on the counter or on an empty pool. -/
theorem pickIndex_raised {i : StreamId} {r : Rarity} {slots : List RewardSlot} {fuel : Nat} {s t : State}
    {e : Err} (h : pickIndex i r slots fuel s = .raised e t) :
    (∃ row, t = s.setRow i row) ∧ (e = .ctrOvf ∨ e = .badArg) := by
  induction fuel generalizing s with
  | zero => simp [pickIndex] at h
  | succ fuel ih =>
    simp only [pickIndex, Res.bind_eq_raised] at h
    rcases h with h | ⟨v, u, h1, h2⟩
    · obtain ⟨r', hr, rfl⟩ := onRow_eq_raised.1 h
      rcases (drawRange_eq_raised.1 hr).2 with ⟨-, rfl⟩ | ⟨-, -, rfl⟩
      · exact ⟨⟨r', rfl⟩, .inr rfl⟩
      · exact ⟨⟨r', rfl⟩, .inl rfl⟩
    · obtain ⟨r', hr, rfl⟩ := onRow_eq_ok.1 h1
      split at h2
      · obtain ⟨⟨row, rfl⟩, he⟩ := ih h2
        exact ⟨⟨row, by simp⟩, he⟩
      · simp at h2

theorem pickIndex_changesOnly {i : StreamId} {r : Rarity} {slots : List RewardSlot} {fuel : Nat}
    {s t : State} (h : (pickIndex i r slots fuel s).leaves t) : ChangesOnly (rowLocs i) s t := by
  rcases h with ⟨idx, h⟩ | ⟨e, h⟩
  · obtain ⟨-, -, row, rfl⟩ := pickIndex_ok h
    exact setRow_changesOnly s i row
  · obtain ⟨⟨row, rfl⟩, -⟩ := pickIndex_raised h
    exact setRow_changesOnly s i row

/-- The duplicate loop does not run out of its fuel (log 10): every pass counts a draw, and the counter ends
it. If it never answers, it is because one of its bounded draws never does. -/
theorem pickIndex_stuck {i : StreamId} {r : Rarity} {slots : List RewardSlot} {fuel : Nat} {s : State}
    (hf : 2 ^ 32 ≤ fuel + (s.row i).ctr.toNat) (h : pickIndex i r slots fuel s = .stuck) :
    ∃ row : Row, bounded s.params (s.block.cfg.poolSize r) row = .stuck := by
  induction fuel generalizing s with
  | zero => have := (s.row i).ctr.isLt; omega
  | succ fuel ih =>
    simp only [pickIndex, Res.bind_eq_stuck] at h
    rcases h with h | ⟨v, u, h1, h2⟩
    · obtain ⟨-, -, h⟩ := drawRange_eq_stuck.1 (onRow_eq_stuck.1 h)
      have e : ((s.block.cfg.poolSize r : Int) - 1 - 0 + 1).toNat = s.block.cfg.poolSize r := by omega
      rw [e] at h
      exact ⟨_, h⟩
    · obtain ⟨r', hr, rfl⟩ := onRow_eq_ok.1 h1
      obtain ⟨hc, k, rfl⟩ := (drawRange_isDraw s.params 0 _).ok hr
      split at h2
      · have h3 := ih (s := s.setRow i ((s.row i).drawn k))
          (by rw [setRow_row_same, drawn_ctr, ctr_succ hc]; omega) h2
        simpa using h3
      · simp at h2

theorem pickIndex_duplicateFuel {i : StreamId} {r : Rarity} {slots : List RewardSlot} {s : State}
    (h : pickIndex i r slots Config.duplicateFuel s = .stuck) :
    ∃ row : Row, bounded s.params (s.block.cfg.poolSize r) row = .stuck :=
  pickIndex_stuck (by unfold Config.duplicateFuel; omega) h

/-! ### The slots -/

theorem upgradeInSlot_changesOnly {i : StreamId} {s t : State} (h : (upgradeInSlot i s).leaves t) :
    ChangesOnly (rowLocs i) s t := by
  unfold upgradeInSlot at h
  split at h
  · exact onRow_changesOnly h
  · simp only [Res.leaves_ok] at h; subst h; exact .refl _

theorem setReward_changesOnly (s : State) (k : Nat) (v : RewardSlot) :
    ChangesOnly (fun l => ∃ k, l = .reward k) s (s.setReward k v) := setRewards_changesOnly s _

/-- The locations a batch writes (44_reward R194: "State written"), besides `RES0`. -/
def batchLocs (i : StreamId) (l : Loc) : Prop := l = .pityOffset ∨ (∃ k, l = .reward k) ∨ rowLocs i l

theorem genSlot_changesOnly {i : StreamId} {k : Nat} {s t : State} (h : (genSlot i k s).leaves t) :
    ChangesOnly (batchLocs i) s t := by
  unfold genSlot at h
  rcases Res.leaves_bind h with ⟨e, h⟩ | ⟨rr, u, h1, h⟩
  · exact (rollRarity_changesOnly (.inr ⟨e, h⟩)).mono fun l hl => by unfold batchLocs; tauto
  refine ((rollRarity_changesOnly (.inl ⟨rr, h1⟩)).mono (locs' := batchLocs i)
    fun l hl => by unfold batchLocs; tauto).trans ?_
  split at h
  · simp only [Res.leaves_raised] at h; subst h; exact .refl _
  split at h
  · simp only [Res.leaves_raised] at h; subst h; exact .refl _
  rcases Res.leaves_bind h with ⟨e, h⟩ | ⟨idx, v, h2, h⟩
  · exact (pickIndex_changesOnly (.inr ⟨e, h⟩)).mono fun l hl => by unfold batchLocs; tauto
  refine ((pickIndex_changesOnly (.inl ⟨idx, h2⟩)).mono (locs' := batchLocs i)
    fun l hl => by unfold batchLocs; tauto).trans ?_
  rcases Res.leaves_bind h with ⟨e, h⟩ | ⟨b, w, h3, h⟩
  · exact (upgradeInSlot_changesOnly (.inr ⟨e, h⟩)).mono fun l hl => by unfold batchLocs; tauto
  refine ((upgradeInSlot_changesOnly (.inl ⟨b, h3⟩)).mono (locs' := batchLocs i)
    fun l hl => by unfold batchLocs; tauto).trans ?_
  simp only [Res.leaves_ok] at h
  subst h
  exact (setReward_changesOnly w k _).mono fun l hl => by unfold batchLocs; tauto

theorem genSlots_changesOnly {i : StreamId} {n k : Nat} {s t : State} (h : (genSlots i n k s).leaves t) :
    ChangesOnly (batchLocs i) s t := by
  induction n generalizing k s with
  | zero => simp only [genSlots, Res.leaves_ok] at h; subst h; exact .refl _
  | succ n ih =>
    rcases Res.leaves_bind h with ⟨e, h⟩ | ⟨_, u, h1, h⟩
    · exact genSlot_changesOnly (.inr ⟨e, h⟩)
    · exact (genSlot_changesOnly (.inl ⟨_, h1⟩)).trans (ih h)

theorem upgradeSlots_changesOnly {i : StreamId} {n k : Nat} {s t : State}
    (h : (upgradeSlots i n k s).leaves t) : ChangesOnly (batchLocs i) s t := by
  induction n generalizing k s with
  | zero => simp only [upgradeSlots, Res.leaves_ok] at h; subst h; exact .refl _
  | succ n ih =>
    rcases Res.leaves_bind h with ⟨e, h⟩ | ⟨b, u, h1, h⟩
    · exact (onRow_changesOnly (.inr ⟨e, h⟩)).mono fun l hl => by unfold batchLocs; tauto
    · refine ((onRow_changesOnly (.inl ⟨b, h1⟩)).mono (locs' := batchLocs i)
        fun l hl => by unfold batchLocs; tauto).trans (.trans ?_ (ih h))
      exact (setReward_changesOnly u k _).mono fun l hl => by unfold batchLocs; tauto

theorem upgradeBatch_changesOnly {i : StreamId} {n : Nat} {s t : State}
    (h : (upgradeBatch i n s).leaves t) : ChangesOnly (batchLocs i) s t := by
  unfold upgradeBatch at h
  split at h
  · exact upgradeSlots_changesOnly h
  · simp only [Res.leaves_ok] at h; subst h; exact .refl _

/-- One slot filled: the roll, then an index in the rarity's pool that is no duplicate, then the slot is
written and no other. -/
theorem genSlot_ok {i : StreamId} {k : Nat} {s t : State} (h : genSlot i k s = .ok () t) :
    ∃ r idx upg, idx.toNat < s.block.cfg.poolSize r ∧ isDuplicate r idx (s.earlier k) = false ∧
      t.block.reward = s.block.reward.setIfInBounds k ⟨idx, r, upg, true⟩ ∧
      t.block.cfg = s.block.cfg := by
  unfold genSlot at h
  simp only [Res.bind_eq_ok] at h
  obtain ⟨rr, u, h1, h⟩ := h
  obtain ⟨-, m, -, -, -, rfl⟩ := rollRarity_eq_ok.1 h1
  split at h
  · simp at h
  split at h
  · simp at h
  simp only [Res.bind_eq_ok] at h
  obtain ⟨idx, v, h2, upg, w, h3, h⟩ := h
  obtain ⟨hlt, hdup, row, rfl⟩ := pickIndex_ok h2
  have hw : ∃ row', w = State.setRow i row' (((s.setRow i ((s.row i).drawn m)).updatePity rr.1)) := by
    unfold upgradeInSlot at h3
    split at h3
    · obtain ⟨r', -, rfl⟩ := onRow_eq_ok.1 h3
      exact ⟨r', by simp⟩
    · simp only [Res.ok.injEq] at h3
      exact ⟨row, h3.2.symm⟩
  obtain ⟨row', rfl⟩ := hw
  simp only [Res.ok.injEq, true_and] at h
  subst h
  refine ⟨rr.1, idx, upg, by simpa using hlt, ?_, ?_, ?_⟩
  · simpa [State.earlier] using hdup
  · simp [State.setReward]
  · simp [State.setReward]

/-- One slot, from its roll and the index that its duplicate loop ends with (44_reward R194, R198). -/
theorem genSlot_of_index {i : StreamId} {k : Nat} {s t : State} {r : Rarity} {roll : Int} {idx : BitVec 31}
    {row : Row} (hr : rollRarity i s = .ok (r, roll) t)
    (ht : taken r (t.earlier k) < t.block.cfg.poolSize r)
    (hi : pickIndex i r (t.earlier k) Config.duplicateFuel t = .ok idx (t.setRow i row))
    (hc : row.ctr.toNat < 2 ^ 32 - 1) :
    genSlot i k s = .ok () ((t.setRow i (if t.block.cfg.upgMode = 1 then row.drawn 0 else row)).setReward k
      ⟨idx, r, decide (t.block.cfg.upgMode = 1) &&
        less24 (floatRaw t.params (row.rawAt 0)).toNat t.block.cfg.upgP, true⟩) := by
  unfold genSlot
  rw [hr]
  simp only [Res.bind_ok_left]
  rw [if_neg (by omega), if_neg (by omega), hi]
  simp only [Res.bind_ok_left, upgradeInSlot]
  by_cases hm : t.block.cfg.upgMode = 1
  · have hd := drawChance_of_lt (p := t.params) (pat := t.block.cfg.upgP) hc
    simp [hm, onRow, hd]
  · rw [setRow_cfg, if_neg hm, if_neg hm, decide_eq_false hm]
    rfl

/-- A slot that fails writes no `REWARD` entry. -/
theorem genSlot_raised {i : StreamId} {k : Nat} {s t : State} {e : Err} (h : genSlot i k s = .raised e t) :
    t.block.reward = s.block.reward ∧ t.block.cfg = s.block.cfg ∧
      (e = .ctrOvf ∨ e = .badArg ∨ e = .poolExhausted) := by
  unfold genSlot at h
  simp only [Res.bind_eq_raised] at h
  rcases h with h | ⟨rr, u, h1, h⟩
  · obtain ⟨-, rfl, rfl⟩ := rollRarity_eq_raised.1 h
    simp
  obtain ⟨-, m, -, -, -, rfl⟩ := rollRarity_eq_ok.1 h1
  split at h
  · cases h; simp
  split at h
  · cases h; simp
  simp only [Res.bind_eq_raised] at h
  rcases h with h | ⟨idx, v, h2, h | ⟨upg, w, h3, h⟩⟩
  · obtain ⟨⟨row, rfl⟩, he⟩ := pickIndex_raised h
    simp; tauto
  · obtain ⟨-, -, row, rfl⟩ := pickIndex_ok h2
    unfold upgradeInSlot at h
    split at h
    · obtain ⟨r', hr, rfl⟩ := onRow_eq_raised.1 h
      rcases ctr_cases (row) with hc | hc
      · simp [drawChance_of_max hc] at hr
        simp [← hr.1]
      · simp [drawChance_of_lt hc] at hr
    · simp at h
  · simp at h

end Sys2Proof.Machine
end

