-- ==== Sys2Proof/Laws/Exec.lean ====
section
/-! SUPPORT. A command as one result, its checks included, and what each command's rule can do. -/

namespace Sys2Proof.Machine

/-! ### The checks as part of the result -/

/-- The initialisation check before a rule (30_encoding R88, R89). -/
def gateInit (rule : State → Res State Unit) (s : State) : Res State Unit :=
  if s.block.status.init then rule s else .raised .notInit s

/-- The stream check, then the initialisation check, before a rule (30_encoding R88). -/
def gateStream (sid : BitVec 4) (rule : StreamId → State → Res State Unit) (s : State) : Res State Unit :=
  match streamId? sid with
  | none => .raised .badStream s
  | some i => gateInit (rule i) s

/-- A command's pseudocode with the checks before it. -/
def ruleOf (i : Instr) (s : State) : Res State Unit :=
  match i with
  | .nop => nopRule s
  | .clrerr => clrerrRule s
  | .init => initRule s
  | .restore => restoreRule s
  | .floorAdv => gateInit floorAdvRule s
  | .actSeed => gateInit actSeedRule s
  | .actSnap => gateInit actSnapRule s
  | .snapshot => gateInit snapshotRule s
  | .checkpoint => gateInit checkpointRule s
  | .rollback => rollbackRule s
  | .pityReset => pityResetRule s
  | .streamNew sid => gateStream sid streamNewRule s
  | .drawBounded sid => gateStream sid drawBoundedRule s
  | .drawRange sid => gateStream sid drawRangeRule s
  | .drawBool sid => gateStream sid drawBoolRule s
  | .drawChance sid => gateStream sid drawChanceRule s
  | .drawFloat sid => gateStream sid drawFloatRule s
  | .drawLong sid => gateStream sid drawLongRule s
  | .shuffle sid => gateStream sid shuffleRule s
  | .rollRarity sid => gateStream sid rollRarityRule s
  | .genRewards sid => gateStream sid genRewardsRule s

theorem runInit_eq_finish (rule : State → Res State Unit) (s : State) :
    runInit rule s = finish (gateInit rule s) := by
  unfold runInit gateInit
  split <;> rfl

theorem runStream_eq_finish (sid : BitVec 4) (rule : StreamId → State → Res State Unit) (s : State) :
    runStream sid rule s = finish (gateStream sid rule s) := by
  unfold runStream gateStream
  cases streamId? sid with
  | none => rfl
  | some i => exact runInit_eq_finish _ s

/-- Every command ends as 30_encoding R88 says. -/
theorem exec_eq_finish (i : Instr) (s : State) : exec i s = finish (ruleOf i s) := by
  cases i with
  | nop | clrerr | init | restore | rollback | pityReset => rfl
  | floorAdv | actSeed | actSnap | snapshot | checkpoint => exact runInit_eq_finish _ s
  | streamNew | drawBounded | drawRange | drawBool | drawChance | drawFloat | drawLong | shuffle
  | rollRarity | genRewards => exact runStream_eq_finish _ _ s

theorem exec_eq_next {i : Instr} {s t : State} : exec i s = .next t ↔
    (∃ u, ruleOf i s = .ok () u ∧ t = u.complete) ∨ ∃ e u, ruleOf i s = .raised e u ∧ t = u.raise e := by
  rw [exec_eq_finish, finish_eq_next]

theorem gateInit_ready {rule : State → Res State Unit} {s : State} (h : s.block.status.init = true) :
    gateInit rule s = rule s := by
  simp [gateInit, h]

theorem gateInit_ok {rule : State → Res State Unit} {s u : State} :
    gateInit rule s = .ok () u ↔ s.block.status.init = true ∧ rule s = .ok () u := by
  unfold gateInit
  split <;> simp_all

theorem gateInit_raised {rule : State → Res State Unit} {s u : State} {e : Err} :
    gateInit rule s = .raised e u ↔ s.block.status.init = false ∧ e = .notInit ∧ u = s ∨
      s.block.status.init = true ∧ rule s = .raised e u := by
  unfold gateInit
  cases hi : s.block.status.init with
  | false => simp [eq_comm (a := e), eq_comm (a := u)]
  | true => simp

theorem gateStream_ready {sid : BitVec 4} {i : StreamId} {rule : StreamId → State → Res State Unit}
    {s : State} (hs : streamId? sid = some i) (h : s.block.status.init = true) :
    gateStream sid rule s = rule i s := by
  simp [gateStream, hs, gateInit_ready h]

theorem gateStream_ok {sid : BitVec 4} {rule : StreamId → State → Res State Unit} {s u : State} :
    gateStream sid rule s = .ok () u ↔
      ∃ i, streamId? sid = some i ∧ s.block.status.init = true ∧ rule i s = .ok () u := by
  unfold gateStream
  split <;> simp_all [gateInit_ok]

theorem gateStream_raised {sid : BitVec 4} {rule : StreamId → State → Res State Unit} {s u : State}
    {e : Err} : gateStream sid rule s = .raised e u ↔
      streamId? sid = none ∧ e = .badStream ∧ u = s ∨
      (∃ i, streamId? sid = some i) ∧ s.block.status.init = false ∧ e = .notInit ∧ u = s ∨
      ∃ i, streamId? sid = some i ∧ s.block.status.init = true ∧ rule i s = .raised e u := by
  unfold gateStream
  cases hs : streamId? sid with
  | none => simp [eq_comm (a := e), eq_comm (a := u)]
  | some i => simp [gateInit_raised]

/-! ### The rules of the draws -/

section
variable {α : Type} {i : StreamId} {f : Row → Res Row α} {g : α → State → State} {s t : State} {e : Err}

/-- A draw and then a pure update, when it answers. -/
theorem drawThen_ok (hf : IsDraw f) (h : ((onRow i f s).bind fun a s => .ok () (g a s)) = .ok () t) :
    (s.row i).ctr.toNat < 2 ^ 32 - 1 ∧ ∃ a k, t = g a (s.setRow i ((s.row i).drawn k)) := by
  obtain ⟨a, u, h1, h2⟩ := Res.bind_eq_ok.1 h
  obtain ⟨r, hr, rfl⟩ := onRow_eq_ok.1 h1
  obtain ⟨hc, k, rfl⟩ := hf.ok hr
  cases h2
  exact ⟨hc, a, k, rfl⟩

/-- A draw and then a pure update, when it fails: nothing has changed. -/
theorem drawThen_raised (hf : IsDraw f) (h : ((onRow i f s).bind fun a s => .ok () (g a s)) = .raised e t) :
    t = s := by
  rcases Res.bind_eq_raised.1 h with h | ⟨a, u, -, h⟩
  · obtain ⟨r, hr, rfl⟩ := onRow_eq_raised.1 h
    rw [hf.raised hr]
    simp
  · cases h

end

theorem drawBoundedRule_ok {i : StreamId} {s t : State} (h : drawBoundedRule i s = .ok () t) :
    ∃ v k, t = (s.setRow i ((s.row i).drawn k)).setRes0 v := by
  unfold drawBoundedRule at h
  split at h
  · cases h
  · obtain ⟨-, a, k, h⟩ := drawThen_ok (drawBounded_isDraw _ (by omega)) h
    exact ⟨_, k, h⟩

theorem drawBoundedRule_raised {i : StreamId} {s t : State} {e : Err}
    (h : drawBoundedRule i s = .raised e t) : t = s := by
  unfold drawBoundedRule at h
  split at h
  · cases h; rfl
  · exact drawThen_raised (drawBounded_isDraw _ (by omega)) h

theorem drawRangeRule_ok {i : StreamId} {s t : State} (h : drawRangeRule i s = .ok () t) :
    ∃ v k, t = (s.setRow i ((s.row i).drawn k)).setRes0 v := by
  obtain ⟨-, a, k, h⟩ := drawThen_ok (drawRange_isDraw _ _ _) h
  exact ⟨_, k, h⟩

theorem drawRangeRule_raised {i : StreamId} {s t : State} {e : Err}
    (h : drawRangeRule i s = .raised e t) : t = s := drawThen_raised (drawRange_isDraw _ _ _) h

theorem drawBoolRule_ok {i : StreamId} {s t : State} (h : drawBoolRule i s = .ok () t) :
    ∃ v k, t = (s.setRow i ((s.row i).drawn k)).setRes0 v := by
  obtain ⟨-, a, k, h⟩ := drawThen_ok drawRaw_isDraw h
  exact ⟨_, k, h⟩

theorem drawBoolRule_raised {i : StreamId} {s t : State} {e : Err}
    (h : drawBoolRule i s = .raised e t) : t = s := drawThen_raised drawRaw_isDraw h

theorem drawChanceRule_ok {i : StreamId} {s t : State} (h : drawChanceRule i s = .ok () t) :
    ∃ v k, t = (s.setRow i ((s.row i).drawn k)).setRes0 v := by
  obtain ⟨-, a, k, h⟩ := drawThen_ok (drawChance_isDraw _ _) h
  exact ⟨_, k, h⟩

theorem drawChanceRule_raised {i : StreamId} {s t : State} {e : Err}
    (h : drawChanceRule i s = .raised e t) : t = s := drawThen_raised (drawChance_isDraw _ _) h

theorem drawFloatRule_ok {i : StreamId} {s t : State} (h : drawFloatRule i s = .ok () t) :
    ∃ v k, t = (s.setRow i ((s.row i).drawn k)).setRes0 v := by
  obtain ⟨-, a, k, h⟩ := drawThen_ok drawRaw_isDraw h
  exact ⟨_, k, h⟩

theorem drawFloatRule_raised {i : StreamId} {s t : State} {e : Err}
    (h : drawFloatRule i s = .raised e t) : t = s := drawThen_raised drawRaw_isDraw h

theorem drawLongRule_ok {i : StreamId} {s t : State} (h : drawLongRule i s = .ok () t) :
    ∃ v k, t = (s.setRow i ((s.row i).drawn k)).setRes0 v := by
  obtain ⟨-, a, k, h⟩ := drawThen_ok drawRaw_isDraw h
  exact ⟨_, k, h⟩

theorem drawLongRule_raised {i : StreamId} {s t : State} {e : Err}
    (h : drawLongRule i s = .raised e t) : t = s := drawThen_raised drawRaw_isDraw h

theorem streamNewRule_ok {i : StreamId} {s t : State} : streamNewRule i s = .ok () t ↔
    ∃ r, replay s.params s.replayOperand (Row.seeded s.params s.seedOperand) = .ok () r ∧
      t = s.setRow i r := onRow_eq_ok

theorem streamNewRule_ne_raised {i : StreamId} {s t : State} {e : Err} :
    streamNewRule i s ≠ .raised e t := by
  intro h
  obtain ⟨r, hr, -⟩ := onRow_eq_raised.1 h
  exact construct_ne_raised (by unfold State.replayOperand; omega) hr

/-! ### The rules of the manager -/

theorem rebuild_ok {seed : Word} {floor : BitVec 32} {act : BitVec 8} {countOf : StreamId → Nat}
    {s t : State} (h : rebuild seed floor act countOf s = .ok () t) :
    ∃ u, RowsOnly (· ∈ allStreams) s u ∧ t = (u.setManagerRegs seed floor act).setInit ∧
      ∀ i, replay s.params (countOf i) (Row.seeded s.params (ruleSeed s.params seed floor act.toNat i)) =
        .ok () (t.row i) := by
  obtain ⟨_, u, h1, h2⟩ := Res.bind_eq_ok.1 h
  obtain ⟨hu, hr⟩ := constructEach_ok allStreams_nodup h1
  cases h2
  exact ⟨u, hu, rfl, fun i => hr i (mem_allStreams i)⟩

theorem rebuild_ne_raised {seed : Word} {floor : BitVec 32} {act : BitVec 8} {countOf : StreamId → Nat}
    {s t : State} {e : Err} (hc : ∀ i, countOf i ≤ 2 ^ 32 - 1) :
    rebuild seed floor act countOf s ≠ .raised e t := by
  intro h
  rcases Res.bind_eq_raised.1 h with h | ⟨_, _, _, h⟩
  · exact constructEach_ne_raised hc h
  · cases h

/-- Rows that each replay to the end make a rebuild that completes. -/
theorem rebuild_total {seed : Word} {floor : BitVec 32} {act : BitVec 8} {countOf : StreamId → Nat}
    {s : State} (h : ∀ i, ∃ r, replay s.params (countOf i)
      (Row.seeded s.params (ruleSeed s.params seed floor act.toNat i)) = .ok () r) :
    ∃ t, rebuild seed floor act countOf s = .ok () t := by
  obtain ⟨u, hu⟩ := constructEach_total (s := s) (is := allStreams) fun i _ => h i
  exact ⟨_, by unfold rebuild; rw [hu]; rfl⟩

theorem initRule_total (s : State) : ∃ t, initRule s = .ok () t :=
  rebuild_total fun _ => ⟨_, rfl⟩

theorem initRule_ne_raised {s t : State} {e : Err} : initRule s ≠ .raised e t :=
  rebuild_ne_raised fun _ => Nat.zero_le _

theorem restoreRule_raised {s t : State} {e : Err} (h : restoreRule s = .raised e t) :
    t = s ∧ e = .badArg := by
  unfold restoreRule at h
  split at h
  · cases h; exact ⟨rfl, rfl⟩
  · exact absurd h (rebuild_ne_raised fun i => by unfold State.snapOperand; omega)

theorem floorAdvRule_ok {s t : State} (h : floorAdvRule s = .ok () t) :
    ∃ u, RowsOnly (· ∈ floorStreams) s u ∧ t = u.setFloor s.floorOperand ∧
      ∀ i, i ∈ floorStreams →
        t.row i = Row.seeded s.params (s.block.mgr.baseSeed + zeroExtended s.floorOperand) := by
  obtain ⟨_, u, h1, h2⟩ := Res.bind_eq_ok.1 h
  obtain ⟨hu, hr⟩ := constructEach_ok (by decide) h1
  cases h2
  refine ⟨u, hu, rfl, fun i hi => ?_⟩
  have := hr i hi
  simp only [replay, Res.ok.injEq, true_and] at this
  simp [this]

theorem floorAdvRule_total (s : State) : ∃ t, floorAdvRule s = .ok () t := by
  obtain ⟨u, hu⟩ := constructEach_total (s := s) (is := floorStreams) (countOf := fun _ => 0)
    (seedOf := fun _ => s.block.mgr.baseSeed + zeroExtended s.floorOperand) fun _ _ => ⟨_, rfl⟩
  exact ⟨_, by unfold floorAdvRule; rw [hu]; rfl⟩

theorem floorAdvRule_ne_raised {s t : State} {e : Err} : floorAdvRule s ≠ .raised e t := by
  obtain ⟨u, hu⟩ := floorAdvRule_total s
  simp [hu]

theorem actSeedRule_of_lt {s : State} (h : s.actOperand.toNat < s.params.nActs) :
    actSeedRule s = .ok () ((s.setRow mapStream (Row.seeded s.params
      (s.block.mgr.baseSeed + actOffset s.params s.actOperand.toNat))).setAct s.actOperand) := by
  unfold actSeedRule
  rw [if_neg (by omega), onRow_of_ok (construct_zero _ _ _)]
  rfl

theorem actSeedRule_of_le {s : State} (h : s.params.nActs ≤ s.actOperand.toNat) :
    actSeedRule s = .raised .badArg s := by
  simp [actSeedRule, h]

theorem actSnapRule_ok {s t : State} (h : actSnapRule s = .ok () t) :
    t = s ∨ ∃ target r, snapTarget (s.row cardStream).ctr.toNat = some target ∧
      replay s.params (target - (s.row cardStream).ctr.toNat) (s.row cardStream) = .ok () r ∧
      t = s.setRow cardStream r := by
  unfold actSnapRule at h
  split at h
  · cases h; exact .inl rfl
  · obtain ⟨r, hr, rfl⟩ := onRow_eq_ok.1 h
    exact .inr ⟨_, r, by assumption, hr, rfl⟩

theorem actSnapRule_ne_raised {s t : State} {e : Err} : actSnapRule s ≠ .raised e t := by
  intro h
  unfold actSnapRule at h
  split at h
  · cases h
  · rename_i target ht
    have := snapTarget_eq_some.1 ht
    obtain ⟨r, hr, -⟩ := onRow_eq_raised.1 h
    exact replay_ne_raised (by omega) hr

/-! ### The rules of the engines -/

theorem shuffleRule_raised {i : StreamId} {s t : State} {e : Err} (h : shuffleRule i s = .raised e t) :
    t = s ∧ (e = .badArg ∨ e = .ctrOvf) := by
  unfold shuffleRule at h
  split at h
  · cases h; exact ⟨rfl, .inl rfl⟩
  split at h
  · cases h; exact ⟨rfl, .inr rfl⟩
  rename_i h1 h2
  by_cases h3 : 2 ≤ s.lenOperand
  · exact absurd h (shuffleFrom_ne_raised (by unfold ctrMax at h2; omega))
  · rw [show s.lenOperand - 1 = 0 by omega] at h
    cases h

theorem shuffleRule_ok {i : StreamId} {s t : State} (h : shuffleRule i s = .ok () t) :
    s.lenOperand ≤ itemDepth ∧ shuffleFrom i (s.lenOperand - 1) s = .ok () t := by
  unfold shuffleRule at h
  split at h
  · cases h
  split at h
  · cases h
  exact ⟨by omega, h⟩

theorem rollRarityRule_raised {i : StreamId} {s t : State} {e : Err}
    (h : rollRarityRule i s = .raised e t) : t = s := by
  rcases Res.bind_eq_raised.1 h with h | ⟨_, _, _, h⟩
  · exact (rollRarity_eq_raised.1 h).2.2
  · cases h

theorem rollRarityRule_ok {i : StreamId} {s t : State} (h : rollRarityRule i s = .ok () t) :
    ∃ rr u, rollRarity i s = .ok rr u ∧
      t = (u.setRes0 (zeroExtended rr.1.code)).setRes1 (toU64 rr.2) := by
  obtain ⟨rr, u, h1, h2⟩ := Res.bind_eq_ok.1 h
  cases h2
  exact ⟨rr, u, h1, rfl⟩

theorem genSlots_raised {i : StreamId} {n k : Nat} {s t : State} {e : Err}
    (h : genSlots i n k s = .raised e t) : e = .ctrOvf ∨ e = .badArg ∨ e = .poolExhausted := by
  induction n generalizing k s with
  | zero => cases h
  | succ n ih =>
    rcases Res.bind_eq_raised.1 h with h | ⟨_, _, _, h⟩
    · exact (genSlot_raised h).2.2
    · exact ih h

theorem upgradeSlots_raised {i : StreamId} {n k : Nat} {s t : State} {e : Err}
    (h : upgradeSlots i n k s = .raised e t) : e = .ctrOvf := by
  induction n generalizing k s with
  | zero => cases h
  | succ n ih =>
    rcases Res.bind_eq_raised.1 h with h | ⟨_, _, _, h⟩
    · obtain ⟨r, hr, -⟩ := onRow_eq_raised.1 h
      rcases ctr_cases (s.row i) with hc | hc
      · rw [drawChance_of_max hc] at hr; cases hr; rfl
      · rw [drawChance_of_lt hc] at hr; cases hr
    · exact ih h

/-- `GEN_REWARDS` fails on its arguments before anything changes, or in the batch (44_reward R194). -/
theorem genRewardsRule_raised {i : StreamId} {s t : State} {e : Err}
    (h : genRewardsRule i s = .raised e t) :
    (rewardDepth < s.countOperand ∨ s.block.cfg.upgMode = 3) ∧ e = .badArg ∧ t = s ∨
    s.countOperand ≤ rewardDepth ∧ s.block.cfg.upgMode ≠ 3 ∧
      (genSlots i s.countOperand 0 s.clearRewards = .raised e t ∨
        ∃ u, genSlots i s.countOperand 0 s.clearRewards = .ok () u ∧
          upgradeBatch i s.countOperand u = .raised e t) := by
  unfold genRewardsRule at h
  split at h
  · cases h; exact .inl ⟨.inl ‹_›, rfl, rfl⟩
  split at h
  · cases h; exact .inl ⟨.inr ‹_›, rfl, rfl⟩
  refine .inr ⟨by omega, ‹_›, ?_⟩
  rcases Res.bind_eq_raised.1 h with h | ⟨_, u, hu, h⟩
  · exact .inl h
  rcases Res.bind_eq_raised.1 h with h | ⟨_, v, _, h⟩
  · exact .inr ⟨u, hu, h⟩
  · cases h

/-! ### The codes a rule can raise (60_exceptions R220) -/

theorem drawRaw_code {r r' : Row} {e : Err} (h : drawRaw r = .raised e r') : e = .ctrOvf := by
  rcases ctr_cases r with hc | hc
  · rw [drawRaw_of_max hc] at h; cases h; rfl
  · rw [drawRaw_of_lt hc] at h; cases h

theorem drawRawThen_code {i : StreamId} {g : Word → State → State} {s t : State} {e : Err}
    (h : ((onRow i drawRaw s).bind fun a s => .ok () (g a s)) = .raised e t) : e = .ctrOvf := by
  rcases Res.bind_eq_raised.1 h with h | ⟨_, _, _, h⟩
  · obtain ⟨r, hr, -⟩ := onRow_eq_raised.1 h
    exact drawRaw_code hr
  · cases h

theorem drawChanceRule_code {i : StreamId} {s t : State} {e : Err}
    (h : drawChanceRule i s = .raised e t) : e = .ctrOvf := by
  rcases Res.bind_eq_raised.1 h with h | ⟨_, _, _, h⟩
  · obtain ⟨r, hr, -⟩ := onRow_eq_raised.1 h
    rcases Res.bind_eq_raised.1 hr with hr | ⟨_, _, _, hr⟩
    · exact drawRaw_code hr
    · cases hr
  · cases h

theorem drawBoundedRule_code {i : StreamId} {s t : State} {e : Err}
    (h : drawBoundedRule i s = .raised e t) : e = .badArg ∨ e = .ctrOvf := by
  unfold drawBoundedRule at h
  split at h
  · cases h; exact .inl rfl
  rcases Res.bind_eq_raised.1 h with h | ⟨_, _, _, h⟩
  · obtain ⟨r, hr, -⟩ := onRow_eq_raised.1 h
    exact .inr (drawBounded_eq_raised.1 hr).2.1
  · cases h

theorem drawRangeRule_code {i : StreamId} {s t : State} {e : Err}
    (h : drawRangeRule i s = .raised e t) : e = .badArg ∨ e = .ctrOvf := by
  rcases Res.bind_eq_raised.1 h with h | ⟨_, _, _, h⟩
  · obtain ⟨r, hr, -⟩ := onRow_eq_raised.1 h
    exact (drawRange_eq_raised.1 hr).2.imp And.right (And.right ∘ And.right)
  · cases h

theorem rollRarityRule_code {i : StreamId} {s t : State} {e : Err}
    (h : rollRarityRule i s = .raised e t) : e = .ctrOvf := by
  rcases Res.bind_eq_raised.1 h with h | ⟨_, _, _, h⟩
  · exact (rollRarity_eq_raised.1 h).2.1
  · cases h

theorem genRewardsRule_code {i : StreamId} {s t : State} {e : Err}
    (h : genRewardsRule i s = .raised e t) : e = .badArg ∨ e = .poolExhausted ∨ e = .ctrOvf := by
  rcases genRewardsRule_raised h with ⟨-, rfl, -⟩ | ⟨-, -, h | ⟨u, -, h⟩⟩
  · exact .inl rfl
  · rcases genSlots_raised h with rfl | rfl | rfl <;> simp
  · unfold upgradeBatch at h
    split at h
    · rw [upgradeSlots_raised h]; simp
    · cases h

theorem genRewardsRule_ok {i : StreamId} {s t : State} (h : genRewardsRule i s = .ok () t) :
    s.countOperand ≤ rewardDepth ∧ s.block.cfg.upgMode ≠ 3 ∧
      ∃ u v, genSlots i s.countOperand 0 s.clearRewards = .ok () u ∧
        upgradeBatch i s.countOperand u = .ok () v ∧ t = v.setRes0 (BitVec.ofNat 64 s.countOperand) := by
  unfold genRewardsRule at h
  split at h
  · cases h
  split at h
  · cases h
  obtain ⟨_, u, hu, h⟩ := Res.bind_eq_ok.1 h
  obtain ⟨_, v, hv, h⟩ := Res.bind_eq_ok.1 h
  cases h
  exact ⟨by omega, ‹_›, u, v, hu, hv, rfl⟩

end Sys2Proof.Machine
end

