-- ==== Sys2Proof/Laws/Common.lean ====
section
/-! SUPPORT. What all commands leave alone: the registers and flags that a rule does not write. -/

namespace Sys2Proof.Machine

/-- From `s` to `t` no register, flag or configuration field but those of the manager, `PITY_OFFSET` and the
buffers `SNAP`, `REWARD` and `ITEM` changed. -/
structure Untouched (s t : State) : Prop where
  cmd : t.block.cmd = s.block.cmd
  status : t.block.status = s.block.status
  opa : t.block.opa = s.block.opa
  opb : t.block.opb = s.block.opb
  res0 : t.block.res0 = s.block.res0
  res1 : t.block.res1 = s.block.res1
  shadow : t.block.shadow = s.block.shadow
  cfg : t.block.cfg = s.block.cfg
  params : t.params = s.params
  moves : t.moves = s.moves
  readData : t.readData = s.readData
  resets : t.resets = s.resets

theorem Untouched.refl (s : State) : Untouched s s := by constructor <;> rfl

theorem Untouched.trans {s t u : State} (h : Untouched s t) (h' : Untouched t u) : Untouched s u where
  cmd := h'.cmd.trans h.cmd
  status := h'.status.trans h.status
  opa := h'.opa.trans h.opa
  opb := h'.opb.trans h.opb
  res0 := h'.res0.trans h.res0
  res1 := h'.res1.trans h.res1
  shadow := h'.shadow.trans h.shadow
  cfg := h'.cfg.trans h.cfg
  params := h'.params.trans h.params
  moves := h'.moves.trans h.moves
  readData := h'.readData.trans h.readData
  resets := h'.resets.trans h.resets

/-! ### The operations that leave them alone -/

theorem setRow_untouched (s : State) (i : StreamId) (r : Row) : Untouched s (s.setRow i r) := by
  constructor <;> rfl
theorem setReward_untouched (s : State) (k : Nat) (v : RewardSlot) : Untouched s (s.setReward k v) := by
  constructor <;> rfl
theorem clearRewards_untouched (s : State) : Untouched s s.clearRewards := by constructor <;> rfl
theorem swapItems_untouched (s : State) (k j : Nat) : Untouched s (s.swapItems k j) := by
  constructor <;> rfl
theorem setManagerRegs_untouched (s : State) (w : Word) (f : BitVec 32) (a : BitVec 8) :
    Untouched s (s.setManagerRegs w f a) := by constructor <;> rfl
theorem setFloor_untouched (s : State) (f : BitVec 32) : Untouched s (s.setFloor f) := by
  constructor <;> rfl
theorem setAct_untouched (s : State) (a : BitVec 8) : Untouched s (s.setAct a) := by constructor <;> rfl
theorem setMgr_untouched (s : State) (m : Manager) : Untouched s (s.setMgr m) := by constructor <;> rfl
theorem setSnap_untouched (s : State) (v : Vector (BitVec 32) 13) : Untouched s (s.setSnap v) := by
  constructor <;> rfl
theorem setPityOffset_untouched (s : State) (v : BitVec 16) : Untouched s (s.setPityOffset v) := by
  constructor <;> rfl

theorem updatePity_untouched (s : State) (r : Rarity) : Untouched s (s.updatePity r) := by
  rw [updatePity_eq]
  exact setPityOffset_untouched s _

theorem RowsOnly.untouched {is : StreamId → Prop} {s t : State} (h : RowsOnly is s t) : Untouched s t := by
  obtain ⟨h1, h2, h3, h4, h5, h6, h7, h8, h9, h10, h11, h12, h13, h14, h15, h16, h17, h18, h19⟩ := h.fields
  constructor <;> assumption

theorem onRow_untouched {α : Type} {i : StreamId} {f : Row → Res Row α} {s t : State}
    (h : (onRow i f s).leaves t) : Untouched s t := by
  obtain ⟨r, rfl, -⟩ := onRow_leaves h
  exact setRow_untouched s i r

theorem rollRarity_untouched {i : StreamId} {s t : State} (h : (rollRarity i s).leaves t) :
    Untouched s t := by
  rcases h with ⟨rr, h⟩ | ⟨e, h⟩
  · obtain ⟨-, k, -, -, -, rfl⟩ := rollRarity_eq_ok.1 h
    exact (setRow_untouched s i _).trans (updatePity_untouched _ _)
  · rw [(rollRarity_eq_raised.1 h).2.2]
    exact .refl s

theorem upgradeInSlot_untouched {i : StreamId} {s t : State} (h : (upgradeInSlot i s).leaves t) :
    Untouched s t := by
  unfold upgradeInSlot at h
  split at h
  · exact onRow_untouched h
  · rw [Res.leaves_ok.1 h]; exact .refl s

theorem pickIndex_untouched {i : StreamId} {r : Rarity} {slots : List RewardSlot} {fuel : Nat}
    {s t : State} (h : (pickIndex i r slots fuel s).leaves t) : Untouched s t := by
  rcases h with ⟨idx, h⟩ | ⟨e, h⟩
  · obtain ⟨-, -, row, rfl⟩ := pickIndex_ok h
    exact setRow_untouched s i row
  · obtain ⟨⟨row, rfl⟩, -⟩ := pickIndex_raised h
    exact setRow_untouched s i row

theorem genSlot_untouched {i : StreamId} {k : Nat} {s t : State} (h : (genSlot i k s).leaves t) :
    Untouched s t := by
  unfold genSlot at h
  rcases Res.leaves_bind h with ⟨e, h⟩ | ⟨rr, u, h1, h⟩
  · exact rollRarity_untouched (.inr ⟨e, h⟩)
  refine (rollRarity_untouched (.inl ⟨rr, h1⟩)).trans ?_
  split at h
  · rw [Res.leaves_raised.1 h]; exact .refl u
  split at h
  · rw [Res.leaves_raised.1 h]; exact .refl u
  rcases Res.leaves_bind h with ⟨e, h⟩ | ⟨idx, v, h2, h⟩
  · exact pickIndex_untouched (.inr ⟨e, h⟩)
  refine (pickIndex_untouched (.inl ⟨idx, h2⟩)).trans ?_
  rcases Res.leaves_bind h with ⟨e, h⟩ | ⟨b, w, h3, h⟩
  · exact upgradeInSlot_untouched (.inr ⟨e, h⟩)
  · rw [Res.leaves_ok.1 h]
    exact (upgradeInSlot_untouched (.inl ⟨b, h3⟩)).trans (setReward_untouched w k _)

theorem genSlots_untouched {i : StreamId} {n k : Nat} {s t : State} (h : (genSlots i n k s).leaves t) :
    Untouched s t := by
  induction n generalizing k s with
  | zero => rw [Res.leaves_ok.1 h]; exact .refl s
  | succ n ih =>
    rcases Res.leaves_bind h with ⟨e, h⟩ | ⟨_, u, h1, h⟩
    · exact genSlot_untouched (.inr ⟨e, h⟩)
    · exact (genSlot_untouched (.inl ⟨_, h1⟩)).trans (ih h)

theorem upgradeSlots_untouched {i : StreamId} {n k : Nat} {s t : State}
    (h : (upgradeSlots i n k s).leaves t) : Untouched s t := by
  induction n generalizing k s with
  | zero => rw [Res.leaves_ok.1 h]; exact .refl s
  | succ n ih =>
    rcases Res.leaves_bind h with ⟨e, h⟩ | ⟨b, u, h1, h⟩
    · exact onRow_untouched (.inr ⟨e, h⟩)
    · exact ((onRow_untouched (.inl ⟨b, h1⟩)).trans (setReward_untouched u k _)).trans (ih h)

theorem upgradeBatch_untouched {i : StreamId} {n : Nat} {s t : State}
    (h : (upgradeBatch i n s).leaves t) : Untouched s t := by
  unfold upgradeBatch at h
  split at h
  · exact upgradeSlots_untouched h
  · rw [Res.leaves_ok.1 h]; exact .refl s

theorem shuffleFrom_untouched {i : StreamId} {n : Nat} {s t : State} (h : (shuffleFrom i n s).leaves t) :
    Untouched s t := by
  induction n generalizing s with
  | zero => rw [Res.leaves_ok.1 h]; exact .refl s
  | succ n ih =>
    rcases Res.leaves_bind h with ⟨e, h⟩ | ⟨v, u, h1, h⟩
    · exact onRow_untouched (.inr ⟨e, h⟩)
    · exact ((onRow_untouched (.inl ⟨v, h1⟩)).trans (swapItems_untouched u _ _)).trans (ih h)

theorem rebuild_untouched {seed : Word} {floor : BitVec 32} {act : BitVec 8} {countOf : StreamId → Nat}
    {s t : State} (h : rebuild seed floor act countOf s = .ok () t) :
    ∃ u, Untouched s u ∧ t = u.setInit := by
  obtain ⟨u, hu, rfl, -⟩ := rebuild_ok h
  exact ⟨_, hu.untouched.trans (setManagerRegs_untouched u seed floor act), rfl⟩

/-! ### What a command that completes has written -/

/-- The commands that write `RES0` and not `RES1`. -/
def writesRes0 (i : Instr) : Prop :=
  ∃ sid, i ∈ [Instr.drawBounded sid, .drawRange sid, .drawBool sid, .drawChance sid, .drawFloat sid,
    .drawLong sid, .genRewards sid]

/-- The commands that write no result, no flag but `ERR`, and no shadow bank. -/
def writesNeither (i : Instr) : Prop :=
  i ∈ [Instr.nop, .floorAdv, .actSeed, .actSnap, .snapshot, .rollback, .pityReset] ∨
    ∃ sid, i ∈ [Instr.streamNew sid, .shuffle sid]

/-- Every command that completes, by what it has written outside the manager, `PITY_OFFSET` and the
buffers. -/
theorem ruleOf_ok {i : Instr} {s u : State} (h : ruleOf i s = .ok () u) :
    (i = .clrerr ∧ u = s.rearm) ∨
    (i = .checkpoint ∧ s.block.status.init = true ∧ u = (s.setShadow s.block.mgr).setCkpt) ∨
    (i ∈ [Instr.init, .restore] ∧ ∃ v, Untouched s v ∧ u = v.setInit) ∨
    ((∃ sid, i = .rollRarity sid) ∧ ∃ v w x, Untouched s v ∧ u = (v.setRes0 w).setRes1 x) ∨
    (writesRes0 i ∧ ∃ v w, Untouched s v ∧ u = v.setRes0 w) ∨
    (writesNeither i ∧ Untouched s u) := by
  have draw {rule : StreamId → State → Res State Unit} {sid : BitVec 4}
      (hr : ∀ j t, rule j s = .ok () t → ∃ v k, t = (s.setRow j ((s.row j).drawn k)).setRes0 v)
      (h : gateStream sid rule s = .ok () u) : ∃ v w, Untouched s v ∧ u = v.setRes0 w := by
    obtain ⟨j, -, -, h⟩ := gateStream_ok.1 h
    obtain ⟨v, k, rfl⟩ := hr j u h
    exact ⟨_, v, setRow_untouched s j _, rfl⟩
  cases i with
  | nop => cases h; exact .inr (.inr (.inr (.inr (.inr ⟨.inl (by simp), .refl s⟩))))
  | clrerr => cases h; exact .inl ⟨rfl, rfl⟩
  | init =>
    simp only [ruleOf, initRule] at h
    exact .inr (.inr (.inl ⟨by simp, rebuild_untouched h⟩))
  | restore =>
    simp only [ruleOf, restoreRule] at h
    split at h
    · cases h
    · exact .inr (.inr (.inl ⟨by simp, rebuild_untouched h⟩))
  | floorAdv =>
    obtain ⟨v, hv, rfl, -⟩ := floorAdvRule_ok (gateInit_ok.1 h).2
    exact .inr (.inr (.inr (.inr (.inr ⟨.inl (by simp), hv.untouched.trans (setFloor_untouched v _)⟩))))
  | actSeed =>
    have h := (gateInit_ok.1 h).2
    refine .inr (.inr (.inr (.inr (.inr ⟨.inl (by simp), ?_⟩))))
    rcases Nat.lt_or_ge s.actOperand.toNat s.params.nActs with hl | hl
    · rw [actSeedRule_of_lt hl] at h
      cases h
      exact (setRow_untouched s _ _).trans (setAct_untouched _ _)
    · rw [actSeedRule_of_le hl] at h; cases h
  | actSnap =>
    refine .inr (.inr (.inr (.inr (.inr ⟨.inl (by simp), ?_⟩))))
    rcases actSnapRule_ok (gateInit_ok.1 h).2 with rfl | ⟨_, r, -, -, rfl⟩
    · exact .refl _
    · exact setRow_untouched s _ r
  | snapshot =>
    have h := (gateInit_ok.1 h).2
    cases h
    exact .inr (.inr (.inr (.inr (.inr ⟨.inl (by simp), setSnap_untouched s _⟩))))
  | checkpoint =>
    obtain ⟨hi, h⟩ := gateInit_ok.1 h
    cases h
    exact .inr (.inl ⟨rfl, hi, rfl⟩)
  | rollback =>
    simp only [ruleOf, rollbackRule] at h
    split at h
    · cases h
      exact .inr (.inr (.inr (.inr (.inr ⟨.inl (by simp), setMgr_untouched s _⟩))))
    · cases h
  | pityReset =>
    cases h
    exact .inr (.inr (.inr (.inr (.inr ⟨.inl (by simp), setPityOffset_untouched s _⟩))))
  | streamNew sid =>
    obtain ⟨j, -, -, h⟩ := gateStream_ok.1 h
    obtain ⟨r, -, rfl⟩ := streamNewRule_ok.1 h
    exact .inr (.inr (.inr (.inr (.inr ⟨.inr ⟨sid, by simp⟩, setRow_untouched s j r⟩))))
  | drawBounded sid =>
    exact .inr (.inr (.inr (.inr (.inl ⟨⟨sid, by simp⟩, draw (fun _ _ => drawBoundedRule_ok) h⟩))))
  | drawRange sid =>
    exact .inr (.inr (.inr (.inr (.inl ⟨⟨sid, by simp⟩, draw (fun _ _ => drawRangeRule_ok) h⟩))))
  | drawBool sid =>
    exact .inr (.inr (.inr (.inr (.inl ⟨⟨sid, by simp⟩, draw (fun _ _ => drawBoolRule_ok) h⟩))))
  | drawChance sid =>
    exact .inr (.inr (.inr (.inr (.inl ⟨⟨sid, by simp⟩, draw (fun _ _ => drawChanceRule_ok) h⟩))))
  | drawFloat sid =>
    exact .inr (.inr (.inr (.inr (.inl ⟨⟨sid, by simp⟩, draw (fun _ _ => drawFloatRule_ok) h⟩))))
  | drawLong sid =>
    exact .inr (.inr (.inr (.inr (.inl ⟨⟨sid, by simp⟩, draw (fun _ _ => drawLongRule_ok) h⟩))))
  | shuffle sid =>
    obtain ⟨j, -, -, h⟩ := gateStream_ok.1 h
    exact .inr (.inr (.inr (.inr (.inr ⟨.inr ⟨sid, by simp⟩,
      shuffleFrom_untouched (.inl ⟨(), (shuffleRule_ok h).2⟩)⟩))))
  | rollRarity sid =>
    obtain ⟨j, -, -, h⟩ := gateStream_ok.1 h
    obtain ⟨rr, v, h1, rfl⟩ := rollRarityRule_ok h
    exact .inr (.inr (.inr (.inl ⟨⟨sid, rfl⟩, v, _, _, rollRarity_untouched (.inl ⟨rr, h1⟩), rfl⟩)))
  | genRewards sid =>
    obtain ⟨j, -, -, h⟩ := gateStream_ok.1 h
    obtain ⟨-, -, v, w, h1, h2, rfl⟩ := genRewardsRule_ok h
    exact .inr (.inr (.inr (.inr (.inl ⟨⟨sid, by simp⟩, w, _, (clearRewards_untouched s).trans
      ((genSlots_untouched (.inl ⟨_, h1⟩)).trans (upgradeBatch_untouched (.inl ⟨_, h2⟩))), rfl⟩))))

/-- A command that fails has written no register and no flag before it records its error. -/
theorem ruleOf_raised {i : Instr} {s u : State} {e : Err} (h : ruleOf i s = .raised e u) :
    Untouched s u := by
  have gi {rule : State → Res State Unit} (hr : ∀ u, rule s = .raised e u → Untouched s u)
      (h : gateInit rule s = .raised e u) : Untouched s u := by
    rcases gateInit_raised.1 h with ⟨-, -, rfl⟩ | ⟨-, h⟩
    · exact .refl _
    · exact hr u h
  have gs {rule : StreamId → State → Res State Unit} {sid : BitVec 4}
      (hr : ∀ j u, rule j s = .raised e u → Untouched s u)
      (h : gateStream sid rule s = .raised e u) : Untouched s u := by
    rcases gateStream_raised.1 h with ⟨-, -, rfl⟩ | ⟨-, -, -, rfl⟩ | ⟨j, -, -, h⟩
    · exact .refl _
    · exact .refl _
    · exact hr j u h
  have eq {u : State} (h : u = s) : Untouched s u := h ▸ .refl s
  cases i with
  | nop => cases h
  | clrerr => cases h
  | pityReset => cases h
  | init => exact absurd h initRule_ne_raised
  | restore => exact eq (restoreRule_raised h).1
  | floorAdv => exact gi (fun _ h => absurd h floorAdvRule_ne_raised) h
  | actSeed =>
    refine gi (fun u h => ?_) h
    rcases Nat.lt_or_ge s.actOperand.toNat s.params.nActs with hl | hl
    · rw [actSeedRule_of_lt hl] at h; cases h
    · rw [actSeedRule_of_le hl] at h; cases h; exact .refl s
  | actSnap => exact gi (fun _ h => absurd h actSnapRule_ne_raised) h
  | snapshot => exact gi (fun _ h => by cases h) h
  | checkpoint => exact gi (fun _ h => by cases h) h
  | rollback =>
    simp only [ruleOf, rollbackRule] at h
    split at h <;> cases h
    exact .refl _
  | streamNew => exact gs (fun _ _ h => absurd h streamNewRule_ne_raised) h
  | drawBounded => exact gs (fun _ _ h => eq (drawBoundedRule_raised h)) h
  | drawRange => exact gs (fun _ _ h => eq (drawRangeRule_raised h)) h
  | drawBool => exact gs (fun _ _ h => eq (drawBoolRule_raised h)) h
  | drawChance => exact gs (fun _ _ h => eq (drawChanceRule_raised h)) h
  | drawFloat => exact gs (fun _ _ h => eq (drawFloatRule_raised h)) h
  | drawLong => exact gs (fun _ _ h => eq (drawLongRule_raised h)) h
  | shuffle => exact gs (fun _ _ h => eq (shuffleRule_raised h).1) h
  | rollRarity => exact gs (fun _ _ h => eq (rollRarityRule_raised h)) h
  | genRewards =>
    refine gs (fun j u h => ?_) h
    rcases genRewardsRule_raised h with ⟨-, -, rfl⟩ | ⟨-, -, h | ⟨v, h1, h2⟩⟩
    · exact .refl _
    · exact (clearRewards_untouched s).trans (genSlots_untouched (.inr ⟨_, h⟩))
    · exact (clearRewards_untouched s).trans
        ((genSlots_untouched (.inl ⟨_, h1⟩)).trans (upgradeBatch_untouched (.inr ⟨_, h2⟩)))

/-- The code that a failing command records (30_encoding R88, 60_exceptions R222): of the stream check, of
the initialisation check, or of its own rule. -/
def FailsWith (i : Instr) (s : State) (e : Err) : Prop :=
  (i.wellFormed = false ∧ e = .badStream) ∨
  (i.wellFormed = true ∧ needsInit i ∧ s.block.status.init = false ∧ e = .notInit) ∨
  (i.wellFormed = true ∧ (needsInit i → s.block.status.init = true) ∧ e ∈ ruleErrors i)

theorem ruleOf_raised_code {i : Instr} {s u : State} {e : Err} (h : ruleOf i s = .raised e u) :
    FailsWith i s e := by
  have gi {rule : State → Res State Unit} (hw : i.wellFormed = true) (hn : needsInit i)
      (hr : rule s = .raised e u → e ∈ ruleErrors i) (h : gateInit rule s = .raised e u) :
      FailsWith i s e := by
    rcases gateInit_raised.1 h with ⟨hi, he, -⟩ | ⟨hi, h⟩
    · exact .inr (.inl ⟨hw, hn, hi, he⟩)
    · exact .inr (.inr ⟨hw, fun _ => hi, hr h⟩)
  have gs {rule : StreamId → State → Res State Unit} {sid : BitVec 4} (hs : i.sid? = some sid)
      (hr : ∀ j, rule j s = .raised e u → e ∈ ruleErrors i) (h : gateStream sid rule s = .raised e u) :
      FailsWith i s e := by
    unfold gateStream at h
    cases hj : streamId? sid with
    | none =>
      simp only [hj, Res.raised.injEq] at h
      exact .inl ⟨by simpa [Instr.wellFormed, hs] using streamId?_eq_none.1 hj, h.1.symm⟩
    | some j =>
      simp only [hj] at h
      refine gi ?_ (.inr (by simp [hs])) (hr j) h
      cases hw : legalSid sid with
      | true => simp [Instr.wellFormed, hs, hw]
      | false => rw [streamId?_eq_none.2 hw] at hj; cases hj
  have own (hw : i.wellFormed = true) (hn : ¬ needsInit i) (he : e ∈ ruleErrors i) : FailsWith i s e :=
    .inr (.inr ⟨hw, fun h => absurd h hn, he⟩)
  cases i with
  | nop | clrerr | pityReset => cases h
  | init => exact absurd h initRule_ne_raised
  | restore => exact own rfl (by simp [needsInit, Instr.sid?]) (by simp [ruleErrors, (restoreRule_raised h).2])
  | rollback =>
    simp only [ruleOf, rollbackRule] at h
    split at h <;> cases h
    exact own rfl (by simp [needsInit, Instr.sid?]) (by simp [ruleErrors])
  | floorAdv => exact gi rfl (.inl (by simp)) (fun h => absurd h floorAdvRule_ne_raised) h
  | actSeed =>
    refine gi rfl (.inl (by simp)) (fun h => ?_) h
    rcases Nat.lt_or_ge s.actOperand.toNat s.params.nActs with hl | hl
    · rw [actSeedRule_of_lt hl] at h; cases h
    · rw [actSeedRule_of_le hl] at h; cases h; simp [ruleErrors]
  | actSnap => exact gi rfl (.inl (by simp)) (fun h => absurd h actSnapRule_ne_raised) h
  | snapshot => exact gi rfl (.inl (by simp)) (fun h => by cases h) h
  | checkpoint => exact gi rfl (.inl (by simp)) (fun h => by cases h) h
  | streamNew sid => exact gs rfl (fun _ h => absurd h streamNewRule_ne_raised) h
  | drawBounded sid => exact gs rfl (fun _ h => by simpa [ruleErrors] using drawBoundedRule_code h) h
  | drawRange sid => exact gs rfl (fun _ h => by simpa [ruleErrors] using drawRangeRule_code h) h
  | drawBool sid => exact gs rfl (fun _ h => by simpa [ruleErrors] using drawRawThen_code h) h
  | drawChance sid => exact gs rfl (fun _ h => by simpa [ruleErrors] using drawChanceRule_code h) h
  | drawFloat sid => exact gs rfl (fun _ h => by simpa [ruleErrors] using drawRawThen_code h) h
  | drawLong sid => exact gs rfl (fun _ h => by simpa [ruleErrors] using drawRawThen_code h) h
  | shuffle sid => exact gs rfl (fun _ h => by simpa [ruleErrors] using (shuffleRule_raised h).2) h
  | rollRarity sid => exact gs rfl (fun _ h => by simpa [ruleErrors] using rollRarityRule_code h) h
  | genRewards sid => exact gs rfl (fun _ h => by simpa [ruleErrors] using genRewardsRule_code h) h

end Sys2Proof.Machine
end

