-- ==== Sys2Proof/Laws/PerInstr.lean ====
section
/-! SUPPORT. One family for each constructor of Instr: the three fields of a command's word. -/

namespace Sys2Proof.Laws.EncodedFields

/-- The word of a command holds its opcode, its stream number (0 in format N) and nothing else
(30_encoding R80, R83). -/
def Statement (i : Instr) : Prop :=
  opcodeField (encode i) = i.opcode ∧ sidField (encode i) = i.sid?.getD 0 ∧ zeroField (encode i) = 0

/-- The three fields of a word put together from an opcode and a stream number. -/
theorem of_fields (opcode : BitVec 8) (sid : BitVec 4) :
    opcodeField (0#52 ++ sid ++ opcode : BitVec 64) = opcode ∧
      sidField (0#52 ++ sid ++ opcode : BitVec 64) = sid ∧
      zeroField (0#52 ++ sid ++ opcode : BitVec 64) = 0 := by
  refine ⟨?_, ?_, ?_⟩
  · exact BitVec.extractLsb'_append_eq_right
  · revert sid opcode; decide +kernel
  · revert sid opcode; decide +kernel

theorem nop : Statement .nop := of_fields _ _
theorem clrerr : Statement .clrerr := of_fields _ _
theorem init : Statement .init := of_fields _ _
theorem restore : Statement .restore := of_fields _ _
theorem floorAdv : Statement .floorAdv := of_fields _ _
theorem actSeed : Statement .actSeed := of_fields _ _
theorem actSnap : Statement .actSnap := of_fields _ _
theorem snapshot : Statement .snapshot := of_fields _ _
theorem checkpoint : Statement .checkpoint := of_fields _ _
theorem rollback : Statement .rollback := of_fields _ _
theorem pityReset : Statement .pityReset := of_fields _ _
theorem streamNew (sid : BitVec 4) : Statement (.streamNew sid) := of_fields _ sid
theorem drawBounded (sid : BitVec 4) : Statement (.drawBounded sid) := of_fields _ sid
theorem drawRange (sid : BitVec 4) : Statement (.drawRange sid) := of_fields _ sid
theorem drawBool (sid : BitVec 4) : Statement (.drawBool sid) := of_fields _ sid
theorem drawChance (sid : BitVec 4) : Statement (.drawChance sid) := of_fields _ sid
theorem drawFloat (sid : BitVec 4) : Statement (.drawFloat sid) := of_fields _ sid
theorem drawLong (sid : BitVec 4) : Statement (.drawLong sid) := of_fields _ sid
theorem shuffle (sid : BitVec 4) : Statement (.shuffle sid) := of_fields _ sid
theorem rollRarity (sid : BitVec 4) : Statement (.rollRarity sid) := of_fields _ sid
theorem genRewards (sid : BitVec 4) : Statement (.genRewards sid) := of_fields _ sid

end Sys2Proof.Laws.EncodedFields
end

