-- ==== Sys2Proof/Tests/Slice0.lean ====
section
/-! SUPPORT. The author's own tests: ill-formed terms refused, words written out from the encodings, one step
of each command on the spec's worked examples, and a witness for the hypotheses of each obligation. -/

namespace Sys2Proof.Tests

open Sys2Proof.Machine

-- One theorem at a time: each test's evaluation in the kernel would otherwise hold a thread of its own.
set_option Elab.async false

/-! ### WellFormed: a stream number above 12 is refused, 12 is not (30_encoding R81) -/

theorem test_wf_streamNew : (Instr.streamNew 13).wellFormed = false := by decide
theorem test_wf_drawBounded : (Instr.drawBounded 14).wellFormed = false := by decide
theorem test_wf_drawRange : (Instr.drawRange 15).wellFormed = false := by decide
theorem test_wf_drawBool : (Instr.drawBool 13).wellFormed = false := by decide
theorem test_wf_drawChance : (Instr.drawChance 13).wellFormed = false := by decide
theorem test_wf_drawFloat : (Instr.drawFloat 13).wellFormed = false := by decide
theorem test_wf_drawLong : (Instr.drawLong 13).wellFormed = false := by decide
theorem test_wf_shuffle : (Instr.shuffle 13).wellFormed = false := by decide
theorem test_wf_rollRarity : (Instr.rollRarity 13).wellFormed = false := by decide
theorem test_wf_genRewards : (Instr.genRewards 15).wellFormed = false := by decide
theorem test_wf_last_stream : (Instr.drawBool 12).wellFormed = true := by decide

/-! ### Decoding: words written from the encodings of 30_encoding R80 and R83

`0b` literals: stream number in bits 11:8, opcode in bits 7:0. -/

theorem test_decode_nop : decode 0b000000000000 = .command .nop := by decide
theorem test_decode_clrerr : decode 0b000000000001 = .command .clrerr := by decide
theorem test_decode_init : decode 0b000000000010 = .command .init := by decide
theorem test_decode_restore : decode 0b000000000011 = .command .restore := by decide
theorem test_decode_floorAdv : decode 0b000000000100 = .command .floorAdv := by decide
theorem test_decode_actSeed : decode 0b000000000101 = .command .actSeed := by decide
theorem test_decode_actSnap : decode 0b000000000110 = .command .actSnap := by decide
theorem test_decode_snapshot : decode 0b000000000111 = .command .snapshot := by decide
theorem test_decode_checkpoint : decode 0b000000001000 = .command .checkpoint := by decide
theorem test_decode_rollback : decode 0b000000001001 = .command .rollback := by decide
theorem test_decode_pityReset : decode 0b000000001010 = .command .pityReset := by decide
theorem test_decode_streamNew : decode 0b110000010000 = .command (.streamNew 12) := by decide
theorem test_decode_drawBounded : decode 0b000000010001 = .command (.drawBounded 0) := by decide
theorem test_decode_drawRange : decode 0b100100010010 = .command (.drawRange 9) := by decide
theorem test_decode_drawBool : decode 0b010100010011 = .command (.drawBool 5) := by decide
theorem test_decode_drawChance : decode 0b000100010100 = .command (.drawChance 1) := by decide
theorem test_decode_drawFloat : decode 0b001000010101 = .command (.drawFloat 2) := by decide
theorem test_decode_drawLong : decode 0b101100010110 = .command (.drawLong 11) := by decide
theorem test_decode_shuffle : decode 0b100100100000 = .command (.shuffle 9) := by decide
theorem test_decode_rollRarity : decode 0b011100100001 = .command (.rollRarity 7) := by decide
theorem test_decode_genRewards : decode 0b001100100010 = .command (.genRewards 3) := by decide
/-- Reserved opcodes on both sides of each block (30_encoding R84). -/
theorem test_decode_reserved : ([0x00B, 0x00F, 0x017, 0x01F, 0x023, 0x0FF].all fun w =>
    decide (decode w = .illegalCmd)) = true := by decide
/-- A nonzero stream number in format N, and a bit above bit 11 (30_encoding R84). -/
theorem test_decode_illegal : ([0x100, 0xF0A, 0x1002, 0x8000000000000010].all fun w =>
    decide (decode w = .illegalCmd)) = true := by decide
/-- Reserved streams (30_encoding R84). -/
theorem test_decode_bad_stream : ([0xD10, 0xE16, 0xF22].all fun w =>
    decide (decode w = .badStream)) = true := by decide

/-! ### Helpers -/

/-- The outcome is a next state. -/
def isNext : Host.Outcome State Fault Refusal → Bool
  | .next _ => true
  | .fault _ => false
  | .refused _ => false

/-- The next state of an outcome. -/
def after (o : Host.Outcome State Fault Refusal) : State :=
  match o with
  | .next t => t
  | .fault _ => State.reset
  | .refused _ => State.reset

theorem eq_next_after {o : Host.Outcome State Fault Refusal} (h : isNext o = true) :
    o = .next (after o) := by
  cases o with
  | next => rfl
  | fault => cases h
  | refused => cases h

/-- The row of seed 42 (42_stream_manager R151, worked example). -/
def row42 : Row := ⟨0x810879608E4259CC, 0x310DCDAE81F2889B, 0⟩

/-- A block whose rows all hold the row `r`, initialised with base seed 42. -/
def readyWith (r : Row) : State := (State.reset.setMgr ⟨42, 0, 0, Vector.replicate 13 r⟩).setInit

/-- A block initialised with base seed 42. -/
def ready : State := readyWith row42

/-- The reward configuration of the worked examples: `CONFIG 3, 37, 5, -40, 1` and `POOLS 3, 2, 1`. -/
def cfg42 : RewardConfig := ⟨false, 0, 3, 37, 5, 0xFFD8, 1, 0, 3, 2, 1⟩

/-- `ready` with that configuration and its pity timer started. -/
def readyReward : State := (ready.setCfg cfg42).setPityOffset 5

/-- A state whose next host move is `m`. -/
def withMove (m : HostMove) (s : State) : State := { s with moves := [m] }

/-! ### One step of each command -/

/-- 45_system R210, worked example. -/
theorem test_nop : (after (exec .nop (ready.setStatus ⟨true, false, some .badArg, some .badArg, 0x011⟩))).port
    0x001 = 0x11040001 := by decide +kernel
/-- 45_system R211, worked example. -/
theorem test_clrerr : (after (exec .clrerr
    (ready.setStatus ⟨true, false, some .badArg, some .badArg, 0x011⟩))).port 0x001 = 0x1 := by decide +kernel
/-- 42_stream_manager R151, worked example. -/
theorem test_init : let t := after (exec .init (State.reset.setOpa 42))
    t.row 11 = row42 ∧ t.row 12 = ⟨0x203EA4C5049AD615, 0xA9EEB425265E56A4, 0⟩ ∧ t.port 0x001 = 0x1 := by
  decide +kernel
/-- 42_stream_manager R156, worked example. -/
theorem test_restore : let t := after (exec .restore
      ((State.reset.setOpa 42).setSnap (Vector.ofFn fun i => if i = 0 then 5 else 0)))
    t.row 0 = ⟨0xE661DF094DC7E080, 0x0D8705047342F11A, 5⟩ ∧ t.row 1 = row42 := by decide +kernel
/-- 42_stream_manager R152, worked example. -/
theorem test_floorAdv : let t := after (exec .floorAdv (ready.setOpa 3))
    t.row 7 = ⟨0xAC7840110D6A2541, 0xE5028207947850A2, 0⟩ ∧ t.row 6 = row42 := by decide +kernel
/-- 42_stream_manager R153, worked example. -/
theorem test_actSeed : (after (exec .actSeed (ready.setOpa 1))).row 12 =
    ⟨0x2036CA95FF624295, 0xBE462D2E18D5CB09, 0⟩ := by decide +kernel
/-- 42_stream_manager R154: 249 → 250. -/
theorem test_actSnap_up :
    ((after (exec .actSnap (readyWith { row42 with ctr := 249 }))).row 0).ctr = 250 := by decide +kernel
/-- 42_stream_manager R154: 750 → 750, and the generator words are as they were. -/
theorem test_actSnap_boundary : (after (exec .actSnap (readyWith { row42 with ctr := 750 }))).row 0 =
    { row42 with ctr := 750 } := by decide +kernel
/-- 42_stream_manager R155. -/
theorem test_snapshot : let t := after (exec .snapshot (ready.setRow 0 { row42 with ctr := 3 }))
    t.port 0x020 = 3 ∧ t.port 0x021 = 0 := by decide +kernel
/-- 42_stream_manager R157 and R158, worked example. -/
theorem test_checkpoint : (after (exec .checkpoint ready)).block.shadow = ready.block.mgr := by
  decide +kernel
theorem test_rollback : (after (exec .rollback
    ((ready.setShadow ready.block.mgr).setCkpt.setRow 1 Row.zero))).row 1 = row42 := by decide +kernel
/-- 44_reward R195, worked example. -/
theorem test_pityReset : (after (exec .pityReset (State.reset.setCfg cfg42))).port 0x016 = 5 := by
  decide +kernel
/-- 41_draws R127 by the row of R156's worked example: 5 replayed draws from seed 42. -/
theorem test_streamNew : (after (exec (.streamNew 4) ((ready.setOpa 42).setOpb 5))).row 4 =
    ⟨0xE661DF094DC7E080, 0x0D8705047342F11A, 5⟩ := by decide +kernel
/-- 41_draws R128, worked example, with a redraw: two raw draws, one count. -/
theorem test_drawBounded : (after (exec (.drawBounded 0) (ready.setOpa 10))).block.res0 = 4 := by
  decide +kernel
theorem test_drawBounded_redraw :
    let t := after (exec (.drawBounded 0)
      ((after (exec .init (State.reset.setOpa 3))).setOpa 0x4000000000000001))
    t.block.res0 = 0x1FED002FBC6EFFF1 ∧ (t.row 0).ctr = 1 := by decide +kernel
/-- 41_draws R129, worked examples; a second draw from the row after one (0, 99) draw gives 41. -/
theorem test_drawRange : (after (exec (.drawRange 0) (ready.setOpb 99))).block.res0 = 24 := by
  decide +kernel
theorem test_drawRange_negative : (after (exec (.drawRange 0)
    (((ready.setRow 0 (row42.drawn 1)).setOpa (toU64 (-5))).setOpb 5))).block.res0 = toU64 (-1) := by
  decide +kernel
/-- 41_draws R130, worked example: the first and the third draw. -/
theorem test_drawBool : (after (exec (.drawBool 0) ready)).block.res0 = 1 := by decide +kernel
theorem test_drawBool_third :
    (after (exec (.drawBool 0) (ready.setRow 0 (row42.drawn 1)))).block.res0 = 0 := by decide +kernel
/-- 41_draws R131, worked example: the comparison is strict. -/
theorem test_drawChance_equal :
    (after (exec (.drawChance 1) (ready.setOpa 0x3E454168))).block.res0 = 0 := by decide +kernel
theorem test_drawChance_above :
    (after (exec (.drawChance 1) (ready.setOpa 0x3E454169))).block.res0 = 1 := by decide +kernel
/-- 41_draws R132, worked example. -/
theorem test_drawFloat : (after (exec (.drawFloat 0) ready)).block.res0 = 0x31505A := by decide +kernel
/-- 41_draws R134, worked example. -/
theorem test_drawLong : (after (exec (.drawLong 0) ready)).block.res0 = 0x31505AF788D81771 := by
  decide +kernel
/-- 43_shuffle R180, worked example. -/
theorem test_shuffle : let t := after (exec (.shuffle 9) ((((((ready.setItem 0 10).setItem 1 11).setItem 2
      12).setItem 3 13).setItem 4 14).setOpa 5))
    t.block.items = [(0, 13), (1, 12), (2, 10), (3, 11), (4, 14)] ∧
      t.row 9 = ⟨0x42CE675251912B41, 0xE661DF094DC7E080, 4⟩ := by decide +kernel
/-- 44_reward R193, worked example: call 1 (UNCOMMON) and call 2 (COMMON). -/
theorem test_rollRarity : let t := after (exec (.rollRarity 0) readyReward)
    t.block.res0 = 1 ∧ t.block.res1 = 24 ∧ t.block.pityOffset = 5 := by decide +kernel
theorem test_rollRarity_common :
    let t := after (exec (.rollRarity 0) (readyReward.setRow 0 (row42.drawn 0)))
    t.block.res0 = 0 ∧ t.block.res1 = 41 ∧ t.block.pityOffset = 4 := by decide +kernel
/-- 44_reward R194, worked example. -/
theorem test_genRewards : let t := after (exec (.genRewards 0) (readyReward.setOpa 3))
    t.port 0x080 = 0x8000000100000001 ∧ t.port 0x081 = 0x8000000000000001 ∧
      t.port 0x082 = 0x8000000000000002 ∧ t.port 0x083 = 0 ∧ t.block.res0 = 3 ∧
      t.block.pityOffset = 3 ∧ (t.row 0).ctr = 6 := by decide +kernel
/-- 44_reward R197, worked example: `POOLS 2, 1, 1`, four slots. -/
theorem test_genRewards_exhausted : let t := after (exec (.genRewards 0) (((readyReward.setCfg
      ⟨false, 0, 3, 37, 5, 0xFFD8, 1, 0, 2, 1, 1⟩).setOpa 4).setCmd 0x022))
    t.port 0x001 = 0x22060601 ∧ (t.row 0).ctr = 7 ∧ t.port 0x083 = 0 := by decide +kernel

/-! ### The port -/

/-- 20_memory R66, worked example: both words set `PITY_FLOOR` to -40. -/
theorem test_pityFloor : ([0xFFFFFFFFFFFFFFD8, 0x000000000000FFD8].all fun v =>
    decide ((after (step (withMove (.write 0x014 v) State.reset))).port 0x014 = 0xFFFFFFFFFFFFFFD8)) = true := by
  decide +kernel
/-- 00_scope R6 and 93_implementation_defined G1: the finalizer's defaults give R101's worked example. -/
theorem test_seedInit :
    seedInit Config.default 1 = (0xB456BCFC34C2CB2C, 0x7D6E4AC38B2B1BE2) ∧
      seedInit Config.default 0 = (0x8F780810AF31A493, 0xD1F9A22AF8E83383) := by decide +kernel
/-- The whole way of a command from its table word: decoded and run as the next step. -/
theorem test_withFetchWord : (after (step (State.reset.withFetchWord 32 0x002))).port 0x001 = 1 := by
  decide +kernel

/-! ### Witnesses: a concrete state and operands for the hypotheses of each obligation -/

/-- A raw draw accepted at once, by computation. -/
theorem accepted_of {p : Config} {r : Row} {j n : Nat} (hn : 1 ≤ n)
    (h : accepts (r.bitsAt p j) n = true) : NoOverflow (r.bitsAt p j) n := (accepts_iff hn).1 h

theorem redraws_of {p : Config} {r : Row} {n : Nat} (hn : 1 ≤ n)
    (h : accepts (r.bitsAt p 0) n = true) : r.redraws p n 0 := redraws_zero (accepted_of hn h)

/-- `ready` with every counter at `CTR_MAX`. -/
def full : State := readyWith { row42 with ctr := 0xFFFFFFFF }

/-- `ready` with a checkpoint made. -/
def checked : State := (ready.setShadow ready.block.mgr).setCkpt

theorem witness_DecodeOfEncodeIsTheCommand :
    (Instr.drawRange 12).wellFormed = true ∧ (Instr.rollback).wellFormed = true := by decide

theorem witness_DecodedWordIsTheEncoding :
    decode 0xC12 = .command (.drawRange 12) ∧ decode 0x00A = .command .pityReset := by decide

/-- Each way to be illegal, at its boundary; a reserved stream; a legal word. -/
theorem witness_RejectedWordsFailByName :
    (withMove (.write cmdAddr 0x1000) ready).moves = [.write cmdAddr 0x1000] ∧
    2 ^ 12 ≤ (0x1000 : Word).toNat ∧
    ¬(formatNOpcode ((0x00B : Word).toNat % 256) ∨ formatSOpcode ((0x00B : Word).toNat % 256)) ∧
    (formatNOpcode ((0x10A : Word).toNat % 256) ∧ (0x10A : Word).toNat / 256 % 16 ≠ 0) ∧
    (formatSOpcode ((0xD22 : Word).toNat % 256) ∧ 13 ≤ (0xD22 : Word).toNat / 256 % 16) ∧
    (formatSOpcode ((0xC22 : Word).toNat % 256) ∧ ¬ 13 ≤ (0xC22 : Word).toNat / 256 % 16) := by
  decide

theorem witness_StepRunsTheDecodedCommand :
    (withMove (.write cmdAddr 0x912) ready).moves = [.write cmdAddr 0x912] ∧
    decode 0x912 = .command (.drawRange 9) ∧ decode (tableWord 32 0x912) = .command (.drawRange 9) := by
  decide

/-- The reserved and the read-only addresses at the ends of their ranges. -/
theorem witness_ReservedAndReadOnlyAddresses :
    reservedAddr 0x006 ∧ reservedAddr 0x00F ∧ reservedAddr 0x01B ∧ reservedAddr 0x03F ∧
    reservedAddr 0x043 ∧ reservedAddr 0x073 ∧ reservedAddr 0x074 ∧ reservedAddr 0x090 ∧
    reservedAddr 0x3FF ∧ readOnlyAddr 0x001 ∧ readOnlyAddr 0x00A ∧ readOnlyAddr 0x040 ∧
    readOnlyAddr 0x072 ∧ readOnlyAddr 0x080 ∧ readOnlyAddr 0x08F ∧
    (withMove (.write 0x08F 1) ready).moves = [.write 0x08F 1] := by
  refine ⟨by simp [reservedAddr], by simp [reservedAddr], by simp [reservedAddr], by simp [reservedAddr],
    ?_, ?_, by simp [reservedAddr], by simp [reservedAddr], by simp [reservedAddr],
    by simp [readOnlyAddr], by simp [readOnlyAddr], ?_, ?_, by simp [readOnlyAddr], by simp [readOnlyAddr],
    rfl⟩
  · exact .inr (.inr (.inr (.inr (.inl ⟨0, by decide, rfl⟩))))
  · exact .inr (.inr (.inr (.inr (.inl ⟨12, by decide, rfl⟩))))
  · exact .inr (.inr (.inr (.inr (.inl ⟨0, 0, by decide, by decide, rfl⟩))))
  · exact .inr (.inr (.inr (.inr (.inl ⟨12, 2, by decide, by decide, rfl⟩))))

theorem witness_NarrowRegistersKeepLowBits :
    ((0x018 : Addr) ≠ cmdAddr ∧ 0x018 ≤ (0x018 : Addr).toNat ∧ (0x018 : Addr).toNat ≤ 0x01A) ∧
    ((0x02C : Addr) ≠ cmdAddr ∧ 0x020 ≤ (0x02C : Addr).toNat ∧ (0x02C : Addr).toNat ≤ 0x02C) ∧
    (withMove (.write 0x011 0x8000) ready).moves = [.write 0x011 0x8000] := by decide

theorem witness_AddressMapAndHostWrites :
    (withMove (.write 0x7FF 5) ready).moves = [.write 0x7FF 5] ∧ (0x7FF : Addr) ≠ cmdAddr ∧
    0x400 ≤ (0x7FF : Addr).toNat ∧ 0x400 ≤ (0x400 : Addr).toNat := by decide

theorem witness_HostReadReturnsTheWord :
    (withMove (.read 0x004) ready).moves = [.read 0x004] := rfl

theorem witness_HardResetClearsTheBlock :
    (withMove .reset ready).moves = [.reset] ∧ (0x3FF : Addr).toNat < 0x400 ∧
    0x400 ≤ (0x7FF : Addr).toNat := by decide

theorem witness_AfterResetWhatAHostSees :
    State.reset.block = Block.reset ∧ (Instr.drawBool 12).wellFormed = true ∧ needsInit (.drawBool 12) ∧
    needsInit .checkpoint := by
  refine ⟨rfl, rfl, .inr (by simp [Instr.sid?]), .inl (by simp)⟩

theorem witness_RaiseRecordsTheFirstError :
    ready.block.status.errFirst = none ∧
    (ready.setStatus ⟨true, false, none, some .badArg, 0x011⟩).block.status.errFirst ≠ none := by decide

/-- A failing draw; `GEN_REWARDS` failing on its count, and on its stream. -/
theorem witness_FailingCommandsArePrecise :
    (exec (.drawBounded 0) ready = .next (after (exec (.drawBounded 0) ready)) ∧
      (after (exec (.drawBounded 0) ready)).block.status.err = some .badArg) ∧
    (exec (.genRewards 0) (ready.setOpa 17) = .next (after (exec (.genRewards 0) (ready.setOpa 17))) ∧
      (after (exec (.genRewards 0) (ready.setOpa 17))).block.status.err = some .badArg ∧
      16 < (ready.setOpa 17).countOperand) ∧
    (after (exec (.genRewards 13) ready)).block.status.err = some .badStream ∧
    (after (exec .rollback ready)).block.status.err = some .noCkpt := by
  refine ⟨⟨eq_next_after ?_, ?_⟩, ⟨eq_next_after ?_, ?_, ?_⟩, ?_, ?_⟩ <;> decide +kernel

theorem witness_StreamThenInitAreCheckedFirst :
    (Instr.shuffle 13).wellFormed = false ∧ (Instr.shuffle 12).wellFormed = true ∧
    needsInit (.shuffle 12) ∧ State.reset.block.status.init = false :=
  ⟨rfl, rfl, .inr (by simp [Instr.sid?]), rfl⟩

theorem witness_CommandsLeaveOperandsAndConfiguration :
    exec (.drawLong 0) ready = .next (after (exec (.drawLong 0) ready)) :=
  eq_next_after (by decide +kernel)

/-- A command that fails, one without a result, one with `RES0` only. -/
theorem witness_ResultsOnlyFromCompletingCommands :
    (after (exec (.drawLong 0) full)).block.status.err ≠ none ∧
    exec (.drawLong 0) full = .next (after (exec (.drawLong 0) full)) ∧
    exec (.shuffle 0) ready = .next (after (exec (.shuffle 0) ready)) ∧
    exec (.drawLong 0) ready = .next (after (exec (.drawLong 0) ready)) := by
  refine ⟨?_, eq_next_after ?_, eq_next_after ?_, eq_next_after ?_⟩ <;> decide +kernel

theorem witness_FuelRunsOutExactlyWhenTheLoopNeverEnds : 1 ≤ (1 : Nat) := le_refl 1

theorem witness_SeedInitPair : (1 : Word) ≠ 0 := by decide

theorem witness_BoundedDrawTakesAndAccepts :
    Config.default.boundedLow = 1 ∧ 1 ≤ (2 ^ 63 - 1 : Nat) ∧ (2 ^ 63 - 1 : Nat) < 2 ^ 63 := by decide

/-- `n` illegal at 0, counter full, and one redraw (41_draws R128, redraw example). -/
theorem witness_DrawBoundedResult :
    streamId? 12 = some 12 ∧ ready.block.status.init = true ∧ ready.block.opa.toInt ≤ 0 ∧
    (0 < (full.setOpa 1).block.opa.toInt ∧ ((full.setOpa 1).row 12).ctr.toNat = 2 ^ 32 - 1) ∧
    (0 < (ready.setOpa 10).block.opa.toInt ∧ ((ready.setOpa 10).row 12).ctr.toNat < 2 ^ 32 - 1 ∧
      ((ready.setOpa 10).row 12).redraws Config.default (ready.setOpa 10).block.opa.toNat 0) := by
  refine ⟨by decide, by decide, by decide, by decide, by decide, by decide, ?_⟩
  exact redraws_of (by decide) (by decide +kernel)

/-- One redraw (41_draws R128, redraw example). -/
theorem witness_redraws : (Row.seeded Config.default 3).redraws Config.default 0x4000000000000001 1 := by
  refine ⟨by decide, accepted_of (by decide) (by decide +kernel), fun j hj => ?_⟩
  rw [show j = 0 by omega, ← accepts_iff (by decide)]
  decide +kernel

theorem witness_PowerOfTwoBoundNeverRedraws :
    streamId? 0 = some 0 ∧ ready.block.status.init = true ∧ (ready.row 0).ctr.toNat < 2 ^ 32 - 1 ∧
    (62 : Nat) < 63 ∧ (ready.setOpa 0x4000000000000000).block.opa = BitVec.ofNat 64 (2 ^ 62) := by decide

/-- `hi < lo` by one, `hi = lo` on a full counter, and a range of 100. -/
theorem witness_DrawRangeResult :
    streamId? 0 = some 0 ∧ ready.block.status.init = true ∧
    ((ready.setOpb 0xFFFFFFFF).block.opb.extractLsb' 0 32).toInt < (ready.block.opa.extractLsb' 0 32).toInt ∧
    ((full.block.opa.extractLsb' 0 32).toInt ≤ (full.block.opb.extractLsb' 0 32).toInt ∧
      (full.row 0).ctr.toNat = 2 ^ 32 - 1) ∧
    ((ready.row 0).ctr.toNat < 2 ^ 32 - 1 ∧ (ready.row 0).redraws Config.default 100 0) :=
  ⟨by decide, by decide, by decide, by decide, by decide, redraws_of (by decide) (by decide +kernel)⟩

theorem witness_RawDrawResults :
    streamId? 0 = some 0 ∧ full.block.status.init = true ∧ (full.row 0).ctr.toNat = 2 ^ 32 - 1 ∧
    ready.block.status.init = true ∧ (ready.row 0).ctr.toNat < 2 ^ 32 - 1 := by decide

theorem witness_DrawChanceResult :
    streamId? 0 = some 0 ∧ full.block.status.init = true ∧ (full.row 0).ctr.toNat = 2 ^ 32 - 1 ∧
    (readyWith { row42 with ctr := 0xFFFFFFFE }).block.status.init = true ∧
    ((readyWith { row42 with ctr := 0xFFFFFFFE }).row 0).ctr.toNat < 2 ^ 32 - 1 := by decide

/-- The largest finite pattern, the infinity, 1.0 and -0. -/
theorem witness_LessThanProbabilityIsExact :
    (2 ^ 24 - 1 : Nat) < 2 ^ 24 ∧ ((0x7F7FFFFF : BitVec 32).extractLsb' 23 8).toNat ≠ 255 ∧
    ((0x7F800000 : BitVec 32).extractLsb' 23 8).toNat = 255 ∧
    (0x3F800000 ≤ (0x3F800000 : BitVec 32).toNat ∧ (0x3F800000 : BitVec 32).toNat ≤ 0x7F800000) ∧
    0x80000000 ≤ (0x80000000 : BitVec 32).toNat := by decide

theorem witness_StreamDrawsFrame :
    exec (.drawBool 3) ready = .next (after (exec (.drawBool 3) ready)) ∧
    exec (.streamNew 3) ready = .next (after (exec (.streamNew 3) ready)) := by
  refine ⟨eq_next_after ?_, eq_next_after ?_⟩ <;> decide +kernel

theorem witness_StreamNewBuildsTheReplayedRow :
    streamId? 0 = some 0 ∧ ready.block.status.init = true ∧
    (Row.seeded Config.default 42).replaysPlainly Config.default 2 := by
  refine ⟨by decide, by decide, fun j hj => accepted_of (by decide) ?_⟩
  interval_cases j <;> decide +kernel

theorem witness_ReplayIsLiteralDraws : ∃ t u v : State, streamId? 0 = some 0 ∧ 1 + 1 < 2 ^ 32 ∧
    exec (.streamNew 0) (ready.setOpb (BitVec.ofNat 64 1)) = .next t ∧
    exec (.drawRange 0) ((t.setOpa 0).setOpb 999) = .next u ∧ u.block.status.err = none ∧
    exec (.streamNew 0) (ready.setOpb (BitVec.ofNat 64 (1 + 1))) = .next v := by
  refine ⟨_, _, _, by decide, by decide, eq_next_after ?_, eq_next_after ?_, ?_, eq_next_after ?_⟩ <;>
    decide +kernel

theorem witness_FloorAdvReplacesPerFloorStreams :
    State.reset.block.status.init = false ∧ ready.block.status.init = true := by decide

/-- Act 4 is too large for the default table of four acts, act 3 is not. -/
theorem witness_ActSeedReplacesTheMapStream :
    State.reset.block.status.init = false ∧ ready.block.status.init = true ∧
    (ready.setOpa 4).params.actOffset.length ≤ (ready.setOpa 4).block.opa.toNat % 2 ^ 8 ∧
    (ready.setOpa 3).block.opa.toNat % 2 ^ 8 < (ready.setOpa 3).params.actOffset.length := by decide

/-- Each clause at a boundary of its range; 249 and 499 and 749 replay one draw. -/
theorem witness_ActSnapMapsTheCardCounter :
    State.reset.block.status.init = false ∧ ready.block.status.init = true ∧
    ([0, 250, 500, 750, 751].all fun c => decide (snapTarget c = none)) = true ∧
    ([1, 249].all fun c => decide (0 < c ∧ c < 250)) = true ∧
    ([251, 499].all fun c => decide (250 < c ∧ c < 500)) = true ∧
    ([501, 749].all fun c => decide (500 < c ∧ c < 750)) = true ∧
    ((readyWith { row42 with ctr := 249 }).row 0).replaysPlainly Config.default 1 ∧
    exec .actSnap (readyWith { row42 with ctr := 249 }) =
      .next (after (exec .actSnap (readyWith { row42 with ctr := 249 }))) := by
  refine ⟨by decide, by decide, by decide, by decide, by decide, by decide, fun j hj => ?_,
    eq_next_after (by decide +kernel)⟩
  rw [show j = 0 by omega]
  exact accepted_of (by decide) (by decide +kernel)

theorem witness_SnapshotCopiesTheCounters :
    State.reset.block.status.init = false ∧ ready.block.status.init = true := by decide

/-- Act 4 in `OPB[39:32]` is illegal; with act 3 and all counters 0 every replay is empty. -/
theorem witness_RestoreRebuildsTheManager :
    (ready.setOpb 0x400000000).params.actOffset.length ≤ 0x400000000 / 2 ^ 32 % 2 ^ 8 ∧
    0x300000000 / 2 ^ 32 % 2 ^ 8 < (ready.setOpb 0x300000000).params.actOffset.length ∧
    exec .restore (ready.setOpb 0x300000000) = .next (after (exec .restore (ready.setOpb 0x300000000))) ∧
    ∀ r : Row, r.replaysPlainly Config.default ready.block.snap[0].toNat := by
  have h0 : ready.block.snap[0].toNat = 0 := by decide
  exact ⟨by decide, by decide, eq_next_after (by decide +kernel), fun r j hj => by omega⟩

theorem witness_CheckpointCopiesTheManager :
    State.reset.block.status.init = false ∧ ready.block.status.init = true := by decide

theorem witness_RollbackCopiesTheShadowBank :
    ready.block.status.ckpt = false ∧ checked.block.status.ckpt = true := by decide

/-- A checkpoint, a speculative draw on the monster stream, and a rollback. -/
theorem witness_ManagerAfterRollbackIsTheCheckpointed :
    ∃ c t u : State, (withMove (.write cmdAddr 0x113) ready).block.status.init = true ∧
      exec .checkpoint (withMove (.write cmdAddr 0x113) ready) = .next c ∧
      Host.Core.run core 1 c = .next t ∧
      (∀ m ∈ c.moves, m ≠ .reset ∧ ∀ w, m = .write cmdAddr w → decode w ≠ .command .checkpoint) ∧
      exec .rollback t = .next u := by
  let s := withMove (.write cmdAddr 0x113) ready
  let c := after (exec .checkpoint s)
  refine ⟨c, after (step c), after (exec .rollback (after (step c))), by decide,
    eq_next_after (by decide +kernel), ?_, ?_, eq_next_after (by decide +kernel)⟩
  · have h : step c = .next (after (step c)) := eq_next_after (by decide +kernel)
    exact (congrArg (fun o => match o with
      | .next t => Host.Core.run core 0 t
      | .fault r => .fault r
      | .refused r => .refused r) h)
  · have hm : c.moves = [.write cmdAddr 0x113] := by decide +kernel
    rw [hm]
    intro m h
    rw [List.mem_singleton.1 h]
    refine ⟨by simp, fun w hw => ?_⟩
    cases hw
    decide

theorem witness_StatusAfterEveryCommand :
    exec .clrerr ready = .next (after (exec .clrerr ready)) ∧
    (exec .rollback ready = .next (after (exec .rollback ready)) ∧
      (after (exec .rollback ready)).block.status.err ≠ none ∧ ready.block.status.errFirst = none) := by
  refine ⟨eq_next_after ?_, eq_next_after ?_, ?_, ?_⟩ <;> decide +kernel

theorem witness_StatusFlagsAreClearedOnlyAsTheTableSays :
    ∃ s t : State, step s = .next t ∧ (∀ rest, s.moves ≠ .reset :: rest) ∧
      s.block.status.init = true ∧ s.block.status.ckpt = false ∧ s.block.status.errFirst ≠ none ∧
      nextMoveIsNot .clrerr s ∧ nextMoveIsNot .checkpoint s := by
  refine ⟨withMove (.read 0) (ready.setStatus ⟨true, false, none, some .badArg, 0⟩), _, rfl, ?_, rfl, rfl,
    by decide, ?_, ?_⟩
  · intro rest h; cases h
  · intro m rest h; cases h; simp
  · intro m rest h; cases h; simp

theorem witness_FormatNFrame :
    Instr.pityReset.sid? = none ∧ Instr.pityReset ≠ .checkpoint ∧
    exec .pityReset ready = .next (after (exec .pityReset ready)) :=
  ⟨rfl, by decide, eq_next_after rfl⟩

/-- `len` 1025; `len` 2 on a full counter; `len` 3 with both draws accepted at once. -/
theorem witness_ShuffleResult :
    streamId? 9 = some 9 ∧ ready.block.status.init = true ∧ 1024 < (1025 : Word).toNat % 2 ^ 16 ∧
    2 ^ 32 - 1 < (full.row 9).ctr.toNat + (2 - 1) ∧
    (ready.row 9).ctr.toNat + (3 - 1) ≤ 2 ^ 32 - 1 ∧
    ∀ k, 1 ≤ k → k < 3 → NoOverflow ((ready.row 9).bitsAt Config.default (3 - 1 - k)) (k + 1) := by
  refine ⟨by decide, by decide, by decide, by decide, by decide, fun k h1 h2 => ?_⟩
  interval_cases k
  · exact accepted_of (by decide) (by decide +kernel)
  · exact accepted_of (by decide) (by decide +kernel)

theorem witness_ShufflePermutesAndCounts :
    streamId? 9 = some 9 ∧
    exec (.shuffle 9) (ready.setOpa 3) = .next (after (exec (.shuffle 9) (ready.setOpa 3))) ∧
    (after (exec (.shuffle 9) (ready.setOpa 3))).block.status.err = none := by
  refine ⟨by decide, eq_next_after ?_, ?_⟩ <;> decide +kernel

theorem witness_EngineCommandsFrame :
    exec (.shuffle 9) (ready.setOpa 3) = .next (after (exec (.shuffle 9) (ready.setOpa 3))) ∧
    exec (.rollRarity 0) readyReward = .next (after (exec (.rollRarity 0) readyReward)) ∧
    exec (.genRewards 0) (readyReward.setOpa 3) =
      .next (after (exec (.genRewards 0) (readyReward.setOpa 3))) := by
  refine ⟨eq_next_after ?_, eq_next_after ?_, eq_next_after ?_⟩ <;> decide +kernel

/-- A full counter; a roll of 24 with thresholds that make it RARE, UNCOMMON and COMMON in turn, at the edge
of each. -/
theorem witness_RollRarityResult :
    streamId? 0 = some 0 ∧ full.block.status.init = true ∧ (full.row 0).ctr.toNat = 2 ^ 32 - 1 ∧
    (readyReward.row 0).ctr.toNat < 2 ^ 32 - 1 ∧ (readyReward.row 0).redraws Config.default 100 0 ∧
    (readyReward.row 0).bitsAt Config.default 0 % 100 = 24 ∧
    rarityOf { cfg42 with rarePct := 25 } 24 = .rare ∧
    rarityOf { cfg42 with rarePct := 24, uncPct := 1 } 24 = .uncommon ∧
    rarityOf { cfg42 with rarePct := 24, uncPct := 0 } 24 = .common :=
  ⟨by decide, by decide, by decide, by decide, redraws_of (by decide) (by decide +kernel),
    by decide +kernel, by decide, by decide, by decide⟩

theorem witness_PityOffsetAfterCommonResults :
    1 ≤ (1 : Nat) ∧ cfg42.pityFloor.toInt ≤ (0xFFD8 : BitVec 16).toInt := by decide

/-- A count of 17; a full counter and one that the roll fills; one slot: the roll 24 (UNCOMMON) and an index
draw on that pool. -/
theorem witness_GenRewardsSmallBatches :
    streamId? 0 = some 0 ∧ readyReward.block.status.init = true ∧ 16 < (17 : Word).toNat % 2 ^ 8 ∧
    (full.row 0).ctr.toNat = 2 ^ 32 - 1 ∧ (1 ≤ (16 : Word).toNat % 2 ^ 8 ∧ (16 : Word).toNat % 2 ^ 8 ≤ 16) ∧
    ((readyWith { row42 with ctr := 0xFFFFFFFE }).row 0).ctr.toNat = 2 ^ 32 - 2 ∧
    ((readyWith { row42 with ctr := 0xFFFFFFFE }).row 0).redraws Config.default 100 0 ∧
    readyReward.block.cfg.upgMode ≠ 3 ∧ (readyReward.row 0).ctr.toNat + 3 ≤ 2 ^ 32 - 1 ∧
    (readyReward.row 0).redraws Config.default 100 0 ∧
    rarityOfRoll cfg42 5 ((readyReward.row 0).bitsAt Config.default 0 % 100) = .uncommon ∧
    cfg42.poolSize .uncommon ≠ 0 ∧ ({ cfg42 with poolUncommon := 0 } : RewardConfig).poolSize .uncommon = 0 ∧
    ((readyReward.row 0).drawn 0).redraws Config.default (cfg42.poolSize .uncommon) 0 :=
  ⟨by decide, by decide, by decide, by decide, by decide, by decide,
    redraws_of (by decide) (by decide +kernel), by decide, by decide,
    redraws_of (by decide) (by decide +kernel), by decide +kernel, by decide, by decide,
    redraws_of (by decide) (by decide +kernel)⟩

/-- Both rolls COMMON (no other rarity is possible with these percentages); on a pool of three the second
index draw repeats the first index and the third does not, on a pool of one the batch is exhausted. -/
theorem witness_GenRewardsSecondSlot :
    let cfg : RewardConfig := { cfg42 with rarePct := 0, uncPct := 0 }
    let p := Config.default
    let start := readyReward.row 0
    let rolled := start.drawn 0
    let picked := rolled.drawn 0
    let again := (picked.drawn 0).drawn 0
    rarityOfRoll cfg 5 (start.bitsAt p 0 % 100) = .common ∧ offsetAfter cfg 5 .common = 4 ∧
    rarityOfRoll cfg 4 (picked.bitsAt p 0 % 100) = .common ∧ cfg.poolSize .common = 3 ∧
    ({ cfg with poolCommon := 1 } : RewardConfig).poolSize .common = 1 ∧
    start.ctr.toNat + 7 ≤ 2 ^ 32 - 1 ∧ start.redraws p 100 0 ∧ picked.redraws p 100 0 ∧
    (∀ n, n = 1 ∨ n = 3 → rolled.redraws p n 0) ∧
    ((picked.drawn 0).redraws p 3 0 ∧ (picked.drawn 0).bitsAt p 0 % 3 = rolled.bitsAt p 0 % 3) ∧
    again.redraws p 3 0 ∧ again.bitsAt p 0 % 3 ≠ rolled.bitsAt p 0 % 3 := by
  refine ⟨by decide +kernel, by decide, by decide +kernel, by decide, by decide, by decide,
    redraws_of (by decide) (by decide +kernel), redraws_of (by decide) (by decide +kernel), ?_,
    ⟨redraws_of (by decide) (by decide +kernel), by decide +kernel⟩,
    redraws_of (by decide) (by decide +kernel), by decide +kernel⟩
  rintro n (rfl | rfl) <;> exact redraws_of (by decide) (by decide +kernel)

/-- The hypotheses of the plain batch on 44_reward R194's worked example of three slots. -/
theorem witness_GenRewardsPlainBatch :
    let r := readyReward.row 0
    let roll (k : Nat) : Nat := r.bitsAt Config.default (2 * k) % 100
    let rarity := batchRarity cfg42 5 roll
    let index (k : Nat) : Nat := r.bitsAt Config.default (2 * k + 1) % cfg42.poolSize (rarity k)
    r.ctr.toNat + 3 * 2 ≤ 2 ^ 32 - 1 ∧
    (∀ k, k < 3 → accepts (r.bitsAt Config.default (2 * k)) 100 = true) ∧
    (∀ k, k < 3 → ((List.range k).countP fun j => rarity j = rarity k) < cfg42.poolSize (rarity k)) ∧
    (∀ k, k < 3 →
      accepts (r.bitsAt Config.default (2 * k + 1)) (cfg42.poolSize (rarity k)) = true) ∧
    (∀ k, k < 3 → ∀ j, j < k → ¬(rarity j = rarity k ∧ index j = index k)) := by
  decide +kernel

theorem witness_GenRewardsFillsDistinctSlots :
    streamId? 0 = some 0 ∧ readyReward.block.status.init = true ∧ (readyReward.setOpa 16).countOperand ≤ 16 ∧
    readyReward.block.cfg.upgMode ≠ 3 ∧
    exec (.genRewards 0) (readyReward.setOpa 16) =
      .next (after (exec (.genRewards 0) (readyReward.setOpa 16))) ∧
    (after (exec (.genRewards 0) (readyReward.setOpa 16))).block.status.err = some .poolExhausted ∧
    (after (exec (.genRewards 0) (readyReward.setOpa 3))).block.status.err = none ∧
    (after (exec (.genRewards 0) ((readyReward.setCfg { cfg42 with poolUncommon := 0 }).setOpa
      3))).block.status.err = some .badArg := by
  refine ⟨?_, ?_, ?_, ?_, eq_next_after ?_, ?_, ?_, ?_⟩ <;> decide +kernel

/-- A state that meets the invariant with `INIT` and `CKPT` at 1, and a step from it. -/
theorem witness_EveryStepKeepsTheInvariant :
    checked.Inv ∧ ∃ t, step (withMove (.write 0x7FF 1) checked) = .next t := by
  have hrow : ∀ i, (checked.row i).live := by
    intro i
    have h : ∀ i, checked.row i = row42 := by decide
    rw [h i]
    exact fun h => absurd h.1 (by decide)
  exact ⟨⟨fun _ => ⟨by decide, hrow⟩, fun h => absurd h (by decide), fun _ => by decide,
    fun _ => ⟨by decide, hrow⟩, fun _ => by decide, by decide⟩, _, rfl⟩

/-- Two states that differ in `ITEM` only. -/
theorem witness_ItemContentInfluencesNothingElse :
    (ready.setItem 0 1).withoutItems = (ready.setItem 0 2).withoutItems ∧
    (ready.setItem 0 1).block.items ≠ (ready.setItem 0 2).block.items := by decide

theorem witness_MacroRunsItsCommand : ∃ s : State, legalSid 12 = true ∧
    s.moves = (AsmLine.drawRange 12 (-5) 5).expand := ⟨{ ready with moves := _ }, by decide, rfl⟩

/-- Reset memory is in its canonical form, and a write keeps it (log 5). -/
theorem test_items_wf : State.reset.block.items.wf = true ∧ ∀ k v, k < itemDepth →
    (State.reset.setItem k v).block.items.wf = true :=
  ⟨rfl, fun _ _ hk => Memory.wf_write rfl hk⟩

end Sys2Proof.Tests
end

