-- ==== Sys2Proof/Proofs/StepCases.lean ====
section
/-! What one step of the machine can do, said once: one case for each kind of host move. -/

namespace Sys2Proof.Machine

/-- Everything a step can do: nothing, a reset, a read, a write elsewhere than `CMD`, or a word issued. -/
theorem step_cases {s t : State} (h : step s = .next t) :
    (s.moves = [] ∧ t = s) ∨
    (∃ rest, s.moves = .reset :: rest ∧ t = hardReset (s.take rest)) ∨
    (∃ a rest, s.moves = .read a :: rest ∧ t = hostRead a (s.take rest)) ∨
    (∃ a v rest, s.moves = .write a v :: rest ∧ a ≠ cmdAddr ∧ t = hostWrite a v (s.take rest)) ∨
    (∃ w rest, s.moves = .write cmdAddr w :: rest ∧ issue w (s.take rest) = .next t) := by
  unfold step at h
  split at h
  next hm => cases h; exact .inl ⟨hm, rfl⟩
  next a v rest hm =>
    split at h
    next ha => subst ha; exact .inr (.inr (.inr (.inr ⟨v, rest, hm, h⟩)))
    next ha => cases h; exact .inr (.inr (.inr (.inl ⟨a, v, rest, hm, ha, rfl⟩)))
  next a rest hm => cases h; exact .inr (.inr (.inl ⟨a, rest, hm, rfl⟩))
  next rest hm => cases h; exact .inr (.inl ⟨rest, hm, rfl⟩)

/-- Everything an issued word can do: its command runs, or it is rejected with a code (30_encoding R84). -/
theorem issue_cases {w : Word} {s t : State} (h : issue w s = .next t) :
    (∃ i, decode w = .command i ∧ exec i (s.setCmd w) = .next t) ∨
    ∃ e, t = (s.setCmd w).raise e := by
  unfold issue at h
  split at h
  next i hw => exact .inl ⟨i, hw, h⟩
  next => cases h; exact .inr ⟨_, rfl⟩
  next => cases h; exact .inr ⟨_, rfl⟩

/-! ### What a host write leaves alone (20_memory R62, R65) -/

@[simp] theorem writeLoc_params (s : State) (v : Word) (l : Loc) : (s.writeLoc v l).params = s.params := by
  cases l <;> rfl
@[simp] theorem writeLoc_status (s : State) (v : Word) (l : Loc) :
    (s.writeLoc v l).block.status = s.block.status := by cases l <;> rfl
@[simp] theorem writeLoc_mgr (s : State) (v : Word) (l : Loc) :
    (s.writeLoc v l).block.mgr = s.block.mgr := by cases l <;> rfl
@[simp] theorem writeLoc_shadow (s : State) (v : Word) (l : Loc) :
    (s.writeLoc v l).block.shadow = s.block.shadow := by cases l <;> rfl

/-- A host write keeps the item memory canonical: an `ITEM` location names an entry below 1024. -/
theorem writeLoc_items_wf {s : State} (h : s.block.items.wf = true) (v : Word) (l : Loc) :
    (s.writeLoc v l).block.items.wf = true := by
  cases l with
  | item k => exact Memory.wf_write h k.isLt
  | _ => exact h

end Sys2Proof.Machine
end

