-- ==== Sys2Proof/Proofs/RowsLive.lean ====
section
/-! The generator never reaches the all-zero pair from a live one (10_state R32), and so neither does any
row's pseudocode. -/

namespace Sys2Proof.Machine

/-- A xorshift stage to the right sends only 0 to 0. -/
theorem eq_zero_of_xor_ushiftRight {x : Word} (h : x ^^^ (x >>> 17) = 0) : x = 0 := by
  have hx : x.toNat = (x >>> 17).toNat := congrArg BitVec.toNat (BitVec.xor_eq_zero_iff.1 h)
  rw [BitVec.toNat_ushiftRight, Nat.shiftRight_eq_div_pow] at hx
  exact BitVec.eq_of_toNat_eq (by change x.toNat = 0; omega)

/-- A xorshift stage to the left sends only 0 to 0. -/
theorem eq_zero_of_xor_shiftLeft {x : Word} (h : x ^^^ (x <<< 23) = 0) : x = 0 := by
  have hx : x = x <<< 23 := BitVec.xor_eq_zero_iff.1 h
  have hbit (i : Nat) : x.getLsbD i = false := by
    induction i using Nat.strong_induction_on with
    | _ i ih =>
      rw [hx, BitVec.getLsbD_shiftLeft]
      by_cases hi : i < 23
      · simp [hi]
      · simp [ih (i - 23) (by omega)]
  exact BitVec.eq_of_getLsbD_eq fun i _ => by rw [hbit]; exact BitVec.getLsbD_zero.symm

/-- One raw draw keeps a row live (40_generator R102): with the new pair zero, the old second word is zero
and the two xorshift stages give back a zero first word. -/
theorem Row.live.nextU64 {r : Row} (h : r.live) : (nextU64 r).2.live := by
  rintro ⟨h1, hn⟩
  have h1 : r.s1 = 0 := h1
  have ht : (r.s0 ^^^ (r.s0 <<< 23)) ^^^ ((r.s0 ^^^ (r.s0 <<< 23)) >>> 17) = 0 := by
    simpa [Machine.nextU64, h1] using hn
  exact h ⟨eq_zero_of_xor_shiftLeft (eq_zero_of_xor_ushiftRight ht), h1⟩

theorem Row.live.advance {r : Row} (h : r.live) (k : Nat) : (r.advance k).live := by
  induction k with
  | zero => exact h
  | succ k ih => rw [advance_succ']; exact ih.nextU64

theorem Row.live.drawn {r : Row} (h : r.live) (k : Nat) : (r.drawn k).live := h.advance (k + 1)

/-- Putting 1 in place of the first word of an all-zero pair leaves no all-zero pair. -/
theorem not_both_zero_of_patched (a b : Word) : ¬((if a = 0 ∧ b = 0 then 1 else a) = 0 ∧ b = 0) := by
  split
  next => exact fun h => absurd h.1 (by decide)
  next hne => exact hne

/-- Seeding makes a live row (40_generator R101). -/
theorem Row.seeded_live (p : Config) (seed : Word) : (Row.seeded p seed).live :=
  not_both_zero_of_patched _ _

/-! ### A row's pseudocode that keeps a live row live -/

/-- Whatever row the pseudocode leaves, completing or failing, is live if the row it began with was. -/
def KeepsLive {α : Type} (f : Row → Res Row α) : Prop := ∀ r r', r.live → (f r).leaves r' → r'.live

theorem IsDraw.keepsLive {α : Type} {f : Row → Res Row α} (hf : IsDraw f) : KeepsLive f := by
  rintro r r' h (⟨a, hr⟩ | ⟨e, hr⟩)
  · obtain ⟨-, k, rfl⟩ := hf.ok hr
    exact h.drawn k
  · rwa [hf.raised hr]

theorem replay_keepsLive (p : Config) (n : Nat) : KeepsLive (replay p n) := by
  induction n with
  | zero => intro r r' h hr; rwa [Res.leaves_ok.1 hr]
  | succ n ih =>
    intro r r' h hr
    have draw := (drawRange_isDraw p 0 999).keepsLive
    rcases Res.leaves_bind hr with ⟨e, hr⟩ | ⟨v, r1, h1, hr⟩
    · exact draw r r' h (.inr ⟨e, hr⟩)
    · exact ih r1 r' (draw r r1 h (.inl ⟨v, h1⟩)) hr

theorem construct_keepsLive (p : Config) (seed : Word) (n : Nat) : KeepsLive (construct p seed n) :=
  fun _ r' _ h => replay_keepsLive p n _ r' (Row.seeded_live p seed) h

end Sys2Proof.Machine
end

