-- ==== Sys2Proof/Proofs/Invariant.lean ====
section
/-! `State.Inv` is kept by every operation, so by every rule, command and host move. While `INIT` is 1 the
engines keep `State.Ready`, the invariant with `INIT`; `Res.Ensures` carries it through the pseudocode. -/

namespace Sys2Proof.Machine

/-! ### A property of every state that pseudocode leaves -/

/-- Whether it completes or fails, the pseudocode leaves a state with the property. -/
def Res.Ensures {σ α : Type} (P : σ → Prop) (x : Res σ α) : Prop := ∀ t, x.leaves t → P t

section
variable {σ α β : Type} {P Q : σ → Prop}

@[simp] theorem Res.ensures_ok {a : α} {s : σ} : (Res.ok a s).Ensures P ↔ P s := by
  simp [Res.Ensures]

@[simp] theorem Res.ensures_raised {e : Err} {s : σ} : (Res.raised e s : Res σ α).Ensures P ↔ P s := by
  simp [Res.Ensures]

theorem Res.Ensures.mono {x : Res σ α} (h : x.Ensures P) (hPQ : ∀ t, P t → Q t) : x.Ensures Q :=
  fun t ht => hPQ t (h t ht)

/-- What the first part and what follows it ensure, their sequence ensures. -/
theorem Res.Ensures.bind {x : Res σ α} {f : α → σ → Res σ β} (hx : x.Ensures P)
    (hf : ∀ a t, x = .ok a t → P t → (f a t).Ensures P) : (x.bind f).Ensures P := by
  intro t h
  rcases Res.leaves_bind h with ⟨e, h⟩ | ⟨a, u, hu, h⟩
  · exact hx t (.inr ⟨e, h⟩)
  · exact hf a u hu (hx u (.inl ⟨a, hu⟩)) t h

end

/-! ### The operations that keep the invariant -/

/-- The invariant reads the parameters, `STATUS`, the two managers and the form of the item memory only. -/
theorem State.Inv.congr {s t : State} (h : s.Inv) (hp : t.params = s.params)
    (hst : t.block.status = s.block.status) (hm : t.block.mgr = s.block.mgr)
    (hsh : t.block.shadow = s.block.shadow) (hi : t.block.items.wf = true) : t.Inv := by
  have hrow (i : StreamId) : t.row i = s.row i := congrArg (·.row i) hm
  obtain ⟨h1, h2, h3, h4, h5, -⟩ := h
  exact {
    mgr_legal := by rwa [hst, hm, hp]
    rows_zero := by simpa only [hst, hrow] using h2
    ckpt_init := by rwa [hst]
    shadow_legal := by rwa [hst, hsh, hp]
    errCmd_zero := by rwa [hst]
    items_wf := hi }

/-- A new `STATUS` with the same `INIT` and `CKPT` keeps the invariant if its sticky fields agree. -/
theorem State.Inv.setStatus {s : State} (h : s.Inv) {u : Status} (hi : u.init = s.block.status.init)
    (hc : u.ckpt = s.block.status.ckpt) (he : u.errFirst = none → u.errCmd = 0) : (s.setStatus u).Inv := by
  obtain ⟨h1, h2, h3, h4, -, h6⟩ := h
  exact ⟨hi ▸ h1, hi ▸ h2, by rwa [setStatus_status, hi, hc], hc ▸ h4, he, h6⟩

theorem State.Inv.complete {s : State} (h : s.Inv) : s.complete.Inv :=
  h.setStatus rfl rfl h.errCmd_zero

theorem State.Inv.rearm {s : State} (h : s.Inv) : s.rearm.Inv := h.setStatus rfl rfl fun _ => rfl

theorem State.Inv.raise {s : State} (h : s.Inv) (e : Err) : (s.raise e).Inv := by
  unfold State.raise
  split
  next => exact h.setStatus rfl rfl h.errCmd_zero
  next => exact h.setStatus rfl rfl nofun

/-- The invariant with `INIT` at 1: what holds while a command behind the initialisation check runs. -/
structure State.Ready (s : State) : Prop where
  inv : s.Inv
  init : s.block.status.init = true

theorem State.Ready.congr {s t : State} (h : s.Ready) (hp : t.params = s.params)
    (hst : t.block.status = s.block.status) (hm : t.block.mgr = s.block.mgr)
    (hsh : t.block.shadow = s.block.shadow) (hi : t.block.items.wf = true) : t.Ready :=
  ⟨h.inv.congr hp hst hm hsh hi, hst ▸ h.init⟩

theorem State.Ready.row_live {s : State} (h : s.Ready) (i : StreamId) : (s.row i).live :=
  (h.inv.mgr_legal h.init).rows_live i

/-- While `INIT` is 1 a legal manager may take the place of the manager. -/
theorem State.Ready.withMgr {s t : State} (h : s.Ready) (hp : t.params = s.params)
    (hst : t.block.status = s.block.status) (hm : t.block.mgr.Legal s.params)
    (hsh : t.block.shadow = s.block.shadow) (hi : t.block.items = s.block.items) : t.Ready := by
  obtain ⟨⟨-, -, h3, h4, h5, h6⟩, hinit⟩ := h
  refine ⟨⟨fun _ => hp ▸ hm, fun h0 => ?_, hst ▸ h3, ?_, hst ▸ h5, hi ▸ h6⟩, hst ▸ hinit⟩
  · rw [hst, hinit] at h0; cases h0
  · rw [hst, hsh, hp]; exact h4

theorem State.Ready.setRow {s : State} (h : s.Ready) (i : StreamId) {r : Row} (hr : r.live) :
    (s.setRow i r).Ready := by
  refine h.withMgr rfl rfl ⟨(h.inv.mgr_legal h.init).act_lt, fun j => ?_⟩ rfl rfl
  change ((s.setRow i r).row j).live
  rw [setRow_row]
  split
  · exact hr
  · exact h.row_live j

theorem State.Ready.setReward {s : State} (h : s.Ready) (k : Nat) (v : RewardSlot) :
    (s.setReward k v).Ready := h.congr rfl rfl rfl rfl h.inv.items_wf

theorem State.Ready.updatePity {s : State} (h : s.Ready) (r : Rarity) : (s.updatePity r).Ready := by
  rw [updatePity_eq]
  exact h.congr rfl rfl rfl rfl h.inv.items_wf

theorem State.Ready.setRes0 {s : State} (h : s.Ready) (v : Word) : (s.setRes0 v).Ready :=
  h.congr rfl rfl rfl rfl h.inv.items_wf

theorem State.Ready.swapItems {s : State} (h : s.Ready) {k j : Nat} (hk : k < itemDepth)
    (hj : j < itemDepth) : (s.swapItems k j).Ready :=
  h.congr rfl rfl rfl rfl (swapItems_wf h.inv.items_wf hk hj)

/-! ### The rules of the draws -/

theorem onRow_ready {α : Type} {f : Row → Res Row α} {s : State} (h : s.Ready) (i : StreamId)
    (hf : KeepsLive f) : (onRow i f s).Ensures State.Ready := by
  intro t ht
  obtain ⟨r, rfl, hr⟩ := onRow_leaves ht
  exact h.setRow i (hf _ r (h.row_live i) hr)

/-- A draw whose result goes to `RES0`. -/
theorem drawToRes0_ready {α : Type} {f : Row → Res Row α} {g : α → State → Word} {s : State}
    (h : s.Ready) (i : StreamId) (hf : IsDraw f) :
    ((onRow i f s).bind fun a s => .ok () (s.setRes0 (g a s))).Ensures State.Ready :=
  (onRow_ready h i hf.keepsLive).bind fun a u _ hu => Res.ensures_ok.2 (hu.setRes0 (g a u))

theorem drawBoundedRule_ready {s : State} (h : s.Ready) (i : StreamId) :
    (drawBoundedRule i s).Ensures State.Ready := by
  unfold drawBoundedRule
  split
  next => exact Res.ensures_raised.2 h
  next hn => exact drawToRes0_ready h i (drawBounded_isDraw _ (by omega))

/-! ### The rules of the manager -/

theorem constructEach_ready {seedOf : StreamId → Word} {countOf : StreamId → Nat} {is : List StreamId}
    {s : State} (h : s.Ready) : (constructEach seedOf countOf is s).Ensures State.Ready := by
  induction is generalizing s with
  | nil => exact Res.ensures_ok.2 h
  | cons i is ih => exact (onRow_ready h i (construct_keepsLive _ _ _)).bind fun _ _ _ hu => ih hu

theorem floorAdvRule_ready {s : State} (h : s.Ready) : (floorAdvRule s).Ensures State.Ready := by
  refine (constructEach_ready h).bind fun _ u _ hu => Res.ensures_ok.2 ?_
  obtain ⟨hact, hrows⟩ := hu.inv.mgr_legal hu.init
  exact hu.withMgr rfl rfl ⟨hact, hrows⟩ rfl rfl

theorem actSeedRule_ready {s : State} (h : s.Ready) : (actSeedRule s).Ensures State.Ready := by
  rcases Nat.lt_or_ge s.actOperand.toNat s.params.nActs with hl | hl
  · rw [actSeedRule_of_lt hl, Res.ensures_ok]
    have hu := h.setRow mapStream (Row.seeded_live s.params
      (s.block.mgr.baseSeed + actOffset s.params s.actOperand.toNat))
    exact hu.withMgr rfl rfl ⟨hl, hu.row_live⟩ rfl rfl
  · rw [actSeedRule_of_le hl, Res.ensures_raised]
    exact h

theorem actSnapRule_ready {s : State} (h : s.Ready) : (actSnapRule s).Ensures State.Ready := by
  unfold actSnapRule
  split
  next => exact Res.ensures_ok.2 h
  next => exact onRow_ready h cardStream (replay_keepsLive _ _)

theorem checkpointRule_ready {s : State} (h : s.Ready) : (checkpointRule s).Ensures State.Ready := by
  have legal := h.inv.mgr_legal h.init
  exact Res.ensures_ok.2 ⟨⟨fun _ => legal, h.inv.rows_zero, fun _ => h.init, fun _ => legal,
    h.inv.errCmd_zero, h.inv.items_wf⟩, h.init⟩

/-- `ROLLBACK` needs no `INIT` check: `CKPT` implies it (42_stream_manager R158). -/
theorem rollbackRule_inv {s : State} (h : s.Inv) : (rollbackRule s).Ensures State.Inv := by
  unfold rollbackRule
  split
  next hc =>
    have ready : s.Ready := ⟨h, h.ckpt_init hc⟩
    have rolled : (s.setMgr s.block.shadow).Ready := ready.withMgr rfl rfl (h.shadow_legal hc) rfl rfl
    exact Res.ensures_ok.2 rolled.inv
  next => exact Res.ensures_raised.2 h

/-- A rebuild that completes makes the manager legal, whatever it was (42_stream_manager R151, R156). -/
theorem rebuild_inv {seed : Word} {floor : BitVec 32} {act : BitVec 8} {countOf : StreamId → Nat}
    {s t : State} (h : s.Inv) (hact : act.toNat < s.params.nActs)
    (ht : rebuild seed floor act countOf s = .ok () t) : t.Inv := by
  obtain ⟨u, hu, rfl, hrows⟩ := rebuild_ok ht
  have same := hu.untouched
  have items : u.block.items = s.block.items := congrArg (·.block.items) hu.rest
  have live (i : StreamId) : (u.row i).live :=
    replay_keepsLive _ _ _ _ (Row.seeded_live _ _) (.inl ⟨(), hrows i⟩)
  exact {
    mgr_legal := fun _ => ⟨same.params ▸ hact, live⟩
    rows_zero := nofun
    ckpt_init := fun _ => rfl
    shadow_legal := fun hc => by
      have hc : u.block.status.ckpt = true := hc
      rw [same.status] at hc
      change u.block.shadow.Legal u.params
      rw [same.shadow, same.params]
      exact h.shadow_legal hc
    errCmd_zero := by
      change u.block.status.errFirst = none → u.block.status.errCmd = 0
      rw [same.status]
      exact h.errCmd_zero
    items_wf := items ▸ h.items_wf }

theorem initRule_inv {s : State} (h : s.Inv) : (initRule s).Ensures State.Inv := by
  rintro t (⟨_, ht⟩ | ⟨e, ht⟩)
  · have acts : 0 < s.params.nActs := List.length_pos_of_ne_nil s.params.actOffset_ne_nil
    exact rebuild_inv (act := 0) h acts ht
  · exact absurd ht initRule_ne_raised

theorem restoreRule_inv {s : State} (h : s.Inv) : (restoreRule s).Ensures State.Inv := by
  rintro t (⟨_, ht⟩ | ⟨e, ht⟩)
  · unfold restoreRule at ht
    split at ht
    next => cases ht
    next hlt => exact rebuild_inv h (by omega) ht
  · rwa [(restoreRule_raised ht).1]

/-! ### The rules of the engines -/

theorem shuffleFrom_ready {i : StreamId} {n : Nat} {s : State} (h : s.Ready) (hn : n < itemDepth) :
    (shuffleFrom i n s).Ensures State.Ready := by
  induction n generalizing s with
  | zero => exact Res.ensures_ok.2 h
  | succ n ih =>
    refine (onRow_ready h i (drawRange_isDraw _ _ _).keepsLive).bind fun j u hu hready => ?_
    obtain ⟨r, hr, -⟩ := onRow_eq_ok.1 hu
    have hj := drawRange_mem hr
    exact ih (hready.swapItems hn (by omega)) (by omega)

theorem shuffleRule_ready {s : State} (h : s.Ready) (i : StreamId) :
    (shuffleRule i s).Ensures State.Ready := by
  unfold shuffleRule
  split
  next => exact Res.ensures_raised.2 h
  next hlen =>
    split
    next => exact Res.ensures_raised.2 h
    next => exact shuffleFrom_ready h (by unfold itemDepth at *; omega)

theorem rollRarity_ready {s : State} (h : s.Ready) (i : StreamId) :
    (rollRarity i s).Ensures State.Ready :=
  (onRow_ready h i (drawRange_isDraw _ _ _).keepsLive).bind fun _ _ _ hu =>
    Res.ensures_ok.2 (hu.updatePity _)

theorem rollRarityRule_ready {s : State} (h : s.Ready) (i : StreamId) :
    (rollRarityRule i s).Ensures State.Ready :=
  (rollRarity_ready h i).bind fun _ _ _ hu =>
    Res.ensures_ok.2 (hu.congr rfl rfl rfl rfl hu.inv.items_wf)

theorem pickIndex_ready {i : StreamId} {r : Rarity} {slots : List RewardSlot} {fuel : Nat} {s : State}
    (h : s.Ready) : (pickIndex i r slots fuel s).Ensures State.Ready := by
  induction fuel generalizing s with
  | zero => exact fun _ ht => absurd ht Res.leaves_stuck
  | succ fuel ih =>
    refine (onRow_ready h i (drawRange_isDraw _ _ _).keepsLive).bind fun v u _ hu => ?_
    split
    next => exact ih hu
    next => exact Res.ensures_ok.2 hu

theorem upgradeInSlot_ready {s : State} (h : s.Ready) (i : StreamId) :
    (upgradeInSlot i s).Ensures State.Ready := by
  unfold upgradeInSlot
  split
  next => exact onRow_ready h i (drawChance_isDraw _ _).keepsLive
  next => exact Res.ensures_ok.2 h

theorem genSlot_ready {s : State} (h : s.Ready) (i : StreamId) (k : Nat) :
    (genSlot i k s).Ensures State.Ready := by
  refine (rollRarity_ready h i).bind fun rr u _ hu => ?_
  split
  next => exact Res.ensures_raised.2 hu
  next =>
    split
    next => exact Res.ensures_raised.2 hu
    next =>
      refine (pickIndex_ready hu).bind fun idx v _ hv => ?_
      exact (upgradeInSlot_ready hv i).bind fun upg w _ hw => Res.ensures_ok.2 (hw.setReward k _)

theorem genSlots_ready {i : StreamId} {n k : Nat} {s : State} (h : s.Ready) :
    (genSlots i n k s).Ensures State.Ready := by
  induction n generalizing k s with
  | zero => exact Res.ensures_ok.2 h
  | succ n ih => exact (genSlot_ready h i k).bind fun _ _ _ hu => ih hu

theorem upgradeSlots_ready {i : StreamId} {n k : Nat} {s : State} (h : s.Ready) :
    (upgradeSlots i n k s).Ensures State.Ready := by
  induction n generalizing k s with
  | zero => exact Res.ensures_ok.2 h
  | succ n ih =>
    exact (onRow_ready h i (drawChance_isDraw _ _).keepsLive).bind fun _ _ _ hu => ih (hu.setReward k _)

theorem upgradeBatch_ready {s : State} (h : s.Ready) (i : StreamId) (n : Nat) :
    (upgradeBatch i n s).Ensures State.Ready := by
  unfold upgradeBatch
  split
  next => exact upgradeSlots_ready h
  next => exact Res.ensures_ok.2 h

theorem genRewardsRule_ready {s : State} (h : s.Ready) (i : StreamId) :
    (genRewardsRule i s).Ensures State.Ready := by
  unfold genRewardsRule
  split
  next => exact Res.ensures_raised.2 h
  next =>
    split
    next => exact Res.ensures_raised.2 h
    next =>
      have cleared : s.clearRewards.Ready := h.congr rfl rfl rfl rfl h.inv.items_wf
      refine (genSlots_ready cleared).bind fun _ t _ ht => ?_
      exact (upgradeBatch_ready ht i _).bind fun _ u _ hu => Res.ensures_ok.2 (hu.setRes0 _)

/-! ### Commands, moves and steps -/

/-- Behind the initialisation check a rule begins in a ready state. -/
theorem gateInit_inv {rule : State → Res State Unit} {s : State} (h : s.Inv)
    (hr : s.Ready → (rule s).Ensures State.Ready) : (gateInit rule s).Ensures State.Inv := by
  unfold gateInit
  split
  next hi => exact (hr ⟨h, hi⟩).mono fun _ => State.Ready.inv
  next => exact Res.ensures_raised.2 h

theorem gateStream_inv {sid : BitVec 4} {rule : StreamId → State → Res State Unit} {s : State} (h : s.Inv)
    (hr : s.Ready → ∀ i, (rule i s).Ensures State.Ready) : (gateStream sid rule s).Ensures State.Inv := by
  unfold gateStream
  split
  next => exact Res.ensures_raised.2 h
  next i _ => exact gateInit_inv h fun hready => hr hready i

/-- Every command's pseudocode, with the checks before it, keeps the invariant. -/
theorem ruleOf_inv {s : State} (h : s.Inv) (i : Instr) : (ruleOf i s).Ensures State.Inv := by
  have canonical := h.items_wf
  cases i with
  | nop => exact Res.ensures_ok.2 h
  | clrerr => exact Res.ensures_ok.2 h.rearm
  | init => exact initRule_inv h
  | restore => exact restoreRule_inv h
  | floorAdv => exact gateInit_inv h floorAdvRule_ready
  | actSeed => exact gateInit_inv h actSeedRule_ready
  | actSnap => exact gateInit_inv h actSnapRule_ready
  | snapshot =>
    exact gateInit_inv h fun hr => Res.ensures_ok.2 (hr.congr rfl rfl rfl rfl canonical)
  | checkpoint => exact gateInit_inv h checkpointRule_ready
  | rollback => exact rollbackRule_inv h
  | pityReset => exact Res.ensures_ok.2 (h.congr rfl rfl rfl rfl canonical)
  | streamNew =>
    exact gateStream_inv h fun hr i => onRow_ready hr i (construct_keepsLive _ _ _)
  | drawBounded => exact gateStream_inv h drawBoundedRule_ready
  | drawRange => exact gateStream_inv h fun hr i => drawToRes0_ready hr i (drawRange_isDraw _ _ _)
  | drawBool | drawFloat | drawLong =>
    exact gateStream_inv h fun hr i => drawToRes0_ready hr i drawRaw_isDraw
  | drawChance => exact gateStream_inv h fun hr i => drawToRes0_ready hr i (drawChance_isDraw _ _)
  | shuffle => exact gateStream_inv h shuffleRule_ready
  | rollRarity => exact gateStream_inv h rollRarityRule_ready
  | genRewards => exact gateStream_inv h genRewardsRule_ready

theorem exec_inv {i : Instr} {s t : State} (h : s.Inv) (ht : exec i s = .next t) : t.Inv := by
  rcases exec_eq_next.1 ht with ⟨u, hu, rfl⟩ | ⟨e, u, hu, rfl⟩
  · exact (ruleOf_inv h i u (.inl ⟨(), hu⟩)).complete
  · exact (ruleOf_inv h i u (.inr ⟨e, hu⟩)).raise e

theorem issue_inv {w : Word} {s t : State} (h : s.Inv) (ht : issue w s = .next t) : t.Inv := by
  have hcmd : (s.setCmd w).Inv := h.congr rfl rfl rfl rfl h.items_wf
  rcases issue_cases ht with ⟨i, -, ht⟩ | ⟨e, rfl⟩
  · exact exec_inv hcmd ht
  · exact hcmd.raise e

/-- After hardware reset the invariant holds, whatever held before it (10_state R50). -/
theorem hardReset_inv (s : State) : (hardReset s).Inv where
  mgr_legal := nofun
  rows_zero _ i := Vector.getElem_replicate i.isLt
  ckpt_init := nofun
  shadow_legal := nofun
  errCmd_zero _ := rfl
  items_wf := rfl

/-- Settles O56: each kind of host move keeps the invariant; for a command it is kept by each rule. -/
theorem everyStepKeepsTheInvariant : Obligations.EveryStepKeepsTheInvariant := by
  intro s t h hstep
  have taken (rest : List HostMove) : (s.take rest).Inv := h.congr rfl rfl rfl rfl h.items_wf
  rcases step_cases hstep with
    ⟨-, rfl⟩ | ⟨rest, -, rfl⟩ | ⟨a, rest, -, rfl⟩ | ⟨a, v, rest, -, -, rfl⟩ | ⟨w, rest, -, ht⟩
  · exact h
  · exact hardReset_inv _
  · exact h.congr rfl rfl rfl rfl h.items_wf
  · exact (taken rest).congr (writeLoc_params ..) (writeLoc_status ..) (writeLoc_mgr ..)
      (writeLoc_shadow ..) (writeLoc_items_wf (taken rest).items_wf v _)
  · exact issue_inv (taken rest) ht

end Sys2Proof.Machine
end

