-- ==== Sys2Proof/Proofs/Results.lean ====
section
/-! Which commands write `RES0` and `RES1` (10_state R23), read off `ruleOf_ok` and `ruleOf_raised`. -/

namespace Sys2Proof.Machine

/-- The commands that name no result, and so leave `RES0`. -/
def namesNoResult (i : Instr) : Prop :=
  i.sid? = none ∨ (∃ sid, i = .streamNew sid) ∨ (∃ sid, i = .shuffle sid)

theorem not_namesNoResult_of_writesRes0 {i : Instr} (h : writesRes0 i) : ¬ namesNoResult i := by
  obtain ⟨sid, h⟩ := h
  simp only [List.mem_cons, List.not_mem_nil, or_false] at h
  rcases h with rfl | rfl | rfl | rfl | rfl | rfl | rfl <;> simp [namesNoResult, Instr.sid?]

/-- A rule that completes leaves `RES0` if its command names no result. -/
theorem ruleOf_ok_res0 {i : Instr} {s u : State} (h : ruleOf i s = .ok () u) (hi : namesNoResult i) :
    u.block.res0 = s.block.res0 := by
  rcases ruleOf_ok h with ⟨-, rfl⟩ | ⟨-, -, rfl⟩ | ⟨-, v, hv, rfl⟩ | ⟨⟨sid, rfl⟩, -⟩ | ⟨hw, -⟩ | ⟨-, hu⟩
  · rfl
  · rfl
  · exact hv.res0
  · simp [namesNoResult, Instr.sid?] at hi
  · exact absurd hi (not_namesNoResult_of_writesRes0 hw)
  · exact hu.res0

/-- A rule that completes leaves `RES1` unless it is that of `ROLL_RARITY`. -/
theorem ruleOf_ok_res1 {i : Instr} {s u : State} (h : ruleOf i s = .ok () u)
    (hi : ∀ sid, i ≠ .rollRarity sid) : u.block.res1 = s.block.res1 := by
  rcases ruleOf_ok h with
    ⟨-, rfl⟩ | ⟨-, -, rfl⟩ | ⟨-, v, hv, rfl⟩ | ⟨⟨sid, rfl⟩, -⟩ | ⟨-, v, w, hv, rfl⟩ | ⟨-, hu⟩
  · rfl
  · rfl
  · exact hv.res1
  · exact absurd rfl (hi sid)
  · exact hv.res1
  · exact hu.res1

/-- Settles O17: a completing command by what its rule has written, a failing one by what it has not. -/
theorem resultsOnlyFromCompletingCommands : Obligations.ResultsOnlyFromCompletingCommands := by
  intro i s t h
  rcases exec_eq_next.1 h with ⟨u, hu, rfl⟩ | ⟨e, u, hu, rfl⟩
  · have res0 := ruleOf_ok_res0 hu
    have res1 := ruleOf_ok_res1 hu
    exact ⟨fun hfail => absurd rfl hfail, res0, res1⟩
  · have same := ruleOf_raised hu
    have res0 : (u.raise e).block.res0 = s.block.res0 := (raise_res0 u e).trans same.res0
    have res1 : (u.raise e).block.res1 = s.block.res1 := (raise_res1 u e).trans same.res1
    exact ⟨fun _ => ⟨res0, res1⟩, fun _ => res0, fun _ => res1⟩

end Sys2Proof.Machine
end

