-- ==== Sys2Proof/Proofs/StatusFlags.lean ====
section
/-! What clears the flags of `STATUS` and what writes the shadow bank (10_state R25, R33). -/

namespace Sys2Proof.Machine

/-- From `s` to `t` the flags `INIT` and `CKPT` are kept at 1; a recorded first error is kept unless the
move `clears` it, and the shadow bank and a `CKPT` of 0 are kept unless the move `saves` the manager. -/
structure KeepsFlags (clears saves : Prop) (s t : State) : Prop where
  init : s.block.status.init = true → t.block.status.init = true
  ckpt : s.block.status.ckpt = true → t.block.status.ckpt = true
  errFirst : s.block.status.errFirst ≠ none → ¬ clears →
    t.block.status.errFirst = s.block.status.errFirst ∧ t.block.status.errCmd = s.block.status.errCmd
  shadow : ¬ saves → t.block.shadow = s.block.shadow
  ckpt_zero : ¬ saves → s.block.status.ckpt = false → t.block.status.ckpt = false

variable {clears saves : Prop} {s t u : State}

theorem KeepsFlags.trans (h : KeepsFlags clears saves s t) (h' : KeepsFlags clears saves t u) :
    KeepsFlags clears saves s u where
  init := h'.init ∘ h.init
  ckpt := h'.ckpt ∘ h.ckpt
  errFirst hf hc := by
    obtain ⟨h1, h2⟩ := h.errFirst hf hc
    obtain ⟨h3, h4⟩ := h'.errFirst (h1 ▸ hf) hc
    exact ⟨h3.trans h1, h4.trans h2⟩
  shadow hs := (h'.shadow hs).trans (h.shadow hs)
  ckpt_zero hs := h'.ckpt_zero hs ∘ h.ckpt_zero hs

theorem KeepsFlags.of_eq (hst : t.block.status = s.block.status) (hsh : t.block.shadow = s.block.shadow) :
    KeepsFlags clears saves s t := by
  constructor <;> simp [hst, hsh]

theorem Untouched.keepsFlags (h : Untouched s t) : KeepsFlags clears saves s t := .of_eq h.status h.shadow

theorem complete_keepsFlags (s : State) : KeepsFlags clears saves s s.complete := by
  constructor <;> simp

theorem setInit_keepsFlags (s : State) : KeepsFlags clears saves s s.setInit := by
  constructor <;> simp

/-- `raise` writes `ERR_FIRST` and `ERR_CMD` only when no error is recorded (60_exceptions R221). -/
theorem raise_keepsFlags (s : State) (e : Err) : KeepsFlags clears saves s (s.raise e) where
  init hi := (raise_init s e).trans hi
  ckpt hc := (raise_ckpt s e).trans hc
  errFirst hf _ := by
    obtain ⟨first, hfirst⟩ := Option.ne_none_iff_exists'.1 hf
    simp [raise_errCmd, hfirst]
  shadow _ := raise_shadow s e
  ckpt_zero _ hc := (raise_ckpt s e).trans hc

theorem rearm_keepsFlags (s : State) (h : clears) : KeepsFlags clears saves s s.rearm where
  init := id
  ckpt := id
  errFirst _ hc := absurd h hc
  shadow _ := rfl
  ckpt_zero _ := id

theorem checkpoint_keepsFlags (s : State) (m : Manager) (h : saves) :
    KeepsFlags clears saves s (s.setShadow m).setCkpt where
  init := id
  ckpt _ := rfl
  errFirst _ _ := ⟨rfl, rfl⟩
  shadow hs := absurd h hs
  ckpt_zero hs := absurd h hs

/-- A rule that completes: only `CLRERR` clears the first error, only `CHECKPOINT` saves the manager. -/
theorem ruleOf_ok_keepsFlags {i : Instr} (h : ruleOf i s = .ok () u) :
    KeepsFlags (i = .clrerr) (i = .checkpoint) s u := by
  rcases ruleOf_ok h with ⟨hi, rfl⟩ | ⟨hi, -, rfl⟩ | ⟨-, v, hv, rfl⟩ | ⟨-, v, w, x, hv, rfl⟩ |
    ⟨-, v, w, hv, rfl⟩ | ⟨-, hu⟩
  · exact rearm_keepsFlags s hi
  · exact checkpoint_keepsFlags s s.block.mgr hi
  · exact hv.keepsFlags.trans (setInit_keepsFlags v)
  · exact .of_eq hv.status hv.shadow
  · exact .of_eq hv.status hv.shadow
  · exact hu.keepsFlags

theorem exec_keepsFlags {i : Instr} (h : exec i s = .next t) :
    KeepsFlags (i = .clrerr) (i = .checkpoint) s t := by
  rcases exec_eq_next.1 h with ⟨u, hu, rfl⟩ | ⟨e, u, hu, rfl⟩
  · exact (ruleOf_ok_keepsFlags hu).trans (complete_keepsFlags u)
  · exact (ruleOf_raised hu).keepsFlags.trans (raise_keepsFlags u e)

theorem issue_keepsFlags {w : Word} (h : issue w s = .next t) :
    KeepsFlags (decode w = .command .clrerr) (decode w = .command .checkpoint) s t := by
  have cmd : KeepsFlags (decode w = .command .clrerr) (decode w = .command .checkpoint) s (s.setCmd w) :=
    .of_eq rfl rfl
  rcases issue_cases h with ⟨i, hw, h⟩ | ⟨e, rfl⟩
  · refine cmd.trans ?_
    rw [hw, Decoded.command.injEq, Decoded.command.injEq]
    exact exec_keepsFlags h
  · exact cmd.trans (raise_keepsFlags _ e)

/-- A step that is no hardware reset: the first error is cleared by a move that issues `CLRERR` only, the
manager saved by one that issues `CHECKPOINT` only. -/
theorem step_keepsFlags (h : step s = .next t) (hreset : ∀ rest, s.moves ≠ .reset :: rest) :
    KeepsFlags (¬ nextMoveIsNot .clrerr s) (¬ nextMoveIsNot .checkpoint s) s t := by
  rcases step_cases h with
    ⟨-, rfl⟩ | ⟨rest, hm, -⟩ | ⟨a, rest, -, rfl⟩ | ⟨a, v, rest, -, -, rfl⟩ | ⟨w, rest, hm, h⟩
  · exact .of_eq rfl rfl
  · exact absurd hm (hreset rest)
  · exact .of_eq rfl rfl
  · exact .of_eq (writeLoc_status ..) (writeLoc_shadow ..)
  · have issued {i : Instr} (hi : nextMoveIsNot i s) : decode w ≠ .command i := (hi _ _ hm).2 w rfl
    have kept := issue_keepsFlags h
    exact {
      init := kept.init
      ckpt := kept.ckpt
      errFirst := fun hf hc => kept.errFirst hf (issued (not_not.1 hc))
      shadow := fun hs => kept.shadow (issued (not_not.1 hs))
      ckpt_zero := fun hs => kept.ckpt_zero (issued (not_not.1 hs)) }

/-- Settles O44: every move but hardware reset keeps the flags, commands by what their rules write. -/
theorem statusFlagsAreClearedOnlyAsTheTableSays : Obligations.StatusFlagsAreClearedOnlyAsTheTableSays := by
  intro s t h hreset
  obtain ⟨init, ckpt, errFirst, shadow, ckpt_zero⟩ := step_keepsFlags h hreset
  exact ⟨init, ckpt, fun hf hc => errFirst hf (not_not.2 hc),
    fun hs => ⟨shadow (not_not.2 hs), ckpt_zero (not_not.2 hs)⟩⟩

end Sys2Proof.Machine
end

