-- ==== Sys2Proof/Proofs/ReadOnlyAddresses.lean ====
section
/-! The reserved and the read-only addresses of the map (20_memory R61, R62). -/

namespace Sys2Proof.Machine

/-- A write elsewhere than to `CMD` is one step. -/
theorem step_of_hostWrite {s : State} {a : Addr} {v : Word} {rest : List HostMove}
    (hm : s.moves = .write a v :: rest) (ha : a ≠ cmdAddr) : step s = .next (hostWrite a v (s.take rest)) := by
  simp only [step, hm, if_neg ha]

/-- No register and no buffer entry stands at a reserved address. -/
theorem not_reservedAddr_address {l : Loc} (hl : l ≠ .reserved) : ¬ reservedAddr l.address := by
  unfold reservedAddr
  cases l with
  | reserved => exact absurd rfl hl
  | poolSize r => cases r <;> simp [Loc.address, Rarity.code] <;> omega
  | _ => simp only [Loc.address]; omega

theorem locOf_of_reservedAddr {a : Addr} (h : reservedAddr a.toNat) : locOf a = .reserved := by
  by_contra hl
  exact not_reservedAddr_address hl (locOf_address hl ▸ h)

/-- A write to a location with a read-only address stores nothing. -/
theorem writeLoc_of_readOnlyAddr {l : Loc} (h : readOnlyAddr l.address) (s : State) (v : Word) :
    s.writeLoc v l = s := by
  unfold readOnlyAddr at h
  cases l with
  | cmd | status | res0 | res1 | baseSeed | floor | act | s0 | s1 | ctr | reward | reserved => rfl
  | poolSize r => cases r <;> simp [Loc.address, Rarity.code] at h <;> omega
  | _ => simp only [Loc.address] at h; omega

/-- A write to a reserved or read-only address changes nothing (20_memory R62). -/
theorem hostWrite_of_reserved_or_readOnly {a : Addr} (h : reservedAddr a.toNat ∨ readOnlyAddr a.toNat)
    (s : State) (v : Word) : hostWrite a v s = s := by
  unfold hostWrite
  rcases eq_or_ne (locOf a) .reserved with hl | hl
  · rw [hl]; rfl
  · rw [← locOf_address hl] at h
    exact writeLoc_of_readOnlyAddr (h.resolve_left (not_reservedAddr_address hl)) s v

/-- `CMD` is neither reserved nor read-only. -/
theorem ne_cmdAddr_of_reserved_or_readOnly {a : Addr} (h : reservedAddr a.toNat ∨ readOnlyAddr a.toNat) :
    a ≠ cmdAddr := by
  rintro rfl
  simp [reservedAddr, readOnlyAddr, cmdAddr] at h
  omega

/-- Settles O6: a reserved address has no location, a read-only one a location that no write changes. -/
theorem reservedAndReadOnlyAddresses : Obligations.ReservedAndReadOnlyAddresses := by
  refine ⟨fun s a h => ?_, fun s a v rest hm h => ?_⟩
  · unfold State.port
    rw [locOf_of_reservedAddr h]
    rfl
  · rw [step_of_hostWrite hm (ne_cmdAddr_of_reserved_or_readOnly h), hostWrite_of_reserved_or_readOnly h]

end Sys2Proof.Machine
end

