-- ==== Sys2Proof/Proofs/NarrowRegisters.lean ====
section
/-! What a host reads at a narrow register, and at one that it has just written (20_memory R66). -/

namespace Sys2Proof.Machine

/-! ### Extension and truncation -/

theorem toNat_zeroExtended {w : Nat} (hw : w ≤ 64) (x : BitVec w) : (zeroExtended x).toNat = x.toNat :=
  BitVec.toNat_setWidth_of_le hw

theorem toNat_zeroExtended_lowBits {w : Nat} (hw : w ≤ 64) (v : Word) :
    (zeroExtended (lowBits w v)).toNat = v.toNat % 2 ^ w :=
  (toNat_zeroExtended hw _).trans (BitVec.toNat_setWidth w v)

/-- The low bits read sign-extended are the signed value brought into range: dropping bits keeps the value
modulo `2^w`. -/
theorem toInt_signExtended_lowBits {w : Nat} (hw : w ≤ 64) (v : Word) :
    (signExtended (lowBits w v)).toInt = v.toInt.bmod (2 ^ w) := by
  calc (signExtended (lowBits w v)).toInt
    _ = (lowBits w v).toInt := BitVec.toInt_signExtend_of_le hw
    _ = (v.toNat : Int).bmod (2 ^ w) := BitVec.toInt_setWidth v
    _ = v.toInt.bmod (2 ^ w) := by
      rw [BitVec.toInt_eq_toNat_bmod, Int.bmod_bmod_of_dvd (Nat.pow_dvd_pow 2 hw)]

/-! ### The places of the registers in the map (20_memory R61) -/

theorem locOf_poolSize {a : Addr} (h1 : 0x018 ≤ a.toNat) (h2 : a.toNat ≤ 0x01A) :
    ∃ r, locOf a = .poolSize r := by
  have ha : a.toNat < 0x020 := by omega
  unfold locOf
  simp only [if_pos ha]
  interval_cases a.toNat
  · exact ⟨.common, rfl⟩
  · exact ⟨.uncommon, rfl⟩
  · exact ⟨.rare, rfl⟩

theorem locOf_snap {a : Addr} (h1 : 0x020 ≤ a.toNat) (h2 : a.toNat ≤ 0x02C) :
    locOf a = .snap ⟨a.toNat - 0x020, by omega⟩ := by
  unfold locOf snapAt
  simp only
  rw [if_neg (by omega), if_pos (by omega), dif_pos]

theorem locOf_ctr (i : StreamId) : locOf (BitVec.ofNat 11 (0x042 + 4 * i.val)) = .ctr i := by
  decide +revert

/-! ### What a written register reads -/

/-- `CTRL` keeps and shows three bits: `PITY_DIS` and above it `UPG_MODE` (10_state R40). -/
theorem readLoc_writeLoc_ctrl (s : State) (v : Word) :
    (s.writeLoc v .ctrl).readLoc .ctrl = zeroExtended (lowBits 3 v) := by
  change (0#61 ++ v.extractLsb' 1 2 ++ BitVec.ofBool (v.getLsbD 0) : BitVec 64) = (v.setWidth 3).setWidth 64
  -- Bit 0 on both sides is `v`'s bit 0, bits 1 and 2 are `v`'s, and there is no bit above.
  refine BitVec.eq_of_getLsbD_eq fun i hi => ?_
  grind

theorem readLoc_writeLoc_poolSize (s : State) (v : Word) (r : Rarity) :
    (s.writeLoc v (.poolSize r)).readLoc (.poolSize r) = zeroExtended (lowBits 31 v) := by
  cases r <;> rfl

theorem readLoc_writeLoc_snap (s : State) (v : Word) (i : StreamId) :
    (s.writeLoc v (.snap i)).readLoc (.snap i) = zeroExtended (lowBits 32 v) := by
  simp [State.writeLoc, State.readLoc]

theorem hostWrite_port_same {a : Addr} {l : Loc} (h : locOf a = l) (s : State) (v : Word) :
    (hostWrite a v s).port a = (s.writeLoc v l).readLoc l := by
  subst h
  rfl

theorem hostWrite_port_signed {a : Addr} (h : a = 0x011 ∨ a = 0x012 ∨ a = 0x013 ∨ a = 0x014 ∨ a = 0x016)
    (s : State) (v : Word) : (hostWrite a v s).port a = signExtended (lowBits 16 v) := by
  rcases h with rfl | rfl | rfl | rfl | rfl <;> rfl

/-- Settles O7: the read-only registers by their extension, the writable ones by what a host write keeps. -/
theorem narrowRegistersKeepLowBits : Obligations.NarrowRegistersKeepLowBits := by
  refine ⟨fun s => ⟨toNat_zeroExtended (by decide) _, toNat_zeroExtended (by decide) _, fun i => ?_⟩,
    fun s a v rest hm ha => ⟨hostWrite a v (s.take rest), step_of_hostWrite hm ha, writeLoc_status .., ?_⟩⟩
  · unfold State.port
    rw [locOf_ctr]
    exact toNat_zeroExtended (by decide) _
  have low {w : Nat} (hw : w ≤ 64)
      (h : (hostWrite a v (s.take rest)).port a = zeroExtended (lowBits w v)) :
      ((hostWrite a v (s.take rest)).port a).toNat = v.toNat % 2 ^ w := h ▸ toNat_zeroExtended_lowBits hw v
  refine ⟨?ctrl, ?signed, ?pityStep, ?upgP, ?poolSize, ?snap⟩
  case ctrl =>
    rintro rfl
    exact low (by decide) (readLoc_writeLoc_ctrl _ v)
  case signed =>
    intro h
    rw [hostWrite_port_signed h]
    exact toInt_signExtended_lowBits (by decide) v
  case pityStep =>
    rintro rfl
    exact low (by decide) rfl
  case upgP =>
    rintro rfl
    exact low (by decide) rfl
  case poolSize =>
    intro h1 h2
    obtain ⟨r, hr⟩ := locOf_poolSize h1 h2
    exact low (by decide) ((hostWrite_port_same hr _ v).trans (readLoc_writeLoc_poolSize _ v r))
  case snap =>
    intro h1 h2
    exact low (by decide) ((hostWrite_port_same (locOf_snap h1 h2) _ v).trans (readLoc_writeLoc_snap _ v _))

end Sys2Proof.Machine
end

