-- ==== Sys2Proof/Proofs/RejectedWords.lean ====
section
/-! Which words the decoder rejects and with which code (30_encoding R84), by the word's fields as numbers. -/

namespace Sys2Proof.Machine

/-! ### The fields of a word as numbers -/

theorem toNat_opcodeField (w : Word) : (opcodeField w).toNat = w.toNat % 256 := by
  simp [opcodeField]

theorem toNat_sidField (w : Word) : (sidField w).toNat = w.toNat / 256 % 16 := by
  simp [sidField, Nat.shiftRight_eq_div_pow]

theorem toNat_zeroField (w : Word) : (zeroField w).toNat = w.toNat / 2 ^ 12 % 2 ^ 52 := by
  simp [zeroField, Nat.shiftRight_eq_div_pow]

theorem zeroField_eq_zero_iff {w : Word} : zeroField w = 0 ↔ w.toNat < 2 ^ 12 := by
  have hw := w.isLt
  rw [← BitVec.toNat_inj, toNat_zeroField, show (0 : BitVec 52).toNat = 0 from rfl]
  omega

theorem sidField_eq_zero_iff {w : Word} : sidField w = 0 ↔ w.toNat / 256 % 16 = 0 := by
  rw [← BitVec.toNat_inj, toNat_sidField]
  rfl

theorem legalSid_sidField_iff {w : Word} : legalSid (sidField w) = true ↔ ¬ 13 ≤ w.toNat / 256 % 16 := by
  rw [legalSid, decide_eq_true_iff, toNat_sidField]
  omega

/-! ### The opcode map by format (30_encoding R83) -/

theorem decodeOpcode_of_formatN {o : Nat} (h : formatNOpcode o) (sid : BitVec 4) :
    ∃ i : Instr, i.sid? = none ∧ decodeOpcode o sid = decodeN i sid := by
  interval_cases o <;> exact ⟨_, rfl, rfl⟩

theorem decodeOpcode_of_formatS {o : Nat} (h : formatSOpcode o) (sid : BitVec 4) :
    ∃ i : BitVec 4 → Instr, (i sid).sid? = some sid ∧ decodeOpcode o sid = decodeS i sid := by
  rcases h with ⟨h1, h2⟩ | ⟨h1, h2⟩
  · interval_cases o <;> exact ⟨_, rfl, rfl⟩
  · interval_cases o <;> exact ⟨_, rfl, rfl⟩

/-- The map names only opcodes of the two formats. -/
theorem decodeOpcode_of_unknown {o : Nat} (h : ¬(formatNOpcode o ∨ formatSOpcode o)) (sid : BitVec 4) :
    decodeOpcode o sid = .illegalCmd := by
  apply decodeOpcode.eq_22 <;> (rintro rfl; exact h (by decide))

/-! ### The words of R84 -/

/-- A bit above bit 11, an opcode of no command, or a stream number in format N. -/
def illegalWord (w : Word) : Prop :=
  2 ^ 12 ≤ w.toNat ∨ ¬(formatNOpcode (w.toNat % 256) ∨ formatSOpcode (w.toNat % 256)) ∨
    (formatNOpcode (w.toNat % 256) ∧ w.toNat / 256 % 16 ≠ 0)

/-- A stream number from 13 to 15 in format S. -/
def reservedStreamWord (w : Word) : Prop :=
  formatSOpcode (w.toNat % 256) ∧ 13 ≤ w.toNat / 256 % 16

theorem decode_of_highBits {w : Word} (h : 2 ^ 12 ≤ w.toNat) : decode w = .illegalCmd :=
  if_neg (mt zeroField_eq_zero_iff.1 (Nat.not_lt.2 h))

theorem decode_of_lowBits {w : Word} (h : w.toNat < 2 ^ 12) :
    decode w = decodeOpcode (w.toNat % 256) (sidField w) := by
  rw [decode, if_pos (zeroField_eq_zero_iff.2 h), toNat_opcodeField]

theorem decode_of_illegalWord {w : Word} (h : illegalWord w) : decode w = .illegalCmd := by
  rcases Nat.lt_or_ge w.toNat (2 ^ 12) with hlow | hhigh
  · rw [decode_of_lowBits hlow]
    rcases h.resolve_left (Nat.not_le.2 hlow) with unknown | ⟨formatN, hsid⟩
    · exact decodeOpcode_of_unknown unknown _
    · obtain ⟨i, -, hi⟩ := decodeOpcode_of_formatN formatN (sidField w)
      rw [hi, decodeN, if_neg (mt sidField_eq_zero_iff.1 hsid)]
  · exact decode_of_highBits hhigh

theorem decode_of_reservedStreamWord {w : Word} (h : ¬ illegalWord w) (hr : reservedStreamWord w) :
    decode w = .badStream := by
  obtain ⟨formatS, hsid⟩ := hr
  obtain ⟨i, -, hi⟩ := decodeOpcode_of_formatS formatS (sidField w)
  rw [decode_of_lowBits (Nat.lt_of_not_le (h ∘ .inl)), hi, decodeS,
    if_neg (mt legalSid_sidField_iff.1 (not_not.2 hsid))]

/-- Every other word is a command with a legal stream number. -/
theorem decode_of_legalWord {w : Word} (h : ¬ illegalWord w) (hr : ¬ reservedStreamWord w) :
    ∃ i, decode w = .command i ∧ i.wellFormed = true := by
  rw [illegalWord, not_or, not_or, not_not] at h
  obtain ⟨hlow, formatN | formatS, hN⟩ := h
  all_goals rw [decode_of_lowBits (Nat.lt_of_not_le hlow)]
  · obtain ⟨i, hnone, hi⟩ := decodeOpcode_of_formatN formatN (sidField w)
    have hsid : w.toNat / 256 % 16 = 0 := by_contra fun hsid => hN ⟨formatN, hsid⟩
    refine ⟨i, ?_, by rw [Instr.wellFormed, hnone]⟩
    rw [hi, decodeN, if_pos (sidField_eq_zero_iff.2 hsid)]
  · obtain ⟨i, hsome, hi⟩ := decodeOpcode_of_formatS formatS (sidField w)
    have hsid : legalSid (sidField w) = true := legalSid_sidField_iff.2 fun hsid => hr ⟨formatS, hsid⟩
    refine ⟨i (sidField w), ?_, by rw [Instr.wellFormed, hsome]; exact hsid⟩
    rw [hi, decodeS, if_pos hsid]

/-! ### A word written to `CMD` -/

theorem step_of_cmdWrite {s : State} {w : Word} {rest : List HostMove}
    (hm : s.moves = .write cmdAddr w :: rest) : step s = issue w (s.take rest) := by
  simp only [step, hm, if_true]

theorem issue_of_illegalCmd {w : Word} (h : decode w = .illegalCmd) (s : State) :
    issue w s = .next ((s.setCmd w).raise .illegalCmd) := by
  rw [issue, h]

theorem issue_of_badStream {w : Word} (h : decode w = .badStream) (s : State) :
    issue w s = .next ((s.setCmd w).raise .badStream) := by
  rw [issue, h]

/-- Settles O3: the step issues the word, and the decoder's three answers are those of R84. -/
theorem rejectedWordsFailByName : Obligations.RejectedWordsFailByName := by
  intro s w rest hm
  rw [step_of_cmdWrite hm]
  exact ⟨fun h => issue_of_illegalCmd (decode_of_illegalWord h) _,
    fun h hr => issue_of_badStream (decode_of_reservedStreamWord h hr) _, decode_of_legalWord⟩

end Sys2Proof.Machine
end

