-- ==== Sys2Proof/Proofs/Generator.lean ====
section
/-! The generator's three functions (40_generator): the finalizer sends only 0 to 0, so the last line of
`SeedInit` never fires; one step of the generator. -/

namespace Sys2Proof.Machine

/-! ### The finalizer -/

/-- The stage undoes itself: its two shifts together drop all 64 bits. -/
theorem xorShift33_involutive : Function.Involutive xorShift33 := by
  intro x
  have hshift : x >>> 33 >>> 33 = 0#64 := by
    rw [← BitVec.shiftRight_add]
    exact BitVec.ushiftRight_eq_zero (by decide)
  rw [xorShift33, xorShift33, BitVec.ushiftRight_xor_distrib, hshift, BitVec.xor_zero, BitVec.xor_assoc,
    BitVec.xor_self, BitVec.xor_zero]

@[simp] theorem xorShift33_eq_zero_iff {x : Word} : xorShift33 x = 0 ↔ x = 0 :=
  xorShift33_involutive.eq_iff

/-- An odd word is 1 plus a double, and a double is nilpotent modulo 2^64 (40_generator R100). -/
theorem isUnit_of_odd {c : Word} (h : c.getLsbD 0 = true) : IsUnit c := by
  have hodd : c = 1#64 + 2#64 * (c >>> 1) := by
    have hmod : c.toNat % 2 = 1 := by simpa [BitVec.getLsbD, Nat.testBit_zero] using h
    bv_omega
  have hdouble : IsNilpotent (2#64 * (c >>> 1)) :=
    (Commute.all _ _).isNilpotent_mul_right ⟨64, by decide +kernel⟩
  rw [hodd]
  exact hdouble.isUnit_one_add

/-- 40_generator R100: `Finalize(x) = 0` only for `x = 0`, whatever the two odd multipliers. -/
@[simp] theorem finalize_eq_zero_iff {p : Config} {x : Word} : finalize p x = 0 ↔ x = 0 := by
  simp only [finalize, xorShift33_eq_zero_iff, (isUnit_of_odd p.fmixC1_odd).mul_left_eq_zero,
    (isUnit_of_odd p.fmixC2_odd).mul_left_eq_zero]

/-! ### The pair of a seed -/

/-- For a nonzero seed the guard against the all-zero pair does not fire: the first word is nonzero. -/
theorem seedInit_of_ne_zero (p : Config) {seed : Word} (h : seed ≠ 0) :
    seedInit p seed = (finalize p seed, finalize p (finalize p seed)) := by
  have hfirst : finalize p seed ≠ 0 := mt finalize_eq_zero_iff.1 h
  simp only [seedInit, if_neg h, if_neg fun hzero => hfirst (And.left hzero)]

/-- The zero seed is replaced by the sentinel. -/
theorem seedInit_zero (p : Config) : seedInit p 0 = seedInit p Config.zeroSeedSentinel := rfl

theorem seedInit_ne_zero (p : Config) (seed : Word) : seedInit p seed ≠ (0, 0) := fun h =>
  Row.seeded_live p seed ⟨congrArg Prod.fst h, congrArg Prod.snd h⟩

/-- Settles O23: the finalizer sends only 0 to 0, so a nonzero seed's pair is never patched. -/
theorem seedInitPair : Obligations.SeedInitPair := fun p seed =>
  ⟨seedInit_of_ne_zero p, seedInit_zero p, seedInit_ne_zero p seed⟩

/-! ### One step -/

/-- Settles O20: the step is R102's by definition, and the two worked values are evaluated. -/
theorem generatorStep : Obligations.GeneratorStep :=
  ⟨fun _ _ _ => rfl, by decide, by decide⟩

end Sys2Proof.Machine
end

