-- ==== Sys2Proof/Proofs/BoundedDraws.lean ====
section
/-! `DRAW_BOUNDED` and `DRAW_RANGE` on every operand (41_draws R128, R129): each rule is one equation per case
of its operands and its counter, and a command that passes its checks ends as its rule does. -/

namespace Sys2Proof.Machine

/-! ### The word of a command -/

/-- 30_encoding R83: the word of a command as a number. -/
theorem encode_eq_ofNat (i : Instr) :
    encode i = BitVec.ofNat 64 (i.opcode.toNat + 256 * (i.sid?.getD 0).toNat) := by
  apply BitVec.eq_of_toNat_eq
  rw [encode, BitVec.toNat_append, BitVec.toNat_append, ← Nat.shiftLeft_add_eq_or_of_lt i.opcode.isLt,
    ← Nat.shiftLeft_add_eq_or_of_lt (i.sid?.getD 0).isLt, BitVec.toNat_ofNat, BitVec.toNat_ofNat]
  simp only [Nat.shiftLeft_eq]
  omega

/-! ### A draw and then a pure update -/

section
variable {α : Type} {i : StreamId} {f : Row → Res Row α} {g : α → State → State} {s : State}

/-- A draw that fails and leaves its row: the error, and nothing has changed. -/
theorem drawThen_of_raised {e : Err} (h : f (s.row i) = .raised e (s.row i)) :
    ((onRow i f s).bind fun a s => .ok () (g a s)) = .raised e s := by
  rw [onRow_eq_raised.2 ⟨_, h, (setRow_self s i).symm⟩, Res.bind_raised]

/-- A draw that answers: the update, on the state with the new row. -/
theorem drawThen_of_ok {a : α} {r : Row} (h : f (s.row i) = .ok a r) :
    ((onRow i f s).bind fun a s => .ok () (g a s)) = .ok () (g a (s.setRow i r)) := by
  rw [onRow_of_ok h, Res.bind_ok_left]

end

/-! ### `DRAW_BOUNDED` -/

section
variable {s : State} {i : StreamId}

/-- A positive signed bound is the operand read as a natural number. -/
theorem boundOperand_toNat (h : 0 < s.block.opa.toInt) : s.boundOperand.toNat = s.block.opa.toNat :=
  BitVec.toNat_toInt_of_sle (decide_eq_true h.le)

theorem drawBoundedRule_of_nonpos (h : s.block.opa.toInt ≤ 0) : drawBoundedRule i s = .raised .badArg s :=
  if_pos h

theorem drawBoundedRule_of_pos (h : 0 < s.block.opa.toInt) :
    drawBoundedRule i s = (onRow i (drawBounded s.params s.block.opa.toNat) s).bind fun v s =>
      .ok () (s.setRes0 (BitVec.ofNat 64 v)) := by
  rw [← boundOperand_toNat h]
  exact if_neg (not_le.2 h)

theorem drawBoundedRule_of_max (h : 0 < s.block.opa.toInt) (hc : (s.row i).ctr.toNat = 2 ^ 32 - 1) :
    drawBoundedRule i s = .raised .ctrOvf s := by
  rw [drawBoundedRule_of_pos h]
  exact drawThen_of_raised (drawBounded_eq_raised.2 ⟨hc, rfl, rfl⟩)

theorem drawBoundedRule_of_redraws {k : Nat} (h : 0 < s.block.opa.toInt)
    (hc : (s.row i).ctr.toNat < 2 ^ 32 - 1) (hk : (s.row i).redraws s.params s.block.opa.toNat k) :
    drawBoundedRule i s = .ok () ((s.setRow i ((s.row i).drawn k)).setRes0
      (BitVec.ofNat 64 ((s.row i).bitsAt s.params k % s.block.opa.toNat))) := by
  have hn : 1 ≤ s.block.opa.toNat := boundOperand_toNat h ▸ Int.pos_iff_toNat_pos.1 h
  rw [drawBoundedRule_of_pos h]
  exact drawThen_of_ok ((drawBounded_eq_ok hn).2 ⟨hc, k, hk, rfl, rfl⟩)

end

/-- Settles O25: past its checks the command ends as its rule does, whose three cases are the statement's. -/
theorem drawBoundedResult : Obligations.DrawBoundedResult := by
  intro s sid i hs hi
  have hexec : exec (.drawBounded sid) s = finish (drawBoundedRule i s) := runStream_ready hs hi
  refine ⟨encode_eq_ofNat _, fun h => ?_, fun h hc => ?_, fun k h hc hk => ?_⟩
  · rw [hexec, drawBoundedRule_of_nonpos h, finish_raised]
  · rw [hexec, drawBoundedRule_of_max h hc, finish_raised]
  · rw [hexec, drawBoundedRule_of_redraws h hc hk, finish_ok]

/-! ### `DRAW_RANGE` -/

section
variable {s : State} {i : StreamId}

theorem drawRangeRule_of_lt (h : s.hiOperand < s.loOperand) : drawRangeRule i s = .raised .badArg s :=
  drawThen_of_raised (drawRange_eq_raised.2 ⟨rfl, .inl ⟨h, rfl⟩⟩)

theorem drawRangeRule_of_max (h : s.loOperand ≤ s.hiOperand) (hc : (s.row i).ctr.toNat = 2 ^ 32 - 1) :
    drawRangeRule i s = .raised .ctrOvf s :=
  drawThen_of_raised (drawRange_eq_raised.2 ⟨rfl, .inr ⟨h, hc, rfl⟩⟩)

theorem drawRangeRule_of_ok {v : Int} {r : Row}
    (h : drawRange s.params s.loOperand s.hiOperand (s.row i) = .ok v r) :
    drawRangeRule i s = .ok () ((s.setRow i r).setRes0 (toU64 v)) := drawThen_of_ok h

end

/-- A value between two signed 32-bit bounds stands in 64 bits as it is: sign-extended (41_draws R129). -/
theorem toInt_toU64_of_mem {lo hi : BitVec 32} {v : Int} (hlo : lo.toInt ≤ v) (hhi : v ≤ hi.toInt) :
    (toU64 v).toInt = v := by
  have hmin := lo.le_toInt
  have hmax := hi.toInt_lt
  exact BitVec.toInt_ofInt_eq_self (by decide) (by omega) (by omega)

/-- Settles O27: past its checks the command ends as its rule does, and a drawn value lies in its range, so
that `toU64` keeps it. -/
theorem drawRangeResult : Obligations.DrawRangeResult := by
  intro s sid i hs hi _ _ _
  have hexec : exec (.drawRange sid) s = finish (drawRangeRule i s) := runStream_ready hs hi
  refine ⟨encode_eq_ofNat _, fun h => ?_, fun h hc => ?_, fun k h hc hk => ?_⟩
  · rw [hexec, drawRangeRule_of_lt h, finish_raised]
  · rw [hexec, drawRangeRule_of_max h hc, finish_raised]
  · have hdraw := drawRange_of_redraws h hc hk
    obtain ⟨hlo, hhi⟩ := drawRange_mem hdraw
    have hv := toInt_toU64_of_mem hlo hhi
    refine ⟨toU64 _, hv, hv.symm ▸ hlo, hv.symm ▸ hhi, ?_⟩
    rw [hexec, drawRangeRule_of_ok hdraw, finish_ok]

end Sys2Proof.Machine
end

