-- ==== Sys2Proof/Proofs/Probability.lean ====
section
/-! A binary32 pattern as a probability (41_draws R125): both readings of a finite pattern are one integer
multiple of 2^-149, so that the comparison of integers in `less24` is the comparison of rationals. -/

namespace Sys2Proof.Machine

/-! ### Sign and magnitude -/

theorem signed_nonpos (a : Nat) : signed true a ≤ 0 := neg_nonpos.2 (Int.natCast_nonneg a)

theorem cast_signed (neg : Bool) (a : Nat) :
    (signed neg a : ℚ) = (if neg then -1 else 1) * (a : ℚ) := by
  cases neg <;> simp [signed]

/-! ### The fields of a pattern as numbers -/

section
variable (p : BitVec 32)

theorem toNat_exponent : (p.extractLsb' 23 8).toNat = p.toNat / 2 ^ 23 % 2 ^ 8 := by
  rw [BitVec.extractLsb'_toNat, Nat.shiftRight_eq_div_pow]

theorem toNat_fraction : (p.extractLsb' 0 23).toNat = p.toNat % 2 ^ 23 := by
  rw [BitVec.extractLsb'_toNat, Nat.shiftRight_zero]

theorem fraction_eq_zero_iff : p.extractLsb' 0 23 = 0 ↔ (p.extractLsb' 0 23).toNat = 0 :=
  BitVec.toNat_inj.symm

theorem signBit_eq : p.getLsbD 31 = decide (2 ^ 31 ≤ p.toNat) := p.msb_eq_decide

/-! ### The two readings of a pattern -/

/-- The distance of a finite pattern from 0, in multiples of 2^-149. -/
def finiteMagnitude : Nat :=
  if (p.extractLsb' 23 8).toNat = 0 then (p.extractLsb' 0 23).toNat
  else (2 ^ 23 + (p.extractLsb' 0 23).toNat) * 2 ^ ((p.extractLsb' 23 8).toNat - 1)

/-- The rational value is that many multiples of 2^-149, signed; an exponent field `e` from 1 on scales the
significand by `2 ^ (e - 1)` of them. -/
theorem f32Rat_eq :
    f32Rat p = (signed (p.getLsbD 31) (finiteMagnitude p) : Int) * (2 : ℚ) ^ (-149 : ℤ) := by
  rw [cast_signed]
  simp only [f32Rat, finiteMagnitude]
  by_cases he : (p.extractLsb' 23 8).toNat = 0
  · rw [if_pos he, if_pos he]
  · have hpow : (2 : ℚ) ^ (((p.extractLsb' 23 8).toNat : ℤ) - 150) =
        2 ^ ((p.extractLsb' 23 8).toNat - 1) * 2 ^ (-149 : ℤ) := by
      rw [← zpow_natCast, ← zpow_add₀ two_ne_zero]
      congr 1
      omega
    rw [if_neg he, if_neg he, hpow]
    push_cast
    ring

variable {p}

theorem f32Value_of_not_finite (h : (p.extractLsb' 23 8).toNat = 255) :
    f32Value p = if (p.extractLsb' 0 23).toNat ≠ 0 then .nan
      else if p.getLsbD 31 then .negInf else .posInf := if_pos h

theorem f32Value_of_finite (h : (p.extractLsb' 23 8).toNat ≠ 255) :
    f32Value p = .scaled (signed (p.getLsbD 31) (finiteMagnitude p)) := by
  rw [f32Value, finiteMagnitude, if_neg h]
  split <;> rfl

/-- From the exponent of 1.0 on, the value is at least 1. -/
theorem le_finiteMagnitude (h : 127 ≤ (p.extractLsb' 23 8).toNat) : 2 ^ 149 ≤ finiteMagnitude p := by
  rw [finiteMagnitude, if_neg (by omega)]
  calc 2 ^ 149 = 2 ^ 23 * 2 ^ 126 := by norm_num
    _ ≤ _ := Nat.mul_le_mul (Nat.le_add_right _ _) (Nat.pow_le_pow_right two_pos (by omega))

/-! ### The comparison -/

variable {m : Nat}

theorem less24_of_finite (h : (p.extractLsb' 23 8).toNat ≠ 255) :
    less24 m p = true ↔ ((m * 2 ^ 125 : Nat) : Int) < signed (p.getLsbD 31) (finiteMagnitude p) := by
  rw [less24, f32Value_of_finite h, decide_eq_true_iff]

/-- The comparison of integers, both sides scaled by 2^-149. -/
theorem less24_iff_rat (h : (p.extractLsb' 23 8).toNat ≠ 255) :
    less24 m p = true ↔ (m : ℚ) * 2 ^ (-24 : ℤ) < f32Rat p := by
  have hm : (m : ℚ) * 2 ^ (-24 : ℤ) = ((m * 2 ^ 125 : Nat) : Int) * (2 : ℚ) ^ (-149 : ℤ) := by
    have hpow : (2 : ℚ) ^ (-24 : ℤ) = 2 ^ 125 * 2 ^ (-149 : ℤ) := by norm_num
    rw [hpow]
    push_cast
    ring
  rw [less24_of_finite h, hm, f32Rat_eq, mul_lt_mul_iff_left₀ (by positivity), Int.cast_lt]

theorem less24_of_not_finite (h : (p.extractLsb' 23 8).toNat = 255) :
    less24 m p = true ↔ p.extractLsb' 0 23 = 0 ∧ p.getLsbD 31 = false := by
  rw [less24, f32Value_of_not_finite h, fraction_eq_zero_iff]
  by_cases hf : (p.extractLsb' 0 23).toNat = 0
  · rw [if_neg (not_not.2 hf)]
    cases p.getLsbD 31 <;> simp [hf]
  · rw [if_pos hf]
    simp only [hf, false_and, Bool.false_eq_true]

theorem less24_of_one_le (hm : m < 2 ^ 24) (h1 : 0x3F800000 ≤ p.toNat) (h2 : p.toNat ≤ 0x7F800000) :
    less24 m p = true := by
  have hsign : p.getLsbD 31 = false := by rw [signBit_eq]; exact decide_eq_false (by omega)
  have he := toNat_exponent p
  by_cases hfin : (p.extractLsb' 23 8).toNat = 255
  · refine (less24_of_not_finite hfin).2 ⟨(fraction_eq_zero_iff p).2 ?_, hsign⟩
    rw [toNat_fraction]
    omega
  · have hmag : 2 ^ 149 ≤ finiteMagnitude p := le_finiteMagnitude (by omega)
    rw [less24_of_finite hfin, hsign]
    exact Int.ofNat_lt.2 (by omega)

theorem less24_of_negative (h : 0x80000000 ≤ p.toNat) : less24 m p = false := by
  have hsign : p.getLsbD 31 = true := by rw [signBit_eq]; exact decide_eq_true h
  rw [← Bool.not_eq_true]
  by_cases hfin : (p.extractLsb' 23 8).toNat = 255
  · rw [less24_of_not_finite hfin, hsign]
    simp
  · rw [less24_of_finite hfin, hsign]
    have := signed_nonpos (finiteMagnitude p)
    omega

end

/-- Settles O30: a finite pattern is compared as the rational it stands for, and the rest is read off the
pattern's fields. -/
theorem lessThanProbabilityIsExact : Obligations.LessThanProbabilityIsExact := fun _ _ hm =>
  ⟨less24_iff_rat, less24_of_not_finite, less24_of_one_le hm, less24_of_negative⟩

end Sys2Proof.Machine
end

