-- ==== Sys2Proof/Proofs/ManagerCopies.lean ====
section
/-! The frame of a command from the frame of its rule, and the three commands that copy a part of the manager
whole: `SNAPSHOT`, `CHECKPOINT` and `ROLLBACK` (42_stream_manager R155, R157, R158). -/

namespace Sys2Proof.Machine

/-! ### The frame and the status of a command that completes -/

section
variable {i : Instr} {s u : State}

theorem ChangesOnly.framed (h : ChangesOnly (destination i s) s u) : Framed i s u :=
  h.mono fun _ => .inr

theorem Framed.setStatus (h : Framed i s u) (t : Status) : Framed i s (u.setStatus t) :=
  ChangesOnly.trans h ((setStatus_changesOnly u t).mono fun _ => .inl)

/-- A rule that writes its destinations only makes a completing command that keeps the frame. -/
theorem ChangesOnly.framed_complete (h : ChangesOnly (destination i s) s u) : Framed i s u.complete :=
  h.framed.setStatus _

theorem complete_status_of_eq {st : Status} (h : u.block.status = st) :
    u.complete.block.status = { st with err := none } := by
  rw [complete_status, h]

end

/-! ### `SNAPSHOT` -/

/-- Settles O38: the rule writes `SNAP`, and its entries are the counters. -/
theorem snapshotCopiesTheCounters : Obligations.SnapshotCopiesTheCounters := by
  refine ⟨encode_eq_ofNat _, fun s => ⟨runInit_of_not_init, fun hi => ?_⟩⟩
  have hframe : ChangesOnly (destination .snapshot s) s (s.setSnap s.block.mgr.counters) :=
    setSnap_changesOnly s _
  exact ⟨_, runInit_of_init hi, counters_get _, rfl, hframe.framed_complete⟩

/-! ### `CHECKPOINT` -/

/-- The host cannot read the shadow bank (10_state R33). -/
@[simp] theorem setShadow_port (s : State) (m : Manager) (a : Addr) : (s.setShadow m).port a = s.port a := by
  unfold State.port
  cases locOf a <;> rfl

theorem locOf_ne_status {a : Addr} (h : a ≠ 0x001) : locOf a ≠ .status := by
  intro hl
  have ha := locOf_address (a := a) (by rw [hl]; decide)
  rw [hl] at ha
  exact h (BitVec.eq_of_toNat_eq ha.symm)

theorem setStatus_port (s : State) (t : Status) {a : Addr} (h : a ≠ 0x001) :
    (s.setStatus t).port a = s.port a := (setStatus_changesOnly s t).port a (locOf_ne_status h)

/-- Settles O40: the rule writes the shadow bank, which the host cannot read, and `STATUS`. -/
theorem checkpointCopiesTheManager : Obligations.CheckpointCopiesTheManager := by
  refine ⟨encode_eq_ofNat _, fun s => ⟨runInit_of_not_init, fun hi => ?_⟩⟩
  refine ⟨_, runInit_of_init hi, rfl, rfl, fun a ha => ?_, rfl, rfl, rfl, rfl⟩
  rw [State.complete, setStatus_port _ _ ha, State.setCkpt, setStatus_port _ _ ha, setShadow_port]

/-! ### `ROLLBACK` -/

theorem rollbackRule_of_ckpt {s : State} (h : s.block.status.ckpt = true) :
    rollbackRule s = .ok () (s.setMgr s.block.shadow) := if_pos h

theorem rollbackRule_of_no_ckpt {s : State} (h : s.block.status.ckpt = false) :
    rollbackRule s = .raised .noCkpt s := if_neg (by simp [h])

/-- Settles O41: the rule writes the manager only. -/
theorem rollbackCopiesTheShadowBank : Obligations.RollbackCopiesTheShadowBank := by
  refine ⟨encode_eq_ofNat _, fun s => ⟨fun hc => ?_, fun hc => ?_⟩⟩
  · exact congrArg finish (rollbackRule_of_no_ckpt hc)
  · have hframe : ChangesOnly (destination .rollback s) s (s.setMgr s.block.shadow) := setMgr_changesOnly s _
    exact ⟨_, congrArg finish (rollbackRule_of_ckpt hc), rfl, rfl, hframe.framed_complete⟩

end Sys2Proof.Machine
end

