-- ==== Sys2Proof/Proofs/ManagerSeeds.lean ====
section
/-! The commands that construct streams from the seeding rule (42_stream_manager R150): `INIT`, `RESTORE`,
`FLOOR_ADV` and `ACT_SEED` (R151, R156, R152, R153). -/

namespace Sys2Proof.Machine

/-! ### The operands as numbers -/

section
variable (s : State)

theorem toNat_floorOperand : s.floorOperand.toNat = s.block.opa.toNat % 2 ^ 32 := by
  rw [State.floorOperand, BitVec.extractLsb'_toNat, Nat.shiftRight_zero]

theorem toNat_actOperand : s.actOperand.toNat = s.block.opa.toNat % 2 ^ 8 := by
  rw [State.actOperand, BitVec.extractLsb'_toNat, Nat.shiftRight_zero]

theorem toNat_restoreFloorOperand : s.restoreFloorOperand.toNat = s.block.opb.toNat % 2 ^ 32 := by
  rw [State.restoreFloorOperand, BitVec.extractLsb'_toNat, Nat.shiftRight_zero]

theorem toNat_restoreActOperand :
    s.restoreActOperand.toNat = s.block.opb.toNat / 2 ^ 32 % 2 ^ 8 := by
  rw [State.restoreActOperand, BitVec.extractLsb'_toNat, Nat.shiftRight_eq_div_pow]

theorem snapOperand_le (i : StreamId) : s.snapOperand i ≤ 2 ^ 32 - 1 :=
  Nat.le_sub_one_of_lt s.block.snap[i.val].isLt

end

/-! ### The seeding rule -/

/-- A seed and a floor, added as integers and reduced to 64 bits (42_stream_manager R150). -/
theorem add_zeroExtended (base : Word) (floor : BitVec 32) :
    base + zeroExtended floor = BitVec.ofNat 64 (base.toNat + floor.toNat) := by
  rw [BitVec.ofNat_add, BitVec.ofNat_toNat, BitVec.ofNat_toNat, BitVec.setWidth_eq, zeroExtended]

/-- The table is not empty, so act 0 has its first entry. -/
theorem actOffset_zero (p : Config) : actOffset p 0 = p.actOffset.head p.actOffset_ne_nil := by
  rw [actOffset, List.getD_eq_getElem _ _ (List.length_pos_iff.2 p.actOffset_ne_nil),
    List.head_eq_getElem]

theorem actOffset_of_lt {p : Config} {a : Nat} (h : a < p.actOffset.length) :
    actOffset p a = p.actOffset[a] := List.getD_eq_getElem _ _ h

/-- On floor 0 every stream but the map's has the base seed. -/
theorem ruleSeed_floor_zero (p : Config) (base : Word) (act : Nat) {i : StreamId} (h : i.val ≤ 11) :
    ruleSeed p base 0 act i = base := by
  have hzero : zeroExtended (0 : BitVec 32) = 0 := rfl
  rw [ruleSeed, if_pos h, hzero, add_zero, ite_self]

theorem replay_zero_ok {p : Config} {r r' : Row} (h : replay p 0 r = .ok () r') : r' = r := by
  cases h
  rfl

/-! ### `INIT` and `RESTORE` -/

section
variable {seed : Word} {floor : BitVec 32} {act : BitVec 8} {countOf : StreamId → Nat} {s t : State}

/-- What a rebuild leaves in `STATUS` and the manager's registers. -/
theorem rebuild_regs (h : rebuild seed floor act countOf s = .ok () t) :
    t.block.mgr.baseSeed = seed ∧ t.block.mgr.floor = floor ∧ t.block.mgr.act = act ∧
      t.block.status = { s.block.status with init := true } := by
  obtain ⟨u, hu, rfl, -⟩ := rebuild_ok h
  refine ⟨rfl, rfl, rfl, ?_⟩
  rw [setInit_status, setManagerRegs_status, hu.untouched.status]

theorem rebuild_row (h : rebuild seed floor act countOf s = .ok () t) (i : StreamId) :
    replay s.params (countOf i) (Row.seeded s.params (ruleSeed s.params seed floor act.toNat i)) =
      .ok () (t.row i) := by
  obtain ⟨u, -, -, hrow⟩ := rebuild_ok h
  exact hrow i

theorem rebuild_framed {i : Instr} (hd : ∀ l, managerLoc l → destination i s l)
    (h : rebuild seed floor act countOf s = .ok () t) : Framed i s t.complete := by
  obtain ⟨u, hu, rfl, -⟩ := rebuild_ok h
  have hrows : ChangesOnly managerLoc s u :=
    hu.changesOnly.mono fun l ⟨j, _, hj⟩ => .inr (.inr (.inr ⟨j, hj⟩))
  have hregs := hrows.trans (setManagerRegs_changesOnly u seed floor act)
  exact ((hregs.mono hd).framed.setStatus _).setStatus _

end

/-- Settles O34: the rule is a rebuild with no replayed draw, so each row is its stream's seed's. -/
theorem initConstructsEveryStream : Obligations.InitConstructsEveryStream := by
  refine ⟨encode_eq_ofNat _, fun s => ?_⟩
  obtain ⟨t, ht⟩ := initRule_total s
  obtain ⟨hseed, hfloor, hact, hstatus⟩ := rebuild_regs ht
  have hrow (i : StreamId) := replay_zero_ok (rebuild_row ht i)
  refine ⟨t.complete, congrArg finish ht, fun i hi => ?_, ?_, hseed, hfloor, hact,
    complete_status_of_eq hstatus, rebuild_framed (fun _ => id) ht⟩
  · exact (hrow i).trans (congrArg _ (ruleSeed_floor_zero _ _ _ hi))
  · exact (hrow mapStream).trans (congrArg _ (congrArg (_ + ·) (actOffset_zero s.params)))

theorem restoreRule_of_le {s : State} (h : s.params.nActs ≤ s.restoreActOperand.toNat) :
    restoreRule s = .raised .badArg s := if_pos h

theorem restoreRule_of_lt {s : State} (h : s.restoreActOperand.toNat < s.params.nActs) :
    restoreRule s = rebuild s.seedOperand s.restoreFloorOperand s.restoreActOperand s.snapOperand s :=
  if_neg (not_le.2 h)

/-- The seed of a restored stream, on the operands as numbers. -/
theorem restore_ruleSeed (s : State) (i : StreamId) :
    ruleSeed s.params s.seedOperand s.restoreFloorOperand s.restoreActOperand.toNat i =
      if i.val ≤ 6 then s.block.opa
      else if i.val ≤ 11 then BitVec.ofNat 64 (s.block.opa.toNat + s.block.opb.toNat % 2 ^ 32)
      else s.block.opa + s.params.actOffset.getD (s.block.opb.toNat / 2 ^ 32 % 2 ^ 8) 0 := by
  rw [ruleSeed, add_zeroExtended, toNat_restoreFloorOperand, toNat_restoreActOperand]
  rfl

/-- A `RESTORE` that answers has rebuilt the manager: its replays stay within the counter. -/
theorem exec_restore_next {s t : State} (hact : s.restoreActOperand.toNat < s.params.nActs)
    (h : exec .restore s = .next t) :
    ∃ u, rebuild s.seedOperand s.restoreFloorOperand s.restoreActOperand s.snapOperand s = .ok () u ∧
      t = u.complete := by
  rcases finish_eq_next.1 h with ⟨u, hu, ht⟩ | ⟨e, u, hu, -⟩
  · exact ⟨u, restoreRule_of_lt hact ▸ hu, ht⟩
  · rw [restoreRule_of_lt hact] at hu
    exact absurd hu (rebuild_ne_raised (snapOperand_le s))

/-- Settles O39: past its check the rule is a rebuild, each row the replay of its stream's seed. -/
theorem restoreRebuildsTheManager : Obligations.RestoreRebuildsTheManager := by
  refine ⟨encode_eq_ofNat _, fun s => ?_⟩
  intro floor act fresh
  have hact : s.restoreActOperand.toNat = act := toNat_restoreActOperand s
  refine ⟨fun h => congrArg finish (restoreRule_of_le (hact.symm ▸ h)), fun h => ?_⟩
  have hlt : s.restoreActOperand.toNat < s.params.nActs := hact.symm ▸ h
  refine ⟨fun t ht => ?_, fun hplain => ?_⟩
  · obtain ⟨u, hu, rfl⟩ := exec_restore_next hlt ht
    obtain ⟨hseed, hfloor, hact', hstatus⟩ := rebuild_regs hu
    refine ⟨fun i => BitVec.eq_of_toNat_eq ?_, hseed,
      (congrArg BitVec.toNat hfloor).trans (toNat_restoreFloorOperand s),
      (congrArg BitVec.toNat hact').trans hact,
      complete_status_of_eq hstatus, rebuild_framed (fun _ => id) hu⟩
    exact (replay_ctr (rebuild_row hu i)).trans (Nat.zero_add _)
  · have hreplay (i : StreamId) : replay s.params (s.snapOperand i) (Row.seeded s.params
        (ruleSeed s.params s.seedOperand s.restoreFloorOperand s.restoreActOperand.toNat i)) =
          .ok () ((fresh i).plainly (s.snapOperand i)) := by
      rw [restore_ruleSeed]
      exact replay_of_plain ((Nat.zero_add _).trans_le (snapOperand_le s i)) (hplain i)
    obtain ⟨u, hu⟩ := rebuild_total fun i => ⟨_, hreplay i⟩
    refine ⟨u.complete, congrArg finish ((restoreRule_of_lt hlt).trans hu), fun i => ?_⟩
    have hrow := (rebuild_row hu i).symm.trans (hreplay i)
    injection hrow

/-! ### `FLOOR_ADV` -/

theorem floorAdvRule_framed {s t : State} (h : floorAdvRule s = .ok () t) : Framed .floorAdv s t.complete := by
  obtain ⟨u, hu, rfl, -⟩ := floorAdvRule_ok h
  have hrows : ChangesOnly (destination .floorAdv s) s u := hu.changesOnly.mono fun l ⟨j, hj, hl⟩ =>
    .inr ⟨j, ((mem_floorStreams j).1 hj).1, ((mem_floorStreams j).1 hj).2, hl⟩
  exact (hrows.trans ((setFloor_changesOnly u _).mono fun _ => .inl)).framed_complete

/-- Settles O35: the rule constructs the five per-floor streams and no other, then writes `FLOOR`. -/
theorem floorAdvReplacesPerFloorStreams : Obligations.FloorAdvReplacesPerFloorStreams := by
  refine ⟨encode_eq_ofNat _, fun s => ⟨runInit_of_not_init, fun hi => ?_⟩⟩
  obtain ⟨t, ht⟩ := floorAdvRule_total s
  have hframe := floorAdvRule_framed ht
  obtain ⟨u, hu, rfl, hrow⟩ := floorAdvRule_ok ht
  refine ⟨_, (runInit_of_init hi).trans (congrArg finish ht), fun i h7 h11 => ?_, fun i h => ?_,
    toNat_floorOperand s, complete_status_of_eq hu.untouched.status, hframe⟩
  · rw [← toNat_floorOperand, ← add_zeroExtended]
    exact hrow i ((mem_floorStreams i).2 ⟨h7, h11⟩)
  · refine hu.rows i fun hmem => ?_
    obtain ⟨h7, h11⟩ := (mem_floorStreams i).1 hmem
    omega

/-! ### `ACT_SEED` -/

/-- Settles O36: past its checks the rule constructs the map stream and writes `ACT`. -/
theorem actSeedReplacesTheMapStream : Obligations.ActSeedReplacesTheMapStream := by
  refine ⟨encode_eq_ofNat _, fun s => ?_⟩
  intro act
  have hact : s.actOperand.toNat = act := toNat_actOperand s
  refine ⟨runInit_of_not_init, fun hi h => ?_, fun h hi => ?_⟩
  · exact (runInit_of_init hi).trans (congrArg finish (actSeedRule_of_le (hact.symm ▸ h)))
  · have hrule := actSeedRule_of_lt (s := s) (hact.symm ▸ h)
    rw [hact, actOffset_of_lt h] at hrule
    refine ⟨_, (runInit_of_init hi).trans (congrArg finish hrule), ?_, fun i hle => ?_, hact, rfl, ?_⟩
    · exact setRow_row_same s mapStream _
    · exact setRow_row_ne s _ (Fin.ne_of_lt (Nat.lt_succ_of_le hle))
    · refine ChangesOnly.framed_complete (.trans ?_ ((setAct_changesOnly _ _).mono fun _ => .inl))
      exact (setRow_changesOnly s mapStream _).mono fun _ => .inr

end Sys2Proof.Machine
end

