-- ==== Sys2Proof/Proofs/ActSnap.lean ====
section
/-! `ACT_SNAP` (42_stream_manager R154): the counter of the card stream is brought to the next boundary by one
replay draw for each count, and a boundary is left alone. -/

namespace Sys2Proof.Machine

section
variable {s t : State} {target : Nat}

theorem actSnapRule_of_none (h : snapTarget (s.row cardStream).ctr.toNat = none) :
    actSnapRule s = .ok () s := by
  rw [actSnapRule, h]

theorem actSnapRule_of_some (h : snapTarget (s.row cardStream).ctr.toNat = some target) :
    actSnapRule s =
      onRow cardStream (replay s.params (target - (s.row cardStream).ctr.toNat)) s := by
  rw [actSnapRule, h]

/-- A target lies above its counter, within the counter's range, and is a boundary itself. -/
theorem snapTarget_bounds {c : Nat} (h : snapTarget c = some target) :
    c < target ∧ target ≤ 2 ^ 32 - 1 ∧ snapTarget target = none := by
  have hc := snapTarget_eq_some.1 h
  exact ⟨by omega, by omega, snapTarget_eq_none.2 (by omega)⟩

/-- At a boundary `ACT_SNAP` changes `ERR` only. -/
theorem exec_actSnap_of_none (hi : s.block.status.init = true)
    (h : snapTarget (s.row cardStream).ctr.toNat = none) : exec .actSnap s = .next s.complete :=
  (runInit_of_init hi).trans (congrArg finish (actSnapRule_of_none h))

/-- An `ACT_SNAP` that answers between two boundaries has replayed the card row up to the upper one. -/
theorem exec_actSnap_next (hi : s.block.status.init = true)
    (h : snapTarget (s.row cardStream).ctr.toNat = some target) (ht : exec .actSnap s = .next t) :
    ∃ r, r.ctr.toNat = target ∧ t = (s.setRow cardStream r).complete := by
  rcases finish_eq_next.1 ((runInit_of_init hi).symm.trans ht) with ⟨u, hu, rfl⟩ | ⟨e, u, hu, -⟩
  · rw [actSnapRule_of_some h] at hu
    obtain ⟨r, hr, rfl⟩ := onRow_eq_ok.1 hu
    have hlt := (snapTarget_bounds h).1
    exact ⟨r, by rw [replay_ctr hr]; omega, rfl⟩
  · exact absurd hu actSnapRule_ne_raised

theorem exec_actSnap_of_plain (hi : s.block.status.init = true)
    (h : snapTarget (s.row cardStream).ctr.toNat = some target)
    (hp : (s.row cardStream).replaysPlainly s.params (target - (s.row cardStream).ctr.toNat)) :
    exec .actSnap s = .next (s.setRow cardStream
      ((s.row cardStream).plainly (target - (s.row cardStream).ctr.toNat))).complete := by
  obtain ⟨hlt, hmax, -⟩ := snapTarget_bounds h
  have hrule := (actSnapRule_of_some h).trans (onRow_of_ok (replay_of_plain (by omega) hp))
  exact (runInit_of_init hi).trans (congrArg finish hrule)

end

/-- A completed command has no error left to clear. -/
theorem complete_complete (s : State) : s.complete.complete = s.complete := rfl

/-- Settles O37: by the snap table's three ranges and its boundaries; a target is a boundary, so the second
`ACT_SNAP` changes nothing. -/
theorem actSnapMapsTheCardCounter : Obligations.ActSnapMapsTheCardCounter := by
  refine ⟨encode_eq_ofNat _, fun s => ⟨runInit_of_not_init, fun hi hc => ?_, fun target hi hc => ?_⟩⟩
  · exact exec_actSnap_of_none hi (snapTarget_eq_none.2 hc)
  · have hsome := snapTarget_eq_some.2 hc
    refine ⟨exec_actSnap_of_plain hi hsome, fun t ht => ?_⟩
    obtain ⟨r, hr, rfl⟩ := exec_actSnap_next hi hsome ht
    have hctr : (((s.setRow cardStream r).complete).row cardStream).ctr.toNat = target := by
      rw [complete_row, setRow_row_same, hr]
    refine ⟨hctr, ?_, ChangesOnly.framed_complete (setRow_changesOnly s cardStream r)⟩
    rw [exec_actSnap_of_none (s := (s.setRow cardStream r).complete) hi
      (hctr ▸ (snapTarget_bounds hsome).2.2), complete_complete]

end Sys2Proof.Machine
end

