-- ==== Sys2Proof/Proofs/Shuffle.lean ====
section
/-! `SHUFFLE` (43_shuffle R180 to R182): its two checks, the permutation it makes, and how far its counter
moves. Each draw of the engine is followed by one swap, so each fact goes by induction on the draws left. -/

namespace Sys2Proof.Machine

theorem toNat_lenOperand (s : State) : s.lenOperand = s.block.opa.toNat % 2 ^ 16 := by
  rw [State.lenOperand, BitVec.extractLsb'_toNat, Nat.shiftRight_zero]

section
variable {s t : State} {i : StreamId}

/-! ### The checks -/

theorem shuffleRule_of_long (h : 1024 < s.lenOperand) : shuffleRule i s = .raised .badArg s := if_pos h

theorem shuffleRule_of_full (h : s.lenOperand ≤ 1024) (h2 : 2 ≤ s.lenOperand)
    (hc : 2 ^ 32 - 1 < (s.row i).ctr.toNat + (s.lenOperand - 1)) :
    shuffleRule i s = .raised .ctrOvf s :=
  (if_neg (Nat.not_lt.2 h)).trans (if_pos ⟨h2, hc⟩)

theorem shuffleRule_of_room (h : s.lenOperand ≤ 1024)
    (hc : s.lenOperand < 2 ∨ (s.row i).ctr.toNat + (s.lenOperand - 1) ≤ 2 ^ 32 - 1) :
    shuffleRule i s = shuffleFrom i (s.lenOperand - 1) s := by
  have hroom : ¬(2 ≤ s.lenOperand ∧ ctrMax < (s.row i).ctr.toNat + (s.lenOperand - 1)) :=
    fun ⟨h2, hfull⟩ => hc.elim (Nat.not_lt.2 h2) (Nat.not_le.2 hfull)
  exact (if_neg (Nat.not_lt.2 h)).trans (if_neg hroom)

/-- A length below 2 makes no draw, and so needs no room. -/
theorem ctr_add_draws_le (hc : s.lenOperand < 2 ∨ (s.row i).ctr.toNat + (s.lenOperand - 1) ≤ 2 ^ 32 - 1) :
    (s.row i).ctr.toNat + (s.lenOperand - 1) ≤ 2 ^ 32 - 1 := by
  have hmax := (s.row i).ctr.isLt
  omega

/-! ### Draws that are each accepted at once -/

theorem bitsAt_drawn_zero (p : Config) (r : Row) (k : Nat) :
    (r.drawn 0).bitsAt p k = r.bitsAt p (k + 1) := by
  rw [Row.drawn, bitsAt_withCtr, bitsAt_advance, Nat.zero_add, Nat.add_comm]

/-- The state after the first pass of a shuffle whose first raw draw is accepted at once. -/
def State.shuffledOnce (i : StreamId) (n : Nat) (s : State) : State :=
  (s.setRow i ((s.row i).drawn 0)).swapItems (n + 1) ((s.row i).bitsAt s.params 0 % (n + 2))

theorem shuffleFrom_succ_of_plain {n : Nat} (hc : (s.row i).ctr.toNat < 2 ^ 32 - 1)
    (h : NoOverflow ((s.row i).bitsAt s.params 0) (n + 2)) :
    shuffleFrom i (n + 1) s = shuffleFrom i n (s.shuffledOnce i n) := by
  have hsize : (((n + 1 : Nat) : Int) - 0 + 1).toNat = n + 2 := by omega
  have hdraw := drawRange_of_redraws (lo := 0) (hi := (n + 1 : Nat)) (by omega) hc
    (hsize ▸ redraws_zero h)
  rw [hsize, Int.zero_add] at hdraw
  rw [shuffleFrom, onRow_of_ok hdraw, Res.bind_ok_left, Int.toNat_natCast, State.shuffledOnce]

/-- The draw at index `k` of a shuffle from `n` is raw draw `n - k` (43_shuffle R180). -/
theorem shuffleFrom_of_plain {draw : Nat → Nat} {n : Nat}
    (hc : (s.row i).ctr.toNat + n ≤ 2 ^ 32 - 1)
    (hacc : ∀ k, 1 ≤ k → k ≤ n → NoOverflow ((s.row i).bitsAt s.params (n - k)) (k + 1))
    (hdraw : ∀ k, 1 ≤ k → k ≤ n → draw k = (s.row i).bitsAt s.params (n - k) % (k + 1)) :
    ∃ t, shuffleFrom i n s = .ok () t ∧ t.row i = (s.row i).plainly n ∧
      t.item = fisherYates draw n s.item := by
  induction n generalizing s with
  | zero => exact ⟨s, rfl, (plainly_zero _).symm, rfl⟩
  | succ n ih =>
    have hlt : (s.row i).ctr.toNat < 2 ^ 32 - 1 := by omega
    have hfirst := hacc (n + 1) (Nat.succ_pos n) le_rfl
    have hswap := hdraw (n + 1) (Nat.succ_pos n) le_rfl
    rw [Nat.sub_self] at hfirst hswap
    have hrow : (s.shuffledOnce i n).row i = (s.row i).drawn 0 := setRow_row_same s i _
    have hitem : (s.shuffledOnce i n).item = s.item ∘ Equiv.swap (n + 1) (draw (n + 1)) := by
      rw [hswap]
      exact funext (swapItems_item _ _ _)
    have hbits (k : Nat) (hk : k ≤ n) :
        ((s.shuffledOnce i n).row i).bitsAt (s.shuffledOnce i n).params (n - k) =
          (s.row i).bitsAt s.params (n + 1 - k) := by
      rw [hrow, bitsAt_drawn_zero, Nat.succ_sub hk]
      rfl
    obtain ⟨t, ht, htrow, htitem⟩ := ih (s := s.shuffledOnce i n)
      (by rw [hrow, drawn_ctr, ctr_succ hlt]; omega)
      (fun k h1 hk => hbits k hk ▸ hacc k h1 (Nat.le_succ_of_le hk))
      (fun k h1 hk => hbits k hk ▸ hdraw k h1 (Nat.le_succ_of_le hk))
    refine ⟨t, (shuffleFrom_succ_of_plain hlt hfirst).trans ht, ?_, ?_⟩
    · rw [htrow, hrow, plainly_succ]
    · rw [htitem, hitem, fisherYates]

/-! ### Every shuffle that completes, redraws or not -/

/-- The swaps make a permutation; they reach no entry from `len` on (43_shuffle R180). -/
theorem shuffleFrom_permutes {n len : Nat} (hn : n ≤ len - 1) (h : shuffleFrom i n s = .ok () t) :
    ∃ σ : Equiv.Perm Nat, (∀ k, len ≤ k → σ k = k) ∧ ∀ k, t.item k = s.item (σ k) := by
  induction n generalizing s with
  | zero =>
    cases h
    exact ⟨1, fun _ _ => rfl, fun _ => rfl⟩
  | succ n ih =>
    obtain ⟨m, -, -, h⟩ := shuffleFrom_succ_ok h
    obtain ⟨σ, hfix, hitem⟩ := ih (Nat.le_of_succ_le hn) h
    have hj : (s.row i).bitsAt s.params m % (n + 2) < n + 2 := Nat.mod_lt _ (Nat.succ_pos _)
    refine ⟨σ.trans (Equiv.swap (n + 1) ((s.row i).bitsAt s.params m % (n + 2))), fun k hk => ?_,
      fun k => ?_⟩
    · rw [Equiv.trans_apply, hfix k hk, Equiv.swap_apply_of_ne_of_ne (by omega) (by omega)]
    · rw [hitem, swapItems_item, setRow_item, Equiv.trans_apply]

/-- A shuffle writes its row and the entries below `len` (43_shuffle R180: "State written"). -/
theorem shuffleFrom_changesOnly {n len : Nat} (hn : n ≤ len - 1) (h : shuffleFrom i n s = .ok () t) :
    ChangesOnly (fun l => rowLocs i l ∨ ∃ k : Fin 1024, l = .item k ∧ k.val < len) s t := by
  induction n generalizing s with
  | zero =>
    cases h
    exact .refl _
  | succ n ih =>
    obtain ⟨m, -, -, h⟩ := shuffleFrom_succ_ok h
    have hj : (s.row i).bitsAt s.params m % (n + 2) < n + 2 := Nat.mod_lt _ (Nat.succ_pos _)
    have hrow := setRow_changesOnly s i ((s.row i).drawn m)
    have hswap := swapItems_changesOnly (s.setRow i ((s.row i).drawn m)) (n := len)
      (k := n + 1) (j := (s.row i).bitsAt s.params m % (n + 2)) (by omega) (by omega)
    exact ((hrow.mono fun _ => .inl).trans (hswap.mono fun _ => .inr)).trans
      (ih (Nat.le_of_succ_le hn) h)

end

/-! ### The command -/

/-- A `SHUFFLE` that ends without an error has passed its checks and has shuffled. -/
theorem exec_shuffle_completed {s t : State} {sid : BitVec 4} {i : StreamId} (hs : streamId? sid = some i)
    (h : exec (.shuffle sid) s = .next t) (herr : t.block.status.err = none) :
    ∃ u, shuffleFrom i (s.lenOperand - 1) s = .ok () u ∧ t = u.complete := by
  rcases exec_eq_next.1 h with ⟨u, hu, ht⟩ | ⟨e, u, -, rfl⟩
  · obtain ⟨j, hj, -, hrule⟩ := gateStream_ok.1 hu
    obtain rfl : i = j := Option.some.inj (hs.symm.trans hj)
    exact ⟨u, (shuffleRule_ok hrule).2, ht⟩
  · rw [raise_err] at herr
    cases herr

/-- Settles O46: the checks are the rule's, and past them each pass is a raw draw accepted at once and a
swap. -/
theorem shuffleResult : Obligations.ShuffleResult := by
  intro s sid i hs hi
  have hexec : exec (.shuffle sid) s = finish (shuffleRule i s) := runStream_ready hs hi
  rw [← toNat_lenOperand]
  intro len
  refine ⟨encode_eq_ofNat _, fun hlong => ?_, fun h2 hlen hfull => ?_, fun hlen hroom hplain => ?_⟩
  · rw [hexec, shuffleRule_of_long hlong, finish_raised]
  · rw [hexec, shuffleRule_of_full hlen h2 hfull, finish_raised]
  · obtain ⟨t, ht, hrow, hitem⟩ := shuffleFrom_of_plain (ctr_add_draws_le hroom)
      (fun k h1 hk => hplain k h1 (by omega)) (fun _ _ _ => rfl)
    have hstatus := (shuffleFrom_untouched (.inl ⟨(), ht⟩)).status
    refine ⟨t.complete, ?_, hrow, complete_status_of_eq hstatus, congrFun hitem⟩
    rw [hexec, shuffleRule_of_room hlen hroom, ht, finish_ok]

/-- Settles O47: each of the `len - 1` passes counts one draw and swaps two entries below `len`. -/
theorem shufflePermutesAndCounts : Obligations.ShufflePermutesAndCounts := by
  intro s t sid i hs h herr
  rw [← toNat_lenOperand]
  obtain ⟨u, hu, rfl⟩ := exec_shuffle_completed hs h herr
  have hctr := shuffleFrom_ctr hu
  have hitems := shuffleFrom_permutes le_rfl hu
  exact ⟨hctr, hitems⟩

end Sys2Proof.Machine
end

