-- ==== Sys2Proof/Proofs/EngineFrames.lean ====
section
/-! The frames of the three commands of the engines (43_shuffle R180, 44_reward R192 and R194): what the rule
of each writes, completing or failing, is among its command's destinations. -/

namespace Sys2Proof.Machine

section
variable {sid : BitVec 4} {i : StreamId} {s t : State}

theorem shuffleRule_changesOnly (hs : streamId? sid = some i) (h : (shuffleRule i s).leaves t) :
    ChangesOnly (destination (.shuffle sid) s) s t := by
  rcases h with ⟨_, h⟩ | ⟨e, h⟩
  · have hframe := shuffleFrom_changesOnly le_rfl (shuffleRule_ok h).2
    exact hframe.mono fun _ => .imp_left fun hrow => ⟨i, hs, hrow⟩
  · rw [(shuffleRule_raised h).1]
    exact .refl s

theorem rollRarityRule_changesOnly (hs : streamId? sid = some i) (h : (rollRarityRule i s).leaves t) :
    ChangesOnly (destination (.rollRarity sid) s) s t := by
  have hroll {u : State} (hu : (rollRarity i s).leaves u) :
      ChangesOnly (destination (.rollRarity sid) s) s u :=
    (rollRarity_changesOnly hu).mono fun _ hl => .inr (.inr (hl.imp_right fun hrow => ⟨i, hs, hrow⟩))
  rcases Res.leaves_bind h with ⟨e, h⟩ | ⟨rr, u, hu, h⟩
  · exact hroll (.inr ⟨e, h⟩)
  · rw [Res.leaves_ok.1 h]
    have hres0 := setRes0_changesOnly u (zeroExtended rr.1.code)
    have hres1 := setRes1_changesOnly (u.setRes0 (zeroExtended rr.1.code)) (toU64 rr.2)
    exact ((hroll (.inl ⟨rr, hu⟩)).trans (hres0.mono fun _ => .inl)).trans
      (hres1.mono fun _ hl => .inr (.inl hl))

/-- The batch writes the `REWARD` entries, `PITY_OFFSET` and its row; `RES0` is written by a complete one
only. -/
theorem genRewardsRule_changesOnly (hs : streamId? sid = some i) (h : (genRewardsRule i s).leaves t) :
    ChangesOnly (destination (.genRewards sid) s) s t := by
  have hbatch {u v : State} (hv : ChangesOnly (batchLocs i) u v) :
      ChangesOnly (destination (.genRewards sid) s) u v :=
    hv.mono fun _ hl => .inr (hl.imp_right (.imp_right fun hrow => ⟨i, hs, hrow⟩))
  have hclear : ChangesOnly (batchLocs i) s s.clearRewards :=
    (setRewards_changesOnly s _).mono fun _ hl => .inr (.inl hl)
  rcases h with ⟨_, h⟩ | ⟨e, h⟩
  · obtain ⟨-, -, u, v, hu, hv, rfl⟩ := genRewardsRule_ok h
    have hslots := genSlots_changesOnly (.inl ⟨_, hu⟩)
    have hupgrades := upgradeBatch_changesOnly (.inl ⟨_, hv⟩)
    exact (hbatch ((hclear.trans hslots).trans hupgrades)).trans
      ((setRes0_changesOnly v _).mono fun _ => .inl)
  · rcases genRewardsRule_raised h with ⟨-, -, rfl⟩ | ⟨-, -, hu | ⟨u, hu, hv⟩⟩
    · exact .refl t
    · exact hbatch (hclear.trans (genSlots_changesOnly (.inr ⟨e, hu⟩)))
    · have hslots := genSlots_changesOnly (.inl ⟨_, hu⟩)
      have hupgrades := upgradeBatch_changesOnly (.inr ⟨e, hv⟩)
      exact hbatch ((hclear.trans hslots).trans hupgrades)

end

/-- Settles O54: each command is its rule behind the stream check, and writes `STATUS` besides. -/
theorem engineCommandsFrame : Obligations.EngineCommandsFrame := by
  intro i sid s t hi h
  have hstatus (l : Loc) (hl : l = .status) : l = .status ∨ destination i s l := .inl hl
  simp only [List.mem_cons, List.not_mem_nil, or_false] at hi
  rcases hi with rfl | rfl | rfl
  · exact runStream_changesOnly h hstatus fun _ _ hs hu => (shuffleRule_changesOnly hs hu).framed
  · exact runStream_changesOnly h hstatus fun _ _ hs hu => (rollRarityRule_changesOnly hs hu).framed
  · exact runStream_changesOnly h hstatus fun _ _ hs hu => (genRewardsRule_changesOnly hs hu).framed

end Sys2Proof.Machine
end

