-- ==== Sys2Proof/Proofs/RarityRoll.lean ====
section
/-! The pity timer and the rarity roll (44_reward R192, R193, R195, R199): the offset after a run of COMMON
results, and the rule of `ROLL_RARITY` as one equation per case of its counter. -/

namespace Sys2Proof.Machine

/-! ### The pity timer -/

/-- Settles O49: the rule is one write of `PITY_OFFSET`, with no check before it. -/
theorem pityResetLoadsTheStart : Obligations.PityResetLoadsTheStart :=
  ⟨encode_eq_ofNat _, fun _ => rfl⟩

/-- A COMMON result lowers by `PITY_STEP` and clamps; clamping at each step is clamping once at the end
(44_reward R199). -/
theorem iterate_nextPityOffset_common (c : RewardConfig) (off : BitVec 16) (k : Nat) :
    ((fun o => nextPityOffset c o .common)^[k + 1] off).toInt =
      max (off.toInt - (k + 1 : Nat) * c.pityStep.toNat) c.pityFloor.toInt := by
  induction k with
  | zero => rw [Function.iterate_one, nextPityOffset_common, Nat.zero_add, Nat.cast_one, one_mul]
  | succ k ih =>
    rw [Function.iterate_succ_apply', nextPityOffset_common, ih, Nat.cast_succ (k + 1), add_one_mul]
    omega

/-- Settles O50: no result leaves the first offset, which is then not below the floor. -/
theorem pityOffsetAfterCommonResults : Obligations.PityOffsetAfterCommonResults := by
  intro c off k hk
  cases k with
  | zero =>
    have hfloor : c.pityFloor.toInt ≤ off.toInt := hk.resolve_left (by decide)
    rw [Function.iterate_zero_apply, Nat.cast_zero, zero_mul, sub_zero, max_eq_left hfloor]
  | succ k => exact iterate_nextPityOffset_common c off k

/-! ### The rarity of a roll -/

section
variable {c : RewardConfig} {v : Int}

theorem rarityOf_of_lt_rare (h : v < c.rarePct.toInt) : rarityOf c v = .rare := if_pos h

theorem rarityOf_of_lt_sum (h : c.rarePct.toInt ≤ v) (hsum : v < c.rarePct.toInt + c.uncPct.toInt) :
    rarityOf c v = .uncommon := (if_neg (not_lt.2 h)).trans (if_pos hsum)

theorem rarityOf_of_sum_le (h : c.rarePct.toInt ≤ v) (hsum : c.rarePct.toInt + c.uncPct.toInt ≤ v) :
    rarityOf c v = .common := (if_neg (not_lt.2 h)).trans (if_neg (not_lt.2 hsum))

end

theorem offsetAfter_uncommon (c : RewardConfig) (off : BitVec 16) : offsetAfter c off .uncommon = off :=
  ite_self off

theorem offsetAfter_common (c : RewardConfig) (off : BitVec 16) : (offsetAfter c off .common).toInt =
    if c.pityDis then off.toInt else max (off.toInt - c.pityStep.toNat) c.pityFloor.toInt := by
  rw [offsetAfter, apply_ite BitVec.toInt, nextPityOffset_common]

/-! ### `ROLL_RARITY` -/

section
variable {i : StreamId} {s : State}

theorem rollRarity_of_max (hc : (s.row i).ctr.toNat = 2 ^ 32 - 1) : rollRarity i s = .raised .ctrOvf s :=
  rollRarity_eq_raised.2 ⟨hc, rfl, rfl⟩

theorem rollRarityRule_of_max (hc : (s.row i).ctr.toNat = 2 ^ 32 - 1) :
    rollRarityRule i s = .raised .ctrOvf s := by
  rw [rollRarityRule, rollRarity_of_max hc, Res.bind_raised]

theorem rollRarityRule_of_redraws {k : Nat} (hc : (s.row i).ctr.toNat < 2 ^ 32 - 1)
    (hk : (s.row i).redraws s.params 100 k) :
    let roll := (s.row i).bitsAt s.params k % 100
    let r := rarityOfRoll s.block.cfg s.block.pityOffset roll
    rollRarityRule i s = .ok () ((((s.setRow i ((s.row i).drawn k)).setPityOffset
      (offsetAfter s.block.cfg s.block.pityOffset r)).setRes0 (zeroExtended r.code)).setRes1 (toU64 roll)) := by
  intro roll r
  rw [rollRarityRule, rollRarity_of_redraws hc hk, Res.bind_ok_left]

end

/-- Settles O48: past its checks the command ends as its rule does, and each range of `v` names a rarity. -/
theorem rollRarityResult : Obligations.RollRarityResult := by
  intro s sid i hs hi
  have hexec : exec (.rollRarity sid) s = finish (rollRarityRule i s) := runStream_ready hs hi
  refine ⟨encode_eq_ofNat _, fun hc => ?_, fun k hc hk => ?_⟩
  · rw [hexec, rollRarityRule_of_max hc, finish_raised]
  intro roll dis v rare unc
  have hroll : (toU64 roll).toNat = roll := by
    have hlt : roll < 100 := Nat.mod_lt _ (by decide)
    rw [toU64, BitVec.ofInt_natCast, BitVec.toNat_ofNat, Nat.mod_eq_of_lt (hlt.trans (by decide))]
  rw [hexec, rollRarityRule_of_redraws hc hk, finish_ok]
  refine ⟨_, rfl, setRow_row_same s i _, hroll, fun hv => ?_, fun hle hv => ?_, fun hle hv => ?_, rfl⟩
  · have hr : rarityOfRoll s.block.cfg s.block.pityOffset roll = .rare := rarityOf_of_lt_rare hv
    rw [hr]
    exact ⟨rfl, rfl⟩
  · have hr : rarityOfRoll s.block.cfg s.block.pityOffset roll = .uncommon := rarityOf_of_lt_sum hle hv
    rw [hr]
    exact ⟨rfl, offsetAfter_uncommon _ _⟩
  · have hr : rarityOfRoll s.block.cfg s.block.pityOffset roll = .common := rarityOf_of_sum_le hle hv
    rw [hr]
    exact ⟨rfl, offsetAfter_common _ _⟩

end Sys2Proof.Machine
end

