-- ==== Sys2Proof/Proofs/RewardBatch.lean ====
section
/-! The steps of `GEN_REWARDS` (44_reward R194) from known draws: a batch changes one row, `PITY_OFFSET` and
`REWARD` only, so each state in the middle of it is written as the first state with these three replaced, and
each step is one equation between such states. -/

namespace Sys2Proof.Machine

/-! ### States in the middle of a batch -/

/-- `s` with row `i`, `PITY_OFFSET` and `REWARD` replaced: a state in the middle of a batch that began in
`s` (44_reward R194: "State written"). -/
def State.batch (s : State) (i : StreamId) (row : Row) (off : BitVec 16) (v : Vector RewardSlot 16) : State :=
  ((s.setRewards v).setRow i row).setPityOffset off

/-- `REWARD` with every entry 0. -/
def noRewards : Vector RewardSlot 16 := Vector.replicate 16 RewardSlot.empty

section
variable (s : State) (i : StreamId) (row row' : Row) (off off' : BitVec 16) (v v' : Vector RewardSlot 16)

@[simp] theorem batch_row : (s.batch i row off v).row i = row := setRow_row_same (s.setRewards v) i row
@[simp] theorem batch_pityOffset : (s.batch i row off v).block.pityOffset = off := rfl
@[simp] theorem batch_reward : (s.batch i row off v).block.reward = v := rfl
@[simp] theorem batch_cfg : (s.batch i row off v).block.cfg = s.block.cfg := rfl
@[simp] theorem batch_params : (s.batch i row off v).params = s.params := rfl

theorem batch_earlier (k : Nat) : (s.batch i row off v).earlier k = v.toList.take k := rfl

@[simp] theorem batch_setRow : (s.batch i row off v).setRow i row' = s.batch i row' off v :=
  congrArg (State.setPityOffset off) (setRow_setRow (s.setRewards v) i row row')
@[simp] theorem batch_setPityOffset : (s.batch i row off v).setPityOffset off' = s.batch i row off' v := rfl

theorem batch_setReward (k : Nat) (slot : RewardSlot) :
    (s.batch i row off v).setReward k slot = s.batch i row off (v.setIfInBounds k slot) := rfl

theorem batch_setUpgrade (k : Nat) (b : Bool) : (s.batch i row off v).setUpgrade k b =
    s.batch i row off (v.setIfInBounds k { v.getD k RewardSlot.empty with upg := b }) := rfl

theorem clearRewards_eq_batch : s.clearRewards = s.batch i (s.row i) s.block.pityOffset noRewards :=
  congrArg (State.setPityOffset s.block.pityOffset) (setRow_self s.clearRewards i).symm

end

/-! ### The draws of a slot -/

/-- The upgrade draw from a row on the configured probability: its outcome (41_draws R124). -/
def upgradeDraw (p : Config) (c : RewardConfig) (row : Row) : Bool :=
  less24 ((row.rawAt 0).toNat / 2 ^ p.floatLow.val % 2 ^ 24) c.upgP

theorem floatRaw_toNat (p : Config) (raw : Word) :
    (floatRaw p raw).toNat = raw.toNat / 2 ^ p.floatLow.val % 2 ^ 24 := by
  rw [floatRaw, BitVec.extractLsb'_toNat, Nat.shiftRight_eq_div_pow]

/-- The row after the upgrade draw inside a slot, made in `UPG_MODE` 1 (44_reward R198). -/
def rowAfterSlot (c : RewardConfig) (row : Row) : Row := if c.upgMode = 1 then row.drawn 0 else row

section
variable {s : State} {i : StreamId} {row : Row} {off : BitVec 16} {v : Vector RewardSlot 16} {k n : Nat}

theorem rollRarity_batch {a : Nat} {r : Rarity} (hc : row.ctr.toNat < 2 ^ 32 - 1)
    (ha : row.redraws s.params 100 a)
    (hr : rarityOfRoll s.block.cfg off (row.bitsAt s.params a % 100) = r) :
    rollRarity i (s.batch i row off v) = .ok (r, ((row.bitsAt s.params a % 100 : Nat) : Int))
      (s.batch i (row.drawn a) (offsetAfter s.block.cfg off r) v) := by
  have h := rollRarity_of_redraws (i := i) (s := s.batch i row off v) (k := a)
    (by rwa [batch_row]) (by rwa [batch_row])
  simpa only [batch_row, batch_setRow, batch_setPityOffset, batch_params, batch_cfg, batch_pityOffset, hr]
    using h

theorem drawChance_batch (hc : row.ctr.toNat < 2 ^ 32 - 1) :
    onRow i (drawChance s.params s.block.cfg.upgP) (s.batch i row off v) =
      .ok (upgradeDraw s.params s.block.cfg row) (s.batch i (row.drawn 0) off v) := by
  have h := drawChance_of_lt (p := s.params) (pat := s.block.cfg.upgP) hc
  rw [floatRaw_toNat] at h
  rw [onRow_of_ok (by rwa [batch_row]), batch_setRow]
  rfl

theorem upgradeInSlot_batch (hc : s.block.cfg.upgMode = 1 → row.ctr.toNat < 2 ^ 32 - 1) :
    upgradeInSlot i (s.batch i row off v) =
      .ok (decide (s.block.cfg.upgMode = 1) && upgradeDraw s.params s.block.cfg row)
        (s.batch i (rowAfterSlot s.block.cfg row) off v) := by
  rw [upgradeInSlot, rowAfterSlot, batch_cfg, batch_params]
  by_cases hm : s.block.cfg.upgMode = 1
  · rw [if_pos hm, if_pos hm, drawChance_batch (hc hm), decide_eq_true hm, Bool.true_and]
  · rw [if_neg hm, if_neg hm, decide_eq_false hm, Bool.false_and]

end

/-! ### The index draw -/

section
variable {s : State} {i : StreamId} {row : Row} {off : BitVec 16} {v : Vector RewardSlot 16} {r : Rarity}
  {slots : List RewardSlot}

/-- An index draw on a full counter fails before anything changes (41_draws R120). -/
theorem pickIndex_of_max {fuel : Nat} (hp : s.block.cfg.poolSize r ≠ 0)
    (hc : (s.row i).ctr.toNat = 2 ^ 32 - 1) : pickIndex i r slots (fuel + 1) s = .raised .ctrOvf s := by
  have hdraw : onRow i (drawRange s.params 0 ((s.block.cfg.poolSize r : Int) - 1)) s = .raised .ctrOvf s :=
    onRow_eq_raised.2 ⟨_, drawRange_eq_raised.2 ⟨rfl, .inr ⟨by omega, hc, rfl⟩⟩, (setRow_self s i).symm⟩
  rw [pickIndex, hdraw, Res.bind_raised]

/-- An index of a pool, below 2^31, is kept by its 31-bit field. -/
theorem ofNat_index_inj {c : RewardConfig} {a b : Nat} (ha : a < c.poolSize r) (hb : b < c.poolSize r) :
    BitVec.ofNat 31 a = BitVec.ofNat 31 b ↔ a = b := by
  have hpool : c.poolSize r < 2 ^ 31 := (c.poolReg r).isLt
  rw [← BitVec.toNat_inj, BitVec.toNat_ofNat, BitVec.toNat_ofNat, Nat.mod_eq_of_lt (ha.trans hpool),
    Nat.mod_eq_of_lt (hb.trans hpool)]

variable {k : Nat} (hp : s.block.cfg.poolSize r ≠ 0) (hc : row.ctr.toNat < 2 ^ 32 - 1)
  (hk : row.redraws s.params (s.block.cfg.poolSize r) k)
include hp hc hk

/-- An index draw that repeats no earlier slot is taken. -/
theorem pickIndex_batch_of_fresh {fuel : Nat}
    (hd : isDuplicate r (BitVec.ofNat 31 (row.bitsAt s.params k % s.block.cfg.poolSize r)) slots = false) :
    pickIndex i r slots (fuel + 1) (s.batch i row off v) =
      .ok (BitVec.ofNat 31 (row.bitsAt s.params k % s.block.cfg.poolSize r))
        (s.batch i (row.drawn k) off v) := by
  have h := pickIndex_of_redraws (i := i) (slots := slots) (fuel := fuel) (s := s.batch i row off v) hp
    (by rwa [batch_row]) (by rwa [batch_row])
  simpa only [batch_row, batch_setRow, batch_params, batch_cfg, hd, Bool.false_eq_true, if_false] using h

/-- An index draw that repeats an earlier slot is made again, and nothing else is (44_reward R196). -/
theorem pickIndex_batch_of_duplicate {fuel : Nat}
    (hd : isDuplicate r (BitVec.ofNat 31 (row.bitsAt s.params k % s.block.cfg.poolSize r)) slots = true) :
    pickIndex i r slots (fuel + 1) (s.batch i row off v) =
      pickIndex i r slots fuel (s.batch i (row.drawn k) off v) := by
  have h := pickIndex_of_redraws (i := i) (slots := slots) (fuel := fuel) (s := s.batch i row off v) hp
    (by rwa [batch_row]) (by rwa [batch_row])
  simpa only [batch_row, batch_setRow, batch_params, batch_cfg, hd, if_true] using h

end

/-! ### One slot -/

/-- The duplicate loop of a slot has fuel for two passes at least; what more it has plays no part in the
lemmas on known draws. -/
theorem exists_duplicateFuel : ∃ fuel, Config.duplicateFuel = fuel + 2 := ⟨2 ^ 32 - 2, rfl⟩

section
variable {s t u : State} {i : StreamId} {k : Nat} {r : Rarity} {roll : Int} {e : Err}

theorem genSlot_of_max (hc : (s.row i).ctr.toNat = 2 ^ 32 - 1) : genSlot i k s = .raised .ctrOvf s := by
  rw [genSlot, rollRarity_of_max hc, Res.bind_raised]

variable (hr : rollRarity i s = .ok (r, roll) t)
include hr

theorem genSlot_of_empty_pool (h : t.block.cfg.poolSize r = 0) : genSlot i k s = .raised .badArg t := by
  rw [genSlot, hr, Res.bind_ok_left, if_pos h]

theorem genSlot_of_exhausted_pool (h0 : t.block.cfg.poolSize r ≠ 0)
    (h : t.block.cfg.poolSize r ≤ taken r (t.earlier k)) : genSlot i k s = .raised .poolExhausted t := by
  rw [genSlot, hr, Res.bind_ok_left, if_neg h0, if_pos h]

theorem genSlot_of_pick_raised (h : taken r (t.earlier k) < t.block.cfg.poolSize r)
    (hp : ∀ fuel, pickIndex i r (t.earlier k) (fuel + 2) t = .raised e u) :
    genSlot i k s = .raised e u := by
  obtain ⟨fuel, hfuel⟩ := exists_duplicateFuel
  rw [genSlot, hr, Res.bind_ok_left, if_neg (Nat.ne_zero_of_lt h), if_neg (not_le.2 h), hfuel, hp,
    Res.bind_raised]

theorem genSlot_of_pick {idx : BitVec 31} {upg : Bool} {w : State}
    (h : taken r (t.earlier k) < t.block.cfg.poolSize r)
    (hp : ∀ fuel, pickIndex i r (t.earlier k) (fuel + 2) t = .ok idx u)
    (hu : upgradeInSlot i u = .ok upg w) :
    genSlot i k s = .ok () (w.setReward k ⟨idx, r, upg, true⟩) := by
  obtain ⟨fuel, hfuel⟩ := exists_duplicateFuel
  rw [genSlot, hr, Res.bind_ok_left, if_neg (Nat.ne_zero_of_lt h), if_neg (not_le.2 h), hfuel, hp,
    Res.bind_ok_left, hu, Res.bind_ok_left]

end

/-- One slot of a batch, from the redraws `a` of its roll and the row `picked` that its index draws end in. -/
theorem genSlot_batch {s : State} {i : StreamId} {row picked : Row} {off off' : BitVec 16}
    {v : Vector RewardSlot 16} {k a : Nat} {r : Rarity} {idx : BitVec 31}
    (hc : row.ctr.toNat < 2 ^ 32 - 1) (ha : row.redraws s.params 100 a)
    (hr : rarityOfRoll s.block.cfg off (row.bitsAt s.params a % 100) = r)
    (hoff : offsetAfter s.block.cfg off r = off')
    (ht : taken r (v.toList.take k) < s.block.cfg.poolSize r)
    (hp : ∀ fuel, pickIndex i r (v.toList.take k) (fuel + 2) (s.batch i (row.drawn a) off' v) =
      .ok idx (s.batch i picked off' v))
    (hu : s.block.cfg.upgMode = 1 → picked.ctr.toNat < 2 ^ 32 - 1) :
    genSlot i k (s.batch i row off v) = .ok () (s.batch i (rowAfterSlot s.block.cfg picked) off'
      (v.setIfInBounds k
        ⟨idx, r, decide (s.block.cfg.upgMode = 1) && upgradeDraw s.params s.block.cfg picked, true⟩)) := by
  subst hoff
  exact genSlot_of_pick (rollRarity_batch hc ha hr) ht hp (upgradeInSlot_batch hu)

/-! ### The slots and the upgrade draws after them -/

section
variable {s t : State} {i : StreamId} {n k : Nat}

theorem genSlots_succ_of_ok (h : genSlot i k s = .ok () t) :
    genSlots i (n + 1) k s = genSlots i n (k + 1) t := by
  rw [genSlots, h, Res.bind_ok_left]

theorem genSlots_succ_of_raised {e : Err} (h : genSlot i k s = .raised e t) :
    genSlots i (n + 1) k s = .raised e t := by
  rw [genSlots, h, Res.bind_raised]

theorem upgradeSlots_succ_batch {row : Row} {off : BitVec 16} {v : Vector RewardSlot 16}
    (hc : row.ctr.toNat < 2 ^ 32 - 1) :
    upgradeSlots i (n + 1) k (s.batch i row off v) =
      upgradeSlots i n (k + 1) (s.batch i (row.drawn 0) off (v.setIfInBounds k
        { v.getD k RewardSlot.empty with upg := upgradeDraw s.params s.block.cfg row })) := by
  rw [upgradeSlots, batch_cfg, batch_params, drawChance_batch hc, Res.bind_ok_left, batch_setUpgrade]

theorem upgradeBatch_of_mode_two (h : s.block.cfg.upgMode = 2) :
    upgradeBatch i n s = upgradeSlots i n 0 s := if_pos h

theorem upgradeBatch_of_other_mode (h : s.block.cfg.upgMode ≠ 2) : upgradeBatch i n s = .ok () s := if_neg h

end

/-! ### The command -/

theorem toNat_countOperand (s : State) : s.countOperand = s.block.opa.toNat % 2 ^ 8 := by
  rw [State.countOperand, BitVec.extractLsb'_toNat, Nat.shiftRight_zero]

section
variable {sid : BitVec 4} {i : StreamId} {s t u : State} (hs : streamId? sid = some i)
  (hi : s.block.status.init = true)
include hs hi

theorem exec_genRewards_of_bad_args (h : 16 < s.countOperand ∨ s.block.cfg.upgMode = 3) :
    exec (.genRewards sid) s = .next (s.raise .badArg) := by
  have hrule : genRewardsRule i s = .raised .badArg s := by
    rw [genRewardsRule]
    by_cases hcount : rewardDepth < s.countOperand
    · exact if_pos hcount
    · rw [if_neg hcount, if_pos (h.resolve_left hcount)]
  exact (runStream_ready hs hi).trans (congrArg finish hrule)

variable (hcount : s.countOperand ≤ rewardDepth) (hmode : s.block.cfg.upgMode ≠ 3)
include hcount hmode

theorem exec_genRewards_of_slots_raised {e : Err}
    (h : genSlots i s.countOperand 0 s.clearRewards = .raised e t) :
    exec (.genRewards sid) s = .next (t.raise e) := by
  have hrule : genRewardsRule i s = .raised e t := by
    rw [genRewardsRule, if_neg (not_lt.2 hcount), if_neg hmode, h, Res.bind_raised]
  exact (runStream_ready hs hi).trans (congrArg finish hrule)

theorem exec_genRewards_of_slots_ok (h : genSlots i s.countOperand 0 s.clearRewards = .ok () t)
    (hu : upgradeBatch i s.countOperand t = .ok () u) :
    exec (.genRewards sid) s = .next (u.setRes0 (BitVec.ofNat 64 s.countOperand)).complete := by
  have hrule : genRewardsRule i s = .ok () (u.setRes0 (BitVec.ofNat 64 s.countOperand)) := by
    rw [genRewardsRule, if_neg (not_lt.2 hcount), if_neg hmode, h, Res.bind_ok_left, hu, Res.bind_ok_left]
  exact (runStream_ready hs hi).trans (congrArg finish hrule)

end

end Sys2Proof.Machine
end

