-- ==== Sys2Proof/Proofs/SmallBatches.lean ====
section
/-! `GEN_REWARDS` on its smallest batches (44_reward R194, R196 to R198): the argument checks, a full counter,
the batch of one slot, and a second slot of the rarity of the first. -/

namespace Sys2Proof.Machine

theorem upgMode_cases {m : BitVec 2} (h : m ≠ 3) : m = 0 ∨ m = 1 ∨ m = 2 := by decide +revert

theorem drawn_ctr_toNat {row : Row} (k : Nat) (hc : row.ctr.toNat < 2 ^ 32 - 1) :
    (row.drawn k).ctr.toNat = row.ctr.toNat + 1 := ctr_succ hc

/-! ### The first slot -/

section
variable {s : State} {i : StreamId}

theorem genSlots_of_full_counter {n k : Nat} (hn : 1 ≤ n) (hc : (s.row i).ctr.toNat = 2 ^ 32 - 1) :
    genSlots i n k s = .raised .ctrOvf s := by
  obtain ⟨n, rfl⟩ := Nat.exists_eq_add_of_le' hn
  exact genSlots_succ_of_raised (genSlot_of_max hc)

variable {a : Nat} {r : Rarity} (ha : (s.row i).redraws s.params 100 a)
  (hr : rarityOfRoll s.block.cfg s.block.pityOffset ((s.row i).bitsAt s.params a % 100) = r)
include ha hr

/-- The first roll of a batch. -/
theorem rollRarity_first (hc : (s.row i).ctr.toNat < 2 ^ 32 - 1) :
    rollRarity i s.clearRewards = .ok (r, (((s.row i).bitsAt s.params a % 100 : Nat) : Int))
      (s.batch i ((s.row i).drawn a) (offsetAfter s.block.cfg s.block.pityOffset r) noRewards) := by
  rw [clearRewards_eq_batch s i]
  exact rollRarity_batch hc ha hr

/-- The first roll fills the counter: the index draw fails. -/
theorem genSlot_first_of_full_counter (hc : (s.row i).ctr.toNat = 2 ^ 32 - 2)
    (hpool : s.block.cfg.poolSize r ≠ 0) : genSlot i 0 s.clearRewards = .raised .ctrOvf
      (s.batch i ((s.row i).drawn a) (offsetAfter s.block.cfg s.block.pityOffset r) noRewards) := by
  have hlt : (s.row i).ctr.toNat < 2 ^ 32 - 1 := by omega
  have hfull : ((s.row i).drawn a).ctr.toNat = 2 ^ 32 - 1 := by
    rw [drawn_ctr_toNat a hlt]; omega
  exact genSlot_of_pick_raised (rollRarity_first ha hr hlt) (Nat.pos_of_ne_zero hpool)
    (fun _ => pickIndex_of_max hpool (by rwa [batch_row]))

theorem genSlot_first_of_empty_pool (hc : (s.row i).ctr.toNat < 2 ^ 32 - 1)
    (hpool : s.block.cfg.poolSize r = 0) : genSlot i 0 s.clearRewards = .raised .badArg
      (s.batch i ((s.row i).drawn a) (offsetAfter s.block.cfg s.block.pityOffset r) noRewards) :=
  genSlot_of_empty_pool (rollRarity_first ha hr hc) hpool

/-- The first slot filled: no earlier slot can hold its index. -/
theorem genSlot_first {b : Nat} (hc : (s.row i).ctr.toNat + 3 ≤ 2 ^ 32 - 1)
    (hpool : s.block.cfg.poolSize r ≠ 0)
    (hb : ((s.row i).drawn a).redraws s.params (s.block.cfg.poolSize r) b) :
    let rolled := (s.row i).drawn a
    let picked := rolled.drawn b
    genSlot i 0 s.clearRewards = .ok () (s.batch i (rowAfterSlot s.block.cfg picked)
      (offsetAfter s.block.cfg s.block.pityOffset r) (noRewards.set 0
        ⟨BitVec.ofNat 31 (rolled.bitsAt s.params b % s.block.cfg.poolSize r), r,
          decide (s.block.cfg.upgMode = 1) && upgradeDraw s.params s.block.cfg picked, true⟩)) := by
  intro rolled picked
  have hc0 : (s.row i).ctr.toNat < 2 ^ 32 - 1 := by omega
  have hc1 : rolled.ctr.toNat = (s.row i).ctr.toNat + 1 := drawn_ctr_toNat a hc0
  have hc1' : rolled.ctr.toNat < 2 ^ 32 - 1 := by omega
  have hc2 : picked.ctr.toNat = rolled.ctr.toNat + 1 := drawn_ctr_toNat b hc1'
  have hc2' : picked.ctr.toNat < 2 ^ 32 - 1 := by omega
  rw [clearRewards_eq_batch s i]
  exact genSlot_batch hc0 ha hr rfl (Nat.pos_of_ne_zero hpool)
    (fun _ => pickIndex_batch_of_fresh hpool hc1' hb rfl) (fun _ => hc2')

end

/-! ### The batch of one slot -/

/-- After the only slot of a batch the upgrade draw is made in the mode that has not made it. -/
theorem upgradeBatch_one {s : State} {i : StreamId} {row : Row} {off : BitVec 16} {idx : BitVec 31}
    {r : Rarity} (hmode : s.block.cfg.upgMode ≠ 3) (hc : row.ctr.toNat < 2 ^ 32 - 1) :
    upgradeBatch i 1 (s.batch i (rowAfterSlot s.block.cfg row) off (noRewards.set 0
        ⟨idx, r, decide (s.block.cfg.upgMode = 1) && upgradeDraw s.params s.block.cfg row, true⟩)) =
      .ok () (s.batch i (if s.block.cfg.upgMode = 0 then row else row.drawn 0) off (noRewards.set 0
        ⟨idx, r, decide (s.block.cfg.upgMode ≠ 0) && upgradeDraw s.params s.block.cfg row, true⟩)) := by
  rcases upgMode_cases hmode with hm | hm | hm
  · rw [upgradeBatch_of_other_mode (by rw [batch_cfg, hm]; decide), rowAfterSlot, hm]
    rfl
  · rw [upgradeBatch_of_other_mode (by rw [batch_cfg, hm]; decide), rowAfterSlot, hm]
    rfl
  · rw [upgradeBatch_of_mode_two (by rw [batch_cfg, hm]), rowAfterSlot, hm]
    exact upgradeSlots_succ_batch hc

/-- Settles O51: the checks are the rule's; past them the first slot fails on its counter or its pool, or is
filled. -/
theorem genRewardsSmallBatches : Obligations.GenRewardsSmallBatches := by
  intro s sid i hs hi
  rw [← toNat_countOperand]
  intro count mode cleared
  have hraised {n : Nat} {e : Err} {t : State} (hn : 1 ≤ n) (h : genSlot i 0 cleared = .raised e t) :
      genSlots i n 0 cleared = .raised e t := by
    obtain ⟨n, rfl⟩ := Nat.exists_eq_add_of_le' hn
    exact genSlots_succ_of_raised h
  refine ⟨encode_eq_ofNat _, exec_genRewards_of_bad_args hs hi, fun h0 hmode => ?_,
    fun h1 hcount hmode hc => ?_, fun a h1 hcount hmode hc ha => ?_, fun a b h1 hmode hc ha => ?_⟩
  · have hslots : genSlots i count 0 cleared = .ok () cleared := by rw [h0]; rfl
    have hupgrades : upgradeBatch i count cleared = .ok () cleared := by rw [h0]; exact ite_self _
    rw [exec_genRewards_of_slots_ok hs hi (h0.le.trans (Nat.zero_le _)) hmode hslots hupgrades,
      show s.countOperand = 0 from h0]
    rfl
  · exact exec_genRewards_of_slots_raised hs hi hcount hmode (genSlots_of_full_counter h1 hc)
  · intro r hpool
    exact exec_genRewards_of_slots_raised hs hi hcount hmode
      (hraised h1 (genSlot_first_of_full_counter ha rfl hc hpool))
  · intro roll r pool row1
    have hcount : count ≤ rewardDepth := h1 ▸ by decide
    have hc0 : (s.row i).ctr.toNat < 2 ^ 32 - 1 := by omega
    refine ⟨fun hpool => ?_, fun hpool hb => ?_⟩
    · have hslot := genSlot_first_of_empty_pool ha rfl hc0 hpool
      exact ⟨_, exec_genRewards_of_slots_raised hs hi hcount hmode (hraised h1.ge hslot),
        by rw [raise_row, batch_row], raise_err _ _, raise_res0 _ _, raise_reward _ _, raise_pityOffset _ _⟩
    · intro row2 m
      have hc1 : row1.ctr.toNat = (s.row i).ctr.toNat + 1 := drawn_ctr_toNat a hc0
      have hc2 : row2.ctr.toNat = row1.ctr.toNat + 1 := drawn_ctr_toNat b (by omega)
      have hslots := (genSlots_succ_of_ok (n := 0) (genSlot_first ha rfl hc hpool hb))
      have hupgrades := upgradeBatch_one (i := i) (row := row2)
        (off := offsetAfter s.block.cfg s.block.pityOffset r)
        (idx := BitVec.ofNat 31 (row1.bitsAt s.params b % pool)) (r := r) hmode (by omega)
      refine ⟨_, exec_genRewards_of_slots_ok hs hi hcount hmode 
        ((congrArg (genSlots i · 0 cleared) h1).trans hslots)
        ((congrArg (upgradeBatch i · _) h1).trans hupgrades), congrArg (BitVec.ofNat 64) h1,
        by rw [complete_row, setRes0_row, batch_row], rfl, rfl, rfl⟩

/-! ### A second slot of the rarity of the first -/

theorem rowAfterSlot_ctr_le (c : RewardConfig) {row : Row} (hc : row.ctr.toNat < 2 ^ 32 - 1) :
    (rowAfterSlot c row).ctr.toNat ≤ row.ctr.toNat + 1 := by
  unfold rowAfterSlot
  split
  · exact (drawn_ctr_toNat 0 hc).le
  · exact Nat.le_succ _

section
variable {s : State} {i : StreamId} {row : Row} {off : BitVec 16} {c : Nat} {r : Rarity} {idx : BitVec 31}
  {upg : Bool} (hc : row.ctr.toNat < 2 ^ 32 - 1) (ha : row.redraws s.params 100 c)
  (hr : rarityOfRoll s.block.cfg off (row.bitsAt s.params c % 100) = r)
include hc ha hr

/-- On a pool of one entry the first slot has used the pool up (44_reward R197). -/
theorem genSlot_second_of_pool_one (hpool : s.block.cfg.poolSize r = 1) :
    genSlot i 1 (s.batch i row off (noRewards.set 0 ⟨idx, r, upg, true⟩)) = .raised .poolExhausted
      (s.batch i (row.drawn c) (offsetAfter s.block.cfg off r) (noRewards.set 0 ⟨idx, r, upg, true⟩)) := by
  have htaken : taken r [RewardSlot.mk idx r upg true] = 1 := by simp [taken]
  exact genSlot_of_exhausted_pool (rollRarity_batch hc ha hr) (hpool.trans_ne one_ne_zero)
    (hpool.trans htaken.symm).le

/-- The index of the first slot is drawn again, then another one: the slot takes the latter, after one roll
and one pity update (44_reward R196). -/
theorem genSlot_second_of_duplicate {d e : Nat} (hpool : 2 ≤ s.block.cfg.poolSize r)
    (hroom : row.ctr.toNat + 4 ≤ 2 ^ 32 - 1)
    (hd : (row.drawn c).redraws s.params (s.block.cfg.poolSize r) d)
    (hdup : BitVec.ofNat 31 ((row.drawn c).bitsAt s.params d % s.block.cfg.poolSize r) = idx)
    (he : ((row.drawn c).drawn d).redraws s.params (s.block.cfg.poolSize r) e)
    (hfresh : BitVec.ofNat 31 (((row.drawn c).drawn d).bitsAt s.params e % s.block.cfg.poolSize r) ≠ idx) :
    let again := (row.drawn c).drawn d
    let picked := again.drawn e
    genSlot i 1 (s.batch i row off (noRewards.set 0 ⟨idx, r, upg, true⟩)) = .ok ()
      (s.batch i (rowAfterSlot s.block.cfg picked) (offsetAfter s.block.cfg off r)
        ((noRewards.set 0 ⟨idx, r, upg, true⟩).set 1
          ⟨BitVec.ofNat 31 (again.bitsAt s.params e % s.block.cfg.poolSize r), r,
            decide (s.block.cfg.upgMode = 1) && upgradeDraw s.params s.block.cfg picked, true⟩)) := by
  intro again picked
  have hc1 : (row.drawn c).ctr.toNat = row.ctr.toNat + 1 := drawn_ctr_toNat c hc
  have hc1' : (row.drawn c).ctr.toNat < 2 ^ 32 - 1 := by omega
  have hc2 : again.ctr.toNat = (row.drawn c).ctr.toNat + 1 := drawn_ctr_toNat d hc1'
  have hc2' : again.ctr.toNat < 2 ^ 32 - 1 := by omega
  have hc3 : picked.ctr.toNat = again.ctr.toNat + 1 := drawn_ctr_toNat e hc2'
  have hc3' : picked.ctr.toNat < 2 ^ 32 - 1 := by omega
  have hpool0 : s.block.cfg.poolSize r ≠ 0 := by omega
  have htaken : taken r [RewardSlot.mk idx r upg true] ≤ 1 := List.countP_le_length
  have hrepeat (x : BitVec 31) : isDuplicate r x [RewardSlot.mk idx r upg true] = decide (idx = x) := by
    simp [isDuplicate]
  refine genSlot_batch hc ha hr rfl (htaken.trans_lt hpool) (fun _ => ?_) (fun _ => hc3')
  refine (pickIndex_batch_of_duplicate hpool0 hc1' hd ?_).trans
    (pickIndex_batch_of_fresh hpool0 hc2' he ?_)
  · exact (hrepeat _).trans (decide_eq_true hdup.symm)
  · exact (hrepeat _).trans (decide_eq_false hfresh.symm)

end

/-- After the two slots of a batch the upgrade draws are made in the mode that has not made them. -/
theorem upgradeBatch_two {s : State} {i : StreamId} {row0 row : Row} {off : BitVec 16} {idx0 idx1 : BitVec 31}
    {r : Rarity} (hmode : s.block.cfg.upgMode ≠ 3)
    (hc : s.block.cfg.upgMode = 2 → row.ctr.toNat + 2 ≤ 2 ^ 32 - 1) :
    let m := s.block.cfg.upgMode
    let draw := upgradeDraw s.params s.block.cfg
    upgradeBatch i 2 (s.batch i (rowAfterSlot s.block.cfg row) off
        ((noRewards.set 0 ⟨idx0, r, decide (m = 1) && draw row0, true⟩).set 1
          ⟨idx1, r, decide (m = 1) && draw row, true⟩)) =
      .ok () (s.batch i (if m = 0 then row else if m = 1 then row.drawn 0 else (row.drawn 0).drawn 0) off
        ((noRewards.set 0 ⟨idx0, r, decide (m ≠ 0) && draw (if m = 1 then row0 else row), true⟩).set 1
          ⟨idx1, r, decide (m ≠ 0) && draw (if m = 1 then row else row.drawn 0), true⟩)) := by
  intro m draw
  rcases upgMode_cases hmode with hm | hm | hm
  · simp [upgradeBatch_of_other_mode, rowAfterSlot, m, hm]
  · simp [upgradeBatch_of_other_mode, rowAfterSlot, m, hm]
  · have hc0 : row.ctr.toNat < 2 ^ 32 - 1 := by have := hc hm; omega
    have hc1 : (row.drawn 0).ctr.toNat < 2 ^ 32 - 1 := by
      have := hc hm
      rw [drawn_ctr_toNat 0 hc0]; omega
    rw [upgradeBatch_of_mode_two (by rw [batch_cfg, hm]), rowAfterSlot, show m = 2 from hm, hm]
    exact (upgradeSlots_succ_batch hc0).trans (upgradeSlots_succ_batch hc1)

/-- An upgrade draw made in `UPG_MODE` 1 is made in a mode other than 0. -/
theorem decide_mode_one_and (m : BitVec 2) (b : Bool) :
    (decide (m = 1) && (decide (m ≠ 0) && b)) = (decide (m = 1) && b) := by decide +revert

/-- Settles O60: the second slot begins in the state that the first leaves, and fails on the pool that the
first has used up, or is filled after one more index draw. -/
theorem genRewardsSecondSlot : Obligations.GenRewardsSecondSlot := by
  intro s sid i a b c hs hi
  rw [← toNat_countOperand]
  intro count cfg mode start r pool offset rolled index picked second rolled' upgrade slots h2 hcount hmode
    hroom hpool ha hb hc hr
  have hc0 : start.ctr.toNat < 2 ^ 32 - 1 := by omega
  have hc1 : rolled.ctr.toNat = start.ctr.toNat + 1 := drawn_ctr_toNat a hc0
  have hc2 : picked.ctr.toNat = rolled.ctr.toNat + 1 := drawn_ctr_toNat b (by omega)
  have hc3 : second.ctr.toNat ≤ picked.ctr.toNat + 1 := rowAfterSlot_ctr_le cfg (by omega)
  have hc3' : second.ctr.toNat < 2 ^ 32 - 1 := by omega
  have hroom3 : start.ctr.toNat + 3 ≤ 2 ^ 32 - 1 := by omega
  have hfirst : genSlot i 0 s.clearRewards = .ok ()
      (s.batch i second offset (slots (decide (mode = 1) && upgradeDraw s.params cfg picked))) :=
    genSlot_first ha rfl hroom3 hpool hb
  refine ⟨fun hone => ?_, fun d e htwo hd hdup => ?_⟩
  · obtain ⟨n, hn⟩ := Nat.exists_eq_add_of_le' h2
    have hslots := (genSlots_succ_of_ok (n := n + 1) hfirst).trans
      (genSlots_succ_of_raised (genSlot_second_of_pool_one hc3' hc hr hone))
    refine ⟨_, exec_genRewards_of_slots_raised hs hi hcount hmode
      ((congrArg (genSlots i · 0 s.clearRewards) hn).trans hslots), by rw [raise_row, batch_row],
      raise_err _ _, raise_pityOffset _ _, raise_res0 _ _, (raise_reward _ _).trans ?_⟩
    exact congrArg slots (decide_mode_one_and _ _).symm
  · intro again he hne picked' last
    have hlt (row : Row) (k : Nat) : row.bitsAt s.params k % pool < pool :=
      Nat.mod_lt _ (Nat.pos_of_ne_zero hpool)
    have hlt1 : index < pool := hlt rolled b
    have hlt2 := hlt again e
    have hpool2 : 2 ≤ pool := by omega
    have hc4 : rolled'.ctr.toNat = second.ctr.toNat + 1 := drawn_ctr_toNat c hc3'
    have hc5 : again.ctr.toNat = rolled'.ctr.toNat + 1 := drawn_ctr_toNat d (by omega)
    have hc6 : picked'.ctr.toNat = again.ctr.toNat + 1 := drawn_ctr_toNat e (by omega)
    have hroom' : mode = 2 → picked'.ctr.toNat + 2 ≤ 2 ^ 32 - 1 := fun hm => by
      have hsecond : second = picked := if_neg (by rw [hm]; decide)
      rw [hsecond] at hc4
      omega
    have hslot := genSlot_second_of_duplicate (i := i) hc3' hc hr (idx := BitVec.ofNat 31 index)
      (upg := decide (mode = 1) && upgradeDraw s.params cfg picked) hpool2 (by omega) hd
      ((ofNat_index_inj (hlt _ _) hlt1).2 hdup) he (mt (ofNat_index_inj hlt2 hlt1).1 hne)
    have hslots := (genSlots_succ_of_ok (n := 1) hfirst).trans (genSlots_succ_of_ok (n := 0) hslot)
    have hupgrades := upgradeBatch_two (i := i) (row0 := picked) (row := picked')
      (off := offsetAfter cfg offset r) (idx0 := BitVec.ofNat 31 index)
      (idx1 := BitVec.ofNat 31 (again.bitsAt s.params e % pool)) (r := r) hmode hroom'
    exact ⟨_, exec_genRewards_of_slots_ok hs hi hcount hmode
        ((congrArg (genSlots i · 0 s.clearRewards) htwo).trans hslots)
        ((congrArg (upgradeBatch i · _) htwo).trans hupgrades), congrArg (BitVec.ofNat 64) htwo,
      by rw [complete_row, setRes0_row, batch_row], rfl, rfl, rfl⟩

end Sys2Proof.Machine
end

