-- ==== Sys2Proof/Proofs/PlainBatch.lean ====
section
/-! `GEN_REWARDS` when every bounded draw is accepted at once, no index is drawn twice and no pool is exhausted
(44_reward R194, R198): slot `k` begins a fixed number of raw draws after slot `k - 1`. -/

namespace Sys2Proof.Machine

/-! ### Rows after draws that are each accepted at once -/

section
variable (r : Row) (n : Nat)

theorem plainly_drawn : (r.plainly n).drawn 0 = r.plainly (n + 1) := by
  simp only [Row.plainly, Row.drawn, advance_withCtr, advance_add, BitVec.ofNat_add, BitVec.add_assoc]
  rfl

theorem rawAt_plainly (k : Nat) : (r.plainly n).rawAt k = r.rawAt (n + k) := by
  rw [Row.plainly, rawAt_withCtr, rawAt_advance]

end

theorem plainly_ctr_toNat {r : Row} {n : Nat} (h : r.ctr.toNat + n ≤ 2 ^ 32 - 1) :
    (r.plainly n).ctr.toNat = r.ctr.toNat + n := by
  rw [plainly_ctr, BitVec.toNat_add, BitVec.toNat_ofNat]
  omega

/-! ### The filled part of `REWARD` -/

/-- `REWARD` with its first `k` entries filled as `f` says. -/
def rewardsUpTo (f : Nat → RewardSlot) (k : Nat) : Vector RewardSlot 16 :=
  Vector.ofFn fun j => if j.val < k then f j.val else RewardSlot.empty

section
variable {f g : Nat → RewardSlot} {k n : Nat}

theorem rewardsUpTo_get {j : Nat} (hj : j < 16) :
    (rewardsUpTo f k)[j] = if j < k then f j else RewardSlot.empty := Vector.getElem_ofFn hj

theorem rewardsUpTo_zero : rewardsUpTo f 0 = noRewards := rfl

theorem rewardsUpTo_congr (h : ∀ j, j < k → f j = g j) : rewardsUpTo f k = rewardsUpTo g k := by
  refine Vector.ext fun j hj => ?_
  rw [rewardsUpTo_get, rewardsUpTo_get]
  split
  · exact h j ‹_›
  · rfl

theorem rewardsUpTo_set_next : (rewardsUpTo f k).setIfInBounds k (f k) = rewardsUpTo f (k + 1) := by
  refine Vector.ext fun j hj => ?_
  rw [Vector.getElem_setIfInBounds, rewardsUpTo_get, rewardsUpTo_get]
  grind

theorem rewardsUpTo_set_of_lt {x : RewardSlot} (hk : k < n) :
    (rewardsUpTo f n).setIfInBounds k x = rewardsUpTo (Function.update f k x) n := by
  refine Vector.ext fun j hj => ?_
  rw [Vector.getElem_setIfInBounds, rewardsUpTo_get, rewardsUpTo_get, Function.update_apply]
  grind

theorem rewardsUpTo_getD (hk : k < n) (hn : n ≤ 16) : (rewardsUpTo f n).getD k RewardSlot.empty = f k := by
  have h16 : k < 16 := by omega
  rw [show (rewardsUpTo f n).getD k RewardSlot.empty = (rewardsUpTo f n)[k] by simp [Vector.getD, h16],
    rewardsUpTo_get, if_pos hk]

theorem rewardsUpTo_take (hk : k ≤ 16) : (rewardsUpTo f k).toList.take k = (List.range k).map f := by
  refine List.ext_getElem (by simp [hk]) fun j h1 h2 => ?_
  have hj : j < k := by simpa using h2
  simp [rewardsUpTo_get, hj]

end

/-! ### The draws of a plain batch -/

theorem batchRarity_eq (c : RewardConfig) (off : BitVec 16) (roll : Nat → Nat) (k : Nat) :
    batchRarity c off roll k = rarityOfRoll c (batchOffset c off roll k) (roll k) := rfl

theorem batchOffset_succ (c : RewardConfig) (off : BitVec 16) (roll : Nat → Nat) (k : Nat) :
    batchOffset c off roll (k + 1) =
      offsetAfter c (batchOffset c off roll k) (batchRarity c off roll k) := by
  rw [batchOffset, offsetAfter]
  cases hdis : c.pityDis with
  | false => rw [batchRarity, hdis]; rfl
  | true => rfl

/-- How many raw draws a slot makes: its roll, its index and, in `UPG_MODE` 1, its upgrade. -/
def drawsPerSlot (c : RewardConfig) : Nat := if c.upgMode = 1 then 3 else 2

theorem rowAfterSlot_plainly (c : RewardConfig) (r : Row) (n : Nat) :
    rowAfterSlot c (r.plainly (n + 2)) = r.plainly (n + drawsPerSlot c) := by
  rw [rowAfterSlot, drawsPerSlot, plainly_drawn]
  split <;> rfl

/-- One slot whose draws are each accepted at once, from raw draw `n` of a row on. -/
theorem genSlot_batch_of_plain {s : State} {i : StreamId} {start : Row} {n k : Nat} {off : BitVec 16}
    {v : Vector RewardSlot 16} {r : Rarity}
    (hroom : start.ctr.toNat + (n + drawsPerSlot s.block.cfg) ≤ 2 ^ 32 - 1)
    (hroll : NoOverflow (start.bitsAt s.params n) 100)
    (hr : rarityOfRoll s.block.cfg off (start.bitsAt s.params n % 100) = r)
    (ht : taken r (v.toList.take k) < s.block.cfg.poolSize r)
    (hindex : NoOverflow (start.bitsAt s.params (n + 1)) (s.block.cfg.poolSize r))
    (hfresh : isDuplicate r (BitVec.ofNat 31 (start.bitsAt s.params (n + 1) % s.block.cfg.poolSize r))
      (v.toList.take k) = false) :
    genSlot i k (s.batch i (start.plainly n) off v) = .ok ()
      (s.batch i (start.plainly (n + drawsPerSlot s.block.cfg)) (offsetAfter s.block.cfg off r)
        (v.setIfInBounds k ⟨BitVec.ofNat 31 (start.bitsAt s.params (n + 1) % s.block.cfg.poolSize r), r,
          decide (s.block.cfg.upgMode = 1) && upgradeDraw s.params s.block.cfg (start.plainly (n + 2)),
          true⟩)) := by
  have hbits (m : Nat) : (start.plainly m).bitsAt s.params 0 = start.bitsAt s.params m := bitsAt_plainly ..
  have hctr {m : Nat} (hm : m < n + drawsPerSlot s.block.cfg) :
      (start.plainly m).ctr.toNat < 2 ^ 32 - 1 := by
    rw [plainly_ctr_toNat] <;> omega
  have htwo : 2 ≤ drawsPerSlot s.block.cfg := by unfold drawsPerSlot; split <;> decide
  have hthree (hm : s.block.cfg.upgMode = 1) : 2 < drawsPerSlot s.block.cfg := by
    rw [drawsPerSlot, if_pos hm]; decide
  rw [← hbits] at hroll hr hindex hfresh
  rw [← rowAfterSlot_plainly, ← hbits]
  refine genSlot_batch (hctr (by omega)) (redraws_zero hroll) hr rfl ht (fun _ => ?_)
    fun hm => hctr (Nat.add_lt_add_left (hthree hm) n)
  rw [plainly_drawn, ← plainly_drawn start (n + 1)]
  exact pickIndex_batch_of_fresh (Nat.ne_zero_of_lt ht) (hctr (by omega)) (redraws_zero hindex) hfresh

section
variable (s : State) (i : StreamId)

/-- The roll of slot `k`. -/
def State.plainRoll (k : Nat) : Nat := (s.row i).bitsAt s.params (drawsPerSlot s.block.cfg * k) % 100

/-- The pity offset before the roll of slot `k`. -/
def State.plainOffset (k : Nat) : BitVec 16 := batchOffset s.block.cfg s.block.pityOffset (s.plainRoll i) k

/-- The rarity of slot `k`. -/
def State.plainRarity (k : Nat) : Rarity := batchRarity s.block.cfg s.block.pityOffset (s.plainRoll i) k

/-- The index of slot `k`. -/
def State.plainIndex (k : Nat) : Nat :=
  (s.row i).bitsAt s.params (drawsPerSlot s.block.cfg * k + 1) % s.block.cfg.poolSize (s.plainRarity i k)

/-- The outcome of an upgrade draw on raw draw `n`. -/
def State.plainUpgrade (n : Nat) : Bool := upgradeDraw s.params s.block.cfg ((s.row i).plainly n)

theorem plainUpgrade_eq (n : Nat) : s.plainUpgrade i n =
    less24 (((s.row i).rawAt n).toNat / 2 ^ s.params.floatLow.val % 2 ^ 24) s.block.cfg.upgP := by
  rw [State.plainUpgrade, upgradeDraw, rawAt_plainly]
  rfl

/-- Slot `k`, its upgrade bit as `upg` says. -/
def State.plainSlot (upg : Nat → Bool) (k : Nat) : RewardSlot :=
  ⟨BitVec.ofNat 31 (s.plainIndex i k), s.plainRarity i k, upg k, true⟩

/-- The bounded draws of the first `count` slots are accepted at once, their pools are not exhausted and no
index is drawn twice. -/
structure State.DrawsPlainly (count : Nat) : Prop where
  rolls : ∀ k, k < count → NoOverflow ((s.row i).bitsAt s.params (drawsPerSlot s.block.cfg * k)) 100
  pools : ∀ k, k < count → ((List.range k).countP fun j => s.plainRarity i j = s.plainRarity i k) <
    s.block.cfg.poolSize (s.plainRarity i k)
  indices : ∀ k, k < count → NoOverflow ((s.row i).bitsAt s.params (drawsPerSlot s.block.cfg * k + 1))
    (s.block.cfg.poolSize (s.plainRarity i k))
  distinct : ∀ j k, j < k → k < count →
    ¬(s.plainRarity i j = s.plainRarity i k ∧ s.plainIndex i j = s.plainIndex i k)

/-- The state after `k` slots of a plain batch. -/
def State.afterPlainSlots (upg : Nat → Bool) (k : Nat) : State :=
  s.batch i ((s.row i).plainly (drawsPerSlot s.block.cfg * k)) (s.plainOffset i k)
    (rewardsUpTo (s.plainSlot i upg) k)

theorem afterPlainSlots_zero (upg : Nat → Bool) : s.afterPlainSlots i upg 0 = s.clearRewards := by
  rw [State.afterPlainSlots, Nat.mul_zero, plainly_zero, rewardsUpTo_zero, clearRewards_eq_batch s i]
  rfl

end

section
variable {s : State} {i : StreamId} {count k : Nat} {upg : Nat → Bool}

theorem taken_plainSlots (hk : k ≤ 16) (r : Rarity) :
    taken r ((rewardsUpTo (s.plainSlot i upg) k).toList.take k) =
      (List.range k).countP fun j => s.plainRarity i j = r := by
  rw [rewardsUpTo_take hk, taken, List.countP_map]
  rfl

variable (h : s.DrawsPlainly i count)
include h

theorem poolSize_plainRarity_pos (hk : k < count) : 0 < s.block.cfg.poolSize (s.plainRarity i k) :=
  Nat.zero_lt_of_lt (h.pools k hk)

/-- No earlier slot of a plain batch is a duplicate of slot `k` (44_reward R196). -/
theorem isDuplicate_plainSlots (hk : k < count) (hcount : count ≤ 16) :
    isDuplicate (s.plainRarity i k) (BitVec.ofNat 31 (s.plainIndex i k))
      ((rewardsUpTo (s.plainSlot i upg) k).toList.take k) = false := by
  rw [rewardsUpTo_take (by omega), ← Bool.not_eq_true, isDuplicate_iff]
  rintro ⟨slot, hslot, hrarity, hindex⟩
  obtain ⟨j, hj, rfl⟩ := List.mem_map.1 hslot
  have hjk : j < k := List.mem_range.1 hj
  have hjr : s.plainRarity i j = s.plainRarity i k := hrarity
  have hlt {m : Nat} (hm : m < count) : s.plainIndex i m < s.block.cfg.poolSize (s.plainRarity i m) :=
    Nat.mod_lt _ (poolSize_plainRarity_pos h hm)
  refine h.distinct j k hjk hk ⟨hjr, (ofNat_index_inj ?_ (hlt hk)).1 hindex⟩
  exact hjr ▸ hlt (hjk.trans hk)

/-- One slot of a plain batch. -/
theorem genSlot_of_plain (hk : k < count) (hcount : count ≤ 16)
    (hroom : (s.row i).ctr.toNat + drawsPerSlot s.block.cfg * count ≤ 2 ^ 32 - 1)
    (hupg : upg k =
      (decide (s.block.cfg.upgMode = 1) && s.plainUpgrade i (drawsPerSlot s.block.cfg * k + 2))) :
    genSlot i k (s.afterPlainSlots i upg k) = .ok () (s.afterPlainSlots i upg (k + 1)) := by
  have hlast : drawsPerSlot s.block.cfg * k + drawsPerSlot s.block.cfg ≤
      drawsPerSlot s.block.cfg * count := Nat.mul_le_mul_left _ hk
  have hfilled : (rewardsUpTo (s.plainSlot i upg) k).setIfInBounds k (s.plainSlot i upg k) =
      rewardsUpTo (s.plainSlot i upg) (k + 1) := rewardsUpTo_set_next
  rw [State.plainSlot, hupg] at hfilled
  rw [State.afterPlainSlots, State.afterPlainSlots, State.plainOffset, State.plainOffset, batchOffset_succ,
    ← hfilled]
  exact genSlot_batch_of_plain (by omega) (h.rolls k hk) rfl
    ((taken_plainSlots (by omega) _).trans_lt (h.pools k hk)) (h.indices k hk)
    (isDuplicate_plainSlots h hk hcount)

/-- The slots of a plain batch. -/
theorem genSlots_of_plain {n : Nat} (hn : k + n = count) (hcount : count ≤ 16)
    (hroom : (s.row i).ctr.toNat + drawsPerSlot s.block.cfg * count ≤ 2 ^ 32 - 1)
    (hupg : ∀ k, upg k =
      (decide (s.block.cfg.upgMode = 1) && s.plainUpgrade i (drawsPerSlot s.block.cfg * k + 2))) :
    genSlots i n k (s.afterPlainSlots i upg k) = .ok () (s.afterPlainSlots i upg count) := by
  induction n generalizing k with
  | zero => rw [← hn]; rfl
  | succ n ih =>
    rw [genSlots_succ_of_ok (genSlot_of_plain h (by omega) hcount hroom (hupg k))]
    exact ih (by omega)

end

/-! ### The upgrade draws after a plain batch -/

/-- The upgrade draws from raw draw `m` of a row on: they set the upgrade bits in slot order. -/
theorem upgradeSlots_of_plain {s : State} {i : StreamId} {start : Row} {off : BitVec 16}
    {count n k m : Nat} (hn : k + n = count) (hcount : count ≤ 16)
    (hroom : start.ctr.toNat + (m + count) ≤ 2 ^ 32 - 1) :
    let slots (k : Nat) := rewardsUpTo
      (s.plainSlot i fun l => decide (l < k) && upgradeDraw s.params s.block.cfg (start.plainly (m + l))) count
    upgradeSlots i n k (s.batch i (start.plainly (m + k)) off (slots k)) =
      .ok () (s.batch i (start.plainly (m + count)) off (slots count)) := by
  intro slots
  induction n generalizing k with
  | zero => rw [← hn]; rfl
  | succ n ih =>
    have hctr : (start.plainly (m + k)).ctr.toNat < 2 ^ 32 - 1 := by rw [plainly_ctr_toNat] <;> omega
    have hset : (slots k).setIfInBounds k { (slots k).getD k RewardSlot.empty with
        upg := upgradeDraw s.params s.block.cfg (start.plainly (m + k)) } = slots (k + 1) := by
      rw [rewardsUpTo_getD (by omega) hcount, rewardsUpTo_set_of_lt (by omega)]
      refine rewardsUpTo_congr fun l hl => ?_
      rw [Function.update_apply]
      rcases Nat.lt_trichotomy l k with hlk | rfl | hlk
      · simp [State.plainSlot, hlk.ne, hlk, Nat.lt_succ_of_lt hlk]
      · simp [State.plainSlot]
      · simp [State.plainSlot, hlk.ne', hlk.not_gt, hlk.not_ge]
    rw [upgradeSlots_succ_batch hctr, hset, plainly_drawn]
    exact ih (by omega)

/-- The raw draw that serves the upgrade of slot `k` in a batch of `count` (44_reward R198). -/
def plainUpgradeAt (c : RewardConfig) (count k : Nat) : Nat :=
  if c.upgMode = 1 then drawsPerSlot c * k + 2 else 2 * count + k

/-- How many raw draws a batch of `count` makes. -/
def plainTotal (c : RewardConfig) (count : Nat) : Nat := count * if c.upgMode = 0 then 2 else 3

/-- After the slots of a plain batch the upgrade draws are made in the mode that has not made them. -/
theorem upgradeBatch_of_plain {s : State} {i : StreamId} {count : Nat} (hmode : s.block.cfg.upgMode ≠ 3)
    (hcount : count ≤ 16) (hroom : (s.row i).ctr.toNat + plainTotal s.block.cfg count ≤ 2 ^ 32 - 1) :
    upgradeBatch i count (s.afterPlainSlots i (fun k => decide (s.block.cfg.upgMode = 1) &&
        s.plainUpgrade i (drawsPerSlot s.block.cfg * k + 2)) count) =
      .ok () (s.batch i ((s.row i).plainly (plainTotal s.block.cfg count)) (s.plainOffset i count)
        (rewardsUpTo (s.plainSlot i fun k => decide (s.block.cfg.upgMode ≠ 0) &&
          s.plainUpgrade i (plainUpgradeAt s.block.cfg count k)) count)) := by
  unfold State.afterPlainSlots
  rcases upgMode_cases hmode with hm | hm | hm
  · rw [upgradeBatch_of_other_mode (by rw [batch_cfg, hm]; decide)]
    simp [plainTotal, drawsPerSlot, hm, Nat.mul_comm count]
  · rw [upgradeBatch_of_other_mode (by rw [batch_cfg, hm]; decide)]
    simp [plainTotal, plainUpgradeAt, drawsPerSlot, hm, Nat.mul_comm count]
  · have htotal : plainTotal s.block.cfg count = 2 * count + count := by
      rw [plainTotal, hm, if_neg (by decide)]
      omega
    have hslots : rewardsUpTo (s.plainSlot i fun k => decide (k < count) &&
          s.plainUpgrade i (2 * count + k)) count =
        rewardsUpTo (s.plainSlot i fun k => true && s.plainUpgrade i (2 * count + k)) count :=
      rewardsUpTo_congr fun k hk => by rw [State.plainSlot, decide_eq_true hk]; rfl
    rw [htotal] at hroom
    have hup := upgradeSlots_of_plain (s := s) (i := i) (off := s.plainOffset i count) (Nat.zero_add count)
      hcount hroom
    rw [upgradeBatch_of_mode_two (by rw [batch_cfg, hm]), htotal]
    simpa [drawsPerSlot, plainUpgradeAt, hm] using hup.trans (congrArg _ (congrArg _ hslots))

/-! ### The command -/

/-- Settles O52: the slots fill in order, each from the raw draws after those of the slots before, and the
upgrade draws of `UPG_MODE` 2 come after the last slot. -/
theorem genRewardsPlainBatch : Obligations.GenRewardsPlainBatch := by
  intro s sid i hs hi
  rw [← toNat_countOperand]
  intro count cfg perSlot total roll rarity index upgradeAt m hcount hmode hroom hrolls hpools hindices hdistinct
  have hplain : s.DrawsPlainly i count := ⟨hrolls, hpools, hindices, hdistinct⟩
  have hdraws : drawsPerSlot cfg * count ≤ total := by
    rw [Nat.mul_comm]
    refine Nat.mul_le_mul_left count ?_
    rcases upgMode_cases hmode with hm | hm | hm <;> rw [drawsPerSlot, hm] <;> decide
  have hslots := genSlots_of_plain hplain (Nat.zero_add count) hcount
    ((Nat.add_le_add_left hdraws _).trans hroom) fun _ => rfl
  rw [afterPlainSlots_zero] at hslots
  have hupgrades := upgradeBatch_of_plain hmode hcount hroom
  refine ⟨_, exec_genRewards_of_slots_ok hs hi hcount hmode hslots hupgrades,
    by rw [complete_row, setRes0_row, batch_row]; rfl, ?_, rfl, fun k => ?_, rfl⟩
  · exact (BitVec.toNat_ofNat ..).trans (Nat.mod_eq_of_lt (by omega))
  · refine (rewardsUpTo_get k.isLt).trans ?_
    rw [State.plainSlot, plainUpgrade_eq]
    rfl

end Sys2Proof.Machine
end

