-- ==== Sys2Proof/Proofs/DistinctSlots.lean ====
section
/-! What every batch of `GEN_REWARDS` leaves in `REWARD`, whether it completes or fails (44_reward R194, R196,
R197): a beginning of valid slots in their pools, pairwise no duplicates, and nothing after it. -/

namespace Sys2Proof.Machine

/-- The first `m` entries are filled from their pools and pairwise no duplicates; the others are empty. -/
structure FilledSlots (c : RewardConfig) (m : Nat) (v : Vector RewardSlot 16) : Prop where
  valid : ∀ k : Fin 16, k.val < m → v[k.val].valid = true
  inPool : ∀ k : Fin 16, k.val < m → v[k.val].index.toNat < c.poolSize v[k.val].rarity
  empty : ∀ k : Fin 16, m ≤ k.val → v[k.val] = RewardSlot.empty
  distinct : ∀ j k : Fin 16, j < k → k.val < m →
    ¬(v[j.val].rarity = v[k.val].rarity ∧ v[j.val].index = v[k.val].index)

section
variable {c : RewardConfig} {m : Nat} {v : Vector RewardSlot 16}

theorem filledSlots_zero (c : RewardConfig) : FilledSlots c 0 noRewards where
  valid _ hk := absurd hk (Nat.not_lt_zero _)
  inPool _ hk := absurd hk (Nat.not_lt_zero _)
  empty k _ := Vector.getElem_replicate k.isLt
  distinct _ _ _ hk := absurd hk (Nat.not_lt_zero _)

/-- The next slot takes an index of its pool that is no duplicate. -/
theorem FilledSlots.fill_next (h : FilledSlots c m v) {r : Rarity} {idx : BitVec 31} {upg : Bool}
    (hpool : idx.toNat < c.poolSize r) (hfresh : isDuplicate r idx (v.toList.take m) = false) :
    FilledSlots c (m + 1) (v.setIfInBounds m ⟨idx, r, upg, true⟩) := by
  have hnew (k : Fin 16) (hk : k.val = m) :
      (v.setIfInBounds m ⟨idx, r, upg, true⟩)[k.val] = ⟨idx, r, upg, true⟩ := by
    rw [Vector.getElem_setIfInBounds, if_pos hk.symm]
  have hold (k : Fin 16) (hk : k.val ≠ m) :
      (v.setIfInBounds m ⟨idx, r, upg, true⟩)[k.val] = v[k.val] := by
    rw [Vector.getElem_setIfInBounds, if_neg hk.symm]
  have hearlier (j : Fin 16) (hj : j.val < m) : ¬(v[j.val].rarity = r ∧ v[j.val].index = idx) := by
    intro hdup
    have hmem : v[j.val] ∈ v.toList.take m := List.mem_take_iff_getElem.2 ⟨j.val, by simp [hj], by simp⟩
    rw [isDuplicate_iff.2 ⟨_, hmem, hdup⟩] at hfresh
    cases hfresh
  have hcases {k : Fin 16} (hk : k.val < m + 1) : k.val = m ∨ k.val ≠ m ∧ k.val < m := by omega
  constructor
  case valid =>
    intro k hk
    rcases hcases hk with hk | ⟨hne, hk⟩
    · rw [hnew k hk]
    · rw [hold k hne, h.valid k hk]
  case inPool =>
    intro k hk
    rcases hcases hk with hk | ⟨hne, hk⟩
    · rw [hnew k hk]; exact hpool
    · rw [hold k hne]; exact h.inPool k hk
  case empty => exact fun k hk => (hold k (by omega)).trans (h.empty k (by omega))
  case distinct =>
    intro j k hjk hk
    have hj : j.val < m := by omega
    rw [hold j hj.ne]
    rcases hcases hk with hk | ⟨hne, hk⟩
    · rw [hnew k hk]; exact hearlier j hj
    · rw [hold k hne]; exact h.distinct j k hjk hk

/-- An upgrade draw leaves the slot's pool, index and `VALID` bit (44_reward R198). -/
theorem FilledSlots.setUpgrade (h : FilledSlots c m v) {k : Nat} (hk : k < m) (b : Bool) :
    FilledSlots c m (v.setIfInBounds k { v.getD k RewardSlot.empty with upg := b }) := by
  have hsame (j : Fin 16) : ∃ upg, (v.setIfInBounds k { v.getD k RewardSlot.empty with upg := b })[j.val] =
      { v[j.val] with upg := upg } := by
    rw [Vector.getElem_setIfInBounds]
    split
    next hj => subst hj; exact ⟨b, by simp [Vector.getD, j.isLt]⟩
    next => exact ⟨v[j.val].upg, rfl⟩
  constructor
  case valid =>
    intro j hj
    obtain ⟨upg, hupg⟩ := hsame j
    rw [hupg]; exact h.valid j hj
  case inPool =>
    intro j hj
    obtain ⟨upg, hupg⟩ := hsame j
    rw [hupg]; exact h.inPool j hj
  case empty =>
    intro j hj
    rw [Vector.getElem_setIfInBounds, if_neg (hk.trans_le hj).ne]
    exact h.empty j hj
  case distinct =>
    intro i j hij hj
    obtain ⟨upg, hupg⟩ := hsame i
    obtain ⟨upg', hupg'⟩ := hsame j
    rw [hupg, hupg']; exact h.distinct i j hij hj

/-- The filled slots are counted by the whole buffer's valid entries. -/
theorem FilledSlots.taken_le (h : FilledSlots c m v) (r : Rarity) : taken r (v.toList.take m) ≤
    v.toList.countP fun slot => slot.valid && decide (slot.rarity = r) := by
  refine le_trans (List.countP_mono_left fun slot hslot hr => ?_)
    ((List.take_sublist m v.toList).countP_le)
  obtain ⟨j, hj, rfl⟩ := List.mem_take_iff_getElem.1 hslot
  obtain ⟨hjm, hj16⟩ : j < m ∧ j < 16 := by simpa using hj
  rw [Bool.and_eq_true]
  exact ⟨h.valid ⟨j, hj16⟩ hjm, hr⟩

end

/-! ### Why a slot fails -/

theorem drawChance_raised {p : Config} {pattern : BitVec 32} {r r' : Row} {e : Err}
    (h : drawChance p pattern r = .raised e r') : e = .ctrOvf := by
  rcases Res.bind_eq_raised.1 h with h | ⟨_, _, _, h⟩
  · exact drawRaw_code h
  · cases h

theorem upgradeInSlot_raised {i : StreamId} {s t : State} {e : Err}
    (h : upgradeInSlot i s = .raised e t) : e = .ctrOvf := by
  unfold upgradeInSlot at h
  split at h
  · obtain ⟨_, hr, -⟩ := onRow_eq_raised.1 h
    exact drawChance_raised hr
  · cases h

/-- An index draw refuses its arguments on an empty pool only. -/
theorem pickIndex_badArg {i : StreamId} {r : Rarity} {slots : List RewardSlot} {fuel : Nat} {s t : State}
    (h : pickIndex i r slots fuel s = .raised .badArg t) : s.block.cfg.poolSize r = 0 := by
  induction fuel generalizing s with
  | zero => cases h
  | succ fuel ih =>
    rcases Res.bind_eq_raised.1 h with h | ⟨v, u, hu, h⟩
    · obtain ⟨_, hr, -⟩ := onRow_eq_raised.1 h
      rcases (drawRange_eq_raised.1 hr).2 with ⟨hlt, -⟩ | ⟨-, -, he⟩
      · omega
      · cases he
    · obtain ⟨_, -, rfl⟩ := onRow_eq_ok.1 hu
      split at h
      · exact ih (s := s.setRow i _) h
      · cases h

/-- The codes of a failing batch name a pool that is empty, or one that the slots have used up. -/
def PoolToBlame (c : RewardConfig) (slots : List RewardSlot) (e : Err) : Prop :=
  (e = .badArg → ∃ r, c.poolSize r = 0) ∧ (e = .poolExhausted → ∃ r, c.poolSize r ≤ taken r slots)

theorem poolToBlame_ctrOvf (c : RewardConfig) (slots : List RewardSlot) : PoolToBlame c slots .ctrOvf :=
  ⟨nofun, nofun⟩

theorem genSlot_poolToBlame {i : StreamId} {k : Nat} {s t : State} {e : Err}
    (h : genSlot i k s = .raised e t) : PoolToBlame s.block.cfg (s.earlier k) e := by
  rcases Res.bind_eq_raised.1 h with h | ⟨rr, u, hu, h⟩
  · rw [(rollRarity_eq_raised.1 h).2.1]
    exact poolToBlame_ctrOvf _ _
  obtain ⟨-, _, -, -, -, rfl⟩ := rollRarity_eq_ok.1 hu
  split at h
  next hempty => cases h; exact ⟨fun _ => ⟨rr.1, by simpa using hempty⟩, nofun⟩
  split at h
  next hused => cases h; exact ⟨nofun, fun _ => ⟨rr.1, by simpa [State.earlier] using hused⟩⟩
  rcases Res.bind_eq_raised.1 h with h | ⟨idx, v, -, h⟩
  · rcases (pickIndex_raised h).2 with rfl | rfl
    · exact poolToBlame_ctrOvf _ _
    · exact ⟨fun _ => ⟨rr.1, by simpa using pickIndex_badArg h⟩, nofun⟩
  rcases Res.bind_eq_raised.1 h with h | ⟨_, _, -, h⟩
  · rw [upgradeInSlot_raised h]
    exact poolToBlame_ctrOvf _ _
  · cases h

/-! ### The batch -/

section
variable {i : StreamId} {n k m : Nat} {s t : State} {c : RewardConfig} {e : Err}

theorem genSlot_ok_filled (hf : FilledSlots s.block.cfg k s.block.reward) (h : genSlot i k s = .ok () t) :
    FilledSlots t.block.cfg (k + 1) t.block.reward ∧ t.block.cfg = s.block.cfg := by
  obtain ⟨r, idx, upg, hpool, hfresh, hreward, hcfg⟩ := genSlot_ok h
  rw [hreward, hcfg]
  exact ⟨hf.fill_next hpool hfresh, rfl⟩

theorem genSlots_ok_filled (hf : FilledSlots s.block.cfg k s.block.reward)
    (h : genSlots i n k s = .ok () t) : FilledSlots s.block.cfg (k + n) t.block.reward := by
  induction n generalizing k s with
  | zero => cases h; exact hf
  | succ n ih =>
    obtain ⟨_, u, hu, h⟩ := Res.bind_eq_ok.1 h
    obtain ⟨hnext, hcfg⟩ := genSlot_ok_filled hf hu
    rw [← hcfg, Nat.add_comm n, ← Nat.add_assoc]
    exact ih hnext h

/-- A batch that fails has filled a beginning of the slots it was to fill. -/
theorem genSlots_raised_filled (hf : FilledSlots s.block.cfg k s.block.reward)
    (h : genSlots i n k s = .raised e t) : ∃ m, m ≤ k + n ∧ FilledSlots s.block.cfg m t.block.reward ∧
      PoolToBlame s.block.cfg (t.block.reward.toList.take m) e := by
  induction n generalizing k s with
  | zero => cases h
  | succ n ih =>
    rcases Res.bind_eq_raised.1 h with h | ⟨_, u, hu, h⟩
    · have hblame := genSlot_poolToBlame h
      obtain ⟨hreward, -, -⟩ := genSlot_raised h
      rw [State.earlier, ← hreward] at hblame
      rw [← hreward] at hf
      exact ⟨k, Nat.le_add_right _ _, hf, hblame⟩
    · obtain ⟨hnext, hcfg⟩ := genSlot_ok_filled hf hu
      rw [← hcfg, Nat.add_comm n, ← Nat.add_assoc]
      exact ih hnext h

theorem upgradeSlots_filled (hf : FilledSlots c m s.block.reward) (hn : k + n ≤ m) :
    (upgradeSlots i n k s).Ensures fun t => FilledSlots c m t.block.reward := by
  induction n generalizing k s with
  | zero => exact Res.ensures_ok.2 hf
  | succ n ih =>
    intro t ht
    rcases Res.leaves_bind ht with ⟨e, ht⟩ | ⟨b, u, hu, ht⟩
    · obtain ⟨_, rfl, -⟩ := onRow_leaves (.inr ⟨e, ht⟩)
      exact hf
    · obtain ⟨_, -, rfl⟩ := onRow_eq_ok.1 hu
      exact ih (hf.setUpgrade (by omega) b) (by omega) t ht

theorem upgradeBatch_filled (hf : FilledSlots c n s.block.reward) :
    (upgradeBatch i n s).Ensures fun t => FilledSlots c n t.block.reward := by
  unfold upgradeBatch
  split
  · exact upgradeSlots_filled hf (Nat.zero_add n).le
  · exact Res.ensures_ok.2 hf

theorem upgradeBatch_raised (h : upgradeBatch i n s = .raised e t) : e = .ctrOvf := by
  unfold upgradeBatch at h
  split at h
  · exact upgradeSlots_raised h
  · cases h

theorem genRewardsRule_ok_filled (h : genRewardsRule i s = .ok () t) :
    FilledSlots s.block.cfg s.countOperand t.block.reward ∧
      t.block.res0 = BitVec.ofNat 64 s.countOperand := by
  obtain ⟨-, -, u, v, hu, hv, rfl⟩ := genRewardsRule_ok h
  have hslots := genSlots_ok_filled (s := s.clearRewards) (filledSlots_zero _) hu
  rw [Nat.zero_add] at hslots
  exact ⟨upgradeBatch_filled hslots v (.inl ⟨(), hv⟩), rfl⟩

theorem genRewardsRule_raised_filled (hcount : s.countOperand ≤ 16) (hmode : s.block.cfg.upgMode ≠ 3)
    (h : genRewardsRule i s = .raised e t) : ∃ m, m ≤ s.countOperand ∧
      FilledSlots s.block.cfg m t.block.reward ∧
      PoolToBlame s.block.cfg (t.block.reward.toList.take m) e := by
  have hclear : FilledSlots s.block.cfg 0 s.clearRewards.block.reward := filledSlots_zero _
  rcases genRewardsRule_raised h with ⟨hargs, -⟩ | ⟨-, -, hu | ⟨u, hu, hv⟩⟩
  · exact absurd hargs (not_or.2 ⟨not_lt.2 hcount, hmode⟩)
  · obtain ⟨m, hm, hfilled⟩ := genSlots_raised_filled (s := s.clearRewards) hclear hu
    exact ⟨m, Nat.zero_add s.countOperand ▸ hm, hfilled⟩
  · have hslots := genSlots_ok_filled (s := s.clearRewards) hclear hu
    rw [Nat.zero_add] at hslots
    rw [upgradeBatch_raised hv]
    exact ⟨_, le_rfl, upgradeBatch_filled hslots t (.inr ⟨e, hv⟩), poolToBlame_ctrOvf _ _⟩

end

/-! ### The command -/

/-- Settles O53: each filled slot keeps the slots before it as they are, and a failing slot writes none. -/
theorem genRewardsFillsDistinctSlots : Obligations.GenRewardsFillsDistinctSlots := by
  intro s t sid i hs hi hcount hmode h
  rcases finish_eq_next.1 ((runStream_ready hs hi).symm.trans h) with ⟨u, hu, rfl⟩ | ⟨e, u, hu, rfl⟩
  · obtain ⟨hf, hres0⟩ := genRewardsRule_ok_filled hu
    exact ⟨_, le_rfl, fun _ => ⟨rfl, hres0⟩, nofun, nofun, fun k hk => ⟨hf.valid k hk, hf.inPool k hk⟩,
      hf.empty, hf.distinct⟩
  · obtain ⟨m, hm, hf, hempty, hused⟩ := genRewardsRule_raised_filled hcount hmode hu
    rw [raise_err, raise_reward, Option.some.injEq, Option.some.injEq]
    exact ⟨m, hm, nofun, hempty, fun he => (hused he).imp fun r hr => hr.trans (hf.taken_le r),
      fun k hk => ⟨hf.valid k hk, hf.inPool k hk⟩, hf.empty, hf.distinct⟩

end Sys2Proof.Machine
end

