-- ==== Sys2Proof/Proofs/SystemCommands.lean ====
section
/-! The system commands `NOP` and `CLRERR` (45_system R210, R211). -/

namespace Sys2Proof.Machine

/-- Settles O55: neither rule has a check before it, so both end by the write of 0 to `ERR`; the rule of `NOP`
has written nothing before that, the rule of `CLRERR` the two sticky fields. -/
theorem systemCommands : Obligations.SystemCommands := by
  refine ⟨encode_eq_ofNat _, encode_eq_ofNat _, fun s => ⟨?nop, ?clrerr⟩⟩
  case nop => exact exec_eq_next.2 (.inl ⟨s, rfl, rfl⟩)
  case clrerr => exact exec_eq_next.2 (.inl ⟨s.rearm, rfl, rfl⟩)

end Sys2Proof.Machine
end

