-- ==== Sys2Proof/Proofs/Exceptions.lean ====
section
/-! Errors (60_exceptions): the words in which a host reads them, what `raise` records (R221), and that a
command which fails has changed `STATUS` only (R230). -/

namespace Sys2Proof.Machine

/-! ### Packed words -/

/-- A word put together from two fields is the sum of the low one and the high one at its place. -/
theorem toNat_append_eq_add {m n : Nat} (x : BitVec m) (y : BitVec n) :
    (x ++ y).toNat = 2 ^ n * x.toNat + y.toNat := by
  rw [BitVec.toNat_append, ← Nat.shiftLeft_add_eq_or_of_lt y.isLt, Nat.shiftLeft_eq, Nat.mul_comm]

theorem status_word_toNat (t : Status) :
    t.word.toNat = t.init.toNat + 2 * t.ckpt.toNat + 2 ^ 8 * (errField t.err).toNat
      + 2 ^ 16 * (errField t.errFirst).toNat + 2 ^ 24 * t.errCmd.toNat := by
  simp only [Status.word, toNat_append_eq_add, BitVec.toNat_ofBool, BitVec.toNat_ofNat]
  omega

theorem ctrlWord_toNat (c : RewardConfig) : c.ctrlWord.toNat = c.pityDis.toNat + 2 * c.upgMode.toNat := by
  simp only [RewardConfig.ctrlWord, toNat_append_eq_add, BitVec.toNat_ofBool, BitVec.toNat_ofNat]
  omega

theorem rewardSlot_word_toNat (r : RewardSlot) :
    r.word.toNat = r.index.toNat + 2 ^ 32 * r.rarity.code.toNat + 2 ^ 34 * r.upg.toNat
      + 2 ^ 63 * r.valid.toNat := by
  simp only [RewardSlot.word, toNat_append_eq_add, BitVec.toNat_ofBool, BitVec.toNat_ofNat]
  omega

/-- Settles O12: each word is the sum of its fields at their places; the codes are those of R220 and R190. -/
theorem packedWordsHoldTheirFields : Obligations.PackedWordsHoldTheirFields :=
  ⟨status_word_toNat, ctrlWord_toNat, rewardSlot_word_toNat,
    rfl, rfl, rfl, rfl, rfl, rfl, rfl, rfl, rfl, rfl, rfl⟩

/-! ### What `raise` records -/

/-- `raise` writes `STATUS` only. -/
theorem raise_setStatus (s : State) (e : Err) (v : Status) : (s.raise e).setStatus v = s.setStatus v := by
  unfold State.raise
  split <;> rfl

/-- Settles O13: `raise` by whether an error stood in `ERR_FIRST`; completing by its one write. -/
theorem raiseRecordsTheFirstError : Obligations.RaiseRecordsTheFirstError := by
  intro s e
  have fresh (h : s.block.status.errFirst = none) : (s.raise e).block.status.errFirst = some e ∧
      (s.raise e).block.status.errCmd = s.block.cmd.extractLsb' 0 12 := by
    simp [raise_errCmd, h]
  have sticky (h : s.block.status.errFirst ≠ none) :
      (s.raise e).block.status.errFirst = s.block.status.errFirst ∧
      (s.raise e).block.status.errCmd = s.block.status.errCmd :=
    (raise_keepsFlags (clears := False) (saves := False) s e).errFirst h id
  exact ⟨raise_err s e, fresh, sticky, raise_init s e, raise_ckpt s e, raise_setStatus s e _,
    rfl, rfl, rfl, rfl, rfl, rfl⟩

/-! ### A failing command is precise -/

variable {i : Instr} {s t u : State} {e : Err}

/-- A next state that holds an error is the raise of that error by the command's rule or its checks. -/
theorem exec_failed (h : exec i s = .next t) (he : t.block.status.err = some e) :
    ∃ u, ruleOf i s = .raised e u ∧ t = u.raise e := by
  rcases exec_eq_next.1 h with ⟨u, -, rfl⟩ | ⟨e', u, hu, rfl⟩
  · cases he
  · rw [raise_err, Option.some.injEq] at he
    exact ⟨u, he ▸ hu, he ▸ rfl⟩

/-- The initialisation check fails before anything changed. -/
theorem gateInit_precise {rule : State → Res State Unit} (hr : rule s = .raised e u → u = s)
    (h : gateInit rule s = .raised e u) : u = s := by
  rcases gateInit_raised.1 h with ⟨-, -, hu⟩ | ⟨-, h⟩
  · exact hu
  · exact hr h

/-- The stream check and the initialisation check fail before anything changed. -/
theorem gateStream_precise {sid : BitVec 4} {rule : StreamId → State → Res State Unit}
    (hr : ∀ j, rule j s = .raised e u → u = s) (h : gateStream sid rule s = .raised e u) : u = s := by
  rcases gateStream_raised.1 h with ⟨-, -, hu⟩ | ⟨-, -, -, hu⟩ | ⟨j, -, -, h⟩
  · exact hu
  · exact hu
  · exact hr j h

theorem actSeedRule_raised (h : actSeedRule s = .raised e u) : u = s := by
  rcases Nat.lt_or_ge s.actOperand.toNat s.params.nActs with hlt | hle
  · rw [actSeedRule_of_lt hlt] at h
    cases h
  · rw [actSeedRule_of_le hle] at h
    cases h
    rfl

theorem rollbackRule_raised (h : rollbackRule s = .raised e u) : u = s := by
  unfold rollbackRule at h
  split at h <;> cases h
  rfl

/-- 60_exceptions R230: every command but `GEN_REWARDS` makes its checks before its first write, and fails in
them alone. -/
theorem ruleOf_raised_precise (hi : ∀ sid, i ≠ .genRewards sid) (h : ruleOf i s = .raised e u) : u = s := by
  cases i with
  | nop | clrerr | pityReset => cases h
  | init => exact absurd h initRule_ne_raised
  | restore => exact (restoreRule_raised h).1
  | rollback => exact rollbackRule_raised h
  | floorAdv => exact gateInit_precise (absurd · floorAdvRule_ne_raised) h
  | actSeed => exact gateInit_precise actSeedRule_raised h
  | actSnap => exact gateInit_precise (absurd · actSnapRule_ne_raised) h
  | snapshot => exact gateInit_precise (fun h => by cases h) h
  | checkpoint => exact gateInit_precise (fun h => by cases h) h
  | streamNew => exact gateStream_precise (fun _ h => absurd h streamNewRule_ne_raised) h
  | drawBounded => exact gateStream_precise (fun _ => drawBoundedRule_raised) h
  | drawRange => exact gateStream_precise (fun _ => drawRangeRule_raised) h
  | drawBool => exact gateStream_precise (fun _ => drawBoolRule_raised) h
  | drawChance => exact gateStream_precise (fun _ => drawChanceRule_raised) h
  | drawFloat => exact gateStream_precise (fun _ => drawFloatRule_raised) h
  | drawLong => exact gateStream_precise (fun _ => drawLongRule_raised) h
  | shuffle => exact gateStream_precise (fun _ h => (shuffleRule_raised h).1) h
  | rollRarity => exact gateStream_precise (fun _ => rollRarityRule_raised) h
  | genRewards sid => exact absurd rfl (hi sid)

/-- `GEN_REWARDS` too has changed nothing when a check fails. -/
theorem genRewards_raised_precise {sid : BitVec 4}
    (hcheck : e = .badStream ∨ e = .notInit ∨ rewardDepth < s.countOperand ∨ s.block.cfg.upgMode = 3)
    (h : ruleOf (.genRewards sid) s = .raised e u) : u = s := by
  refine gateStream_precise (fun j h => ?_) h
  rcases genRewardsRule_raised h with ⟨-, -, hu⟩ | ⟨hcount, hmode, -⟩
  · exact hu
  rcases hcheck with rfl | rfl | hc | hm
  · exact absurd (genRewardsRule_code h) (by decide)
  · exact absurd (genRewardsRule_code h) (by decide)
  · exact absurd hcount (Nat.not_le.2 hc)
  · exact absurd hm hmode

/-- The codes of a failing command: of its two checks, or of its rule. -/
theorem FailsWith.code (h : FailsWith i s e) : e = .badStream ∨ e = .notInit ∨ e ∈ ruleErrors i := by
  rcases h with ⟨-, he⟩ | ⟨-, -, -, he⟩ | ⟨-, -, he⟩
  · exact .inl he
  · exact .inr (.inl he)
  · exact .inr (.inr he)

/-- Without a draw, a rule fails on its arguments or for want of a checkpoint only. -/
theorem ruleErrors_without_draw (hi : i.sid? = none ∨ ∃ sid, i = .streamNew sid) (he : e ∈ ruleErrors i) :
    e = .badArg ∨ e = .noCkpt := by
  cases i with
  | nop | clrerr | init | floorAdv | actSnap | snapshot | checkpoint | pityReset | streamNew => cases he
  | restore | actSeed => exact .inl (List.mem_singleton.1 he)
  | rollback => exact .inr (List.mem_singleton.1 he)
  | drawBounded | drawRange | drawBool | drawChance | drawFloat | drawLong | shuffle | rollRarity
  | genRewards => simp [Instr.sid?] at hi

/-- Settles O14: a failing command raises its error on the state its rule left, which for every command but
`GEN_REWARDS` in its batch is the state it started from. -/
theorem failingCommandsArePrecise : Obligations.FailingCommandsArePrecise := by
  intro i s t e h he
  obtain ⟨u, hu, rfl⟩ := exec_failed h he
  have hcode := (ruleOf_raised_code hu).code
  refine ⟨fun hi => congrArg _ (ruleOf_raised_precise hi hu), ?genRewards, fun hi => ?withoutDraw⟩
  case genRewards =>
    rintro sid rfl
    have precise := fun hcheck => congrArg (State.raise e) (genRewards_raised_precise hcheck hu)
    exact ⟨by simpa [ruleErrors] using hcode, fun hc => precise (hc.imp_right .inl),
      fun hc => precise (.inr (.inr hc))⟩
  case withoutDraw =>
    exact hcode.imp_right (Or.imp_right (ruleErrors_without_draw hi))

end Sys2Proof.Machine
end

