-- ==== Sys2Proof/Proofs/AfterReset.lean ====
section
/-! The state after hardware reset as a host sees it (70_reset_and_hazards R251). -/

namespace Sys2Proof.Machine

variable {i : Instr} {s u : State}

/-! ### The stream file at the port -/

/-- From `0x040` to `0x073` the map holds the words of the rows and a reserved word after each row. -/
theorem locOf_streamFile {a : Addr} (h1 : 0x040 ≤ a.toNat) (h2 : a.toNat ≤ 0x073) :
    (∃ i, rowLocs i (locOf a)) ∨ locOf a = .reserved := by
  have hloc : locOf a = streamAt a.toNat := by
    unfold locOf
    simp only
    rw [if_neg (by omega), if_neg (by omega), if_pos (by omega)]
  rw [hloc, streamAt, dif_pos (by omega)]
  split
  · exact .inl ⟨_, .inl rfl⟩
  · exact .inl ⟨_, .inr (.inl rfl)⟩
  · exact .inl ⟨_, .inr (.inr rfl)⟩
  · exact .inr rfl

theorem Manager.zero_row (i : StreamId) : Manager.zero.row i = Row.zero := by
  simp [Manager.row, Manager.zero]

/-- A row of zeros reads 0 at each of its words. -/
theorem readLoc_of_row_zero {i : StreamId} {l : Loc} (hrow : s.row i = Row.zero) (hl : rowLocs i l) :
    s.readLoc l = 0 := by
  rcases hl with rfl | rfl | rfl <;> simp only [State.readLoc, hrow] <;> rfl

/-- A stream file of zeros reads 0, its reserved words included. -/
theorem port_streamFile_of_rows_zero (hrows : ∀ i, s.row i = Row.zero) {a : Addr} (h1 : 0x040 ≤ a.toNat)
    (h2 : a.toNat ≤ 0x073) : s.port a = 0 := by
  unfold State.port
  rcases locOf_streamFile h1 h2 with ⟨i, hl⟩ | hl
  · exact readLoc_of_row_zero (hrows i) hl
  · rw [hl]; rfl

/-! ### The initialisation check fails -/

theorem gateInit_of_not_init {rule : State → Res State Unit} (h : s.block.status.init = false) :
    gateInit rule s = .raised .notInit s := gateInit_raised.2 (.inl ⟨h, rfl, rfl⟩)

/-- A legal stream number passes the stream check. -/
theorem gateStream_of_not_init {sid : BitVec 4} {rule : StreamId → State → Res State Unit}
    (hsid : legalSid sid = true) (h : s.block.status.init = false) :
    gateStream sid rule s = .raised .notInit s := by
  have hrow : ∃ i, streamId? sid = some i :=
    Option.ne_none_iff_exists'.1 fun hnone => by simp [streamId?_eq_none.1 hnone] at hsid
  exact gateStream_raised.2 (.inr (.inl ⟨hrow, h, rfl, rfl⟩))

theorem ruleOf_of_not_init (hw : i.wellFormed = true) (hn : needsInit i) (h : s.block.status.init = false) :
    ruleOf i s = .raised .notInit s := by
  cases i with
  | nop | clrerr | init | restore | rollback | pityReset => simp [needsInit, Instr.sid?] at hn
  | floorAdv | actSeed | actSnap | snapshot | checkpoint => exact gateInit_of_not_init h
  | streamNew | drawBounded | drawRange | drawBool | drawChance | drawFloat | drawLong | shuffle
  | rollRarity | genRewards => exact gateStream_of_not_init hw h

/-- A command behind the initialisation check, its stream legal, fails with `E_NOT_INIT` (30_encoding R88). -/
theorem exec_of_not_init (hw : i.wellFormed = true) (hn : needsInit i) (h : s.block.status.init = false) :
    exec i s = .next (s.raise .notInit) :=
  exec_eq_next.2 (.inr ⟨_, _, ruleOf_of_not_init hw hn h, rfl⟩)

/-! ### The commands that work -/

/-- A command whose rule completes leaves `STATUS.ERR` 0. -/
theorem exec_completes (h : ∃ u, ruleOf i s = .ok () u) :
    ∃ t, exec i s = .next t ∧ t.block.status.err = none := by
  obtain ⟨u, hu⟩ := h
  exact ⟨u.complete, exec_eq_next.2 (.inl ⟨u, hu, rfl⟩), rfl⟩

/-- With act 0, which every table has, and no counter to replay, `RESTORE` completes. -/
theorem restoreRule_total_of_zero (hact : s.restoreActOperand = 0) (hsnap : ∀ i, s.snapOperand i = 0) :
    ∃ t, restoreRule s = .ok () t := by
  have hlt : s.restoreActOperand.toNat < s.params.nActs := by
    rw [hact]
    exact List.length_pos_of_ne_nil s.params.actOffset_ne_nil
  rw [restoreRule_of_lt hlt]
  exact rebuild_total fun i => ⟨_, by rw [hsnap i]; rfl⟩

/-- Settles O11: the zero fields of the reset state read 0 and fail the checks on `INIT` and `CKPT`; the other
commands have no check, but for `RESTORE`, whose operands are then act 0 and counters of 0. -/
theorem afterResetWhatAHostSees : Obligations.AfterResetWhatAHostSees := by
  intro s hs
  have hstatus : s.block.status = Block.reset.status := congrArg Block.status hs
  have hrow (i : StreamId) : s.row i = Row.zero := by
    rw [State.row, hs]
    exact Manager.zero_row i
  have hact : s.restoreActOperand = 0 := by rw [State.restoreActOperand, hs]; rfl
  have hsnap (i : StreamId) : s.snapOperand i = 0 := by simp [State.snapOperand, hs, Block.reset]
  refine ⟨congrArg Status.word hstatus, fun a => port_streamFile_of_rows_zero hrow,
    fun i hw hn => exec_of_not_init hw hn (congrArg Status.init hstatus),
    congrArg finish (rollbackRule_of_no_ckpt (congrArg Status.ckpt hstatus)),
    fun i hi => exec_completes ?_⟩
  simp only [List.mem_cons, List.not_mem_nil, or_false] at hi
  rcases hi with rfl | rfl | rfl | rfl | rfl
  · exact ⟨s, rfl⟩
  · exact ⟨s.rearm, rfl⟩
  · exact ⟨_, rfl⟩
  · exact initRule_total s
  · exact restoreRule_total_of_zero hact hsnap

end Sys2Proof.Machine
end

