-- ==== Sys2Proof/Proofs/DecodeEncode.lean ====
section
/-! The decoder and the encoder agree both ways (30_encoding R80 to R84), and a step runs the command that a
word written to `CMD` decodes to (R87, R88). -/

namespace Sys2Proof.Machine

/-! ### From a command to its word and back -/

/-- 30_encoding R83: `opcode + 256*sid`; the sum of the two fields does not reach bit 12. -/
theorem encode_toNat (i : Instr) : (encode i).toNat = i.opcode.toNat + 256 * (i.sid?.getD 0).toNat := by
  have hopcode := i.opcode.isLt
  have hsid := (i.sid?.getD 0).isLt
  rw [encode_eq_ofNat, BitVec.toNat_ofNat]
  omega

/-- The decoder reads an encoding's opcode and stream number. -/
theorem decode_encode_eq (i : Instr) :
    decode (encode i) = decodeOpcode i.opcode.toNat (i.sid?.getD 0) := by
  obtain ⟨hopcode, hsid, hzero⟩ := Laws.EncodedFields.of_fields i.opcode (i.sid?.getD 0)
  rw [decode, encode, if_pos hzero, hopcode, hsid]

theorem decodeS_of_legal (i : BitVec 4 → Instr) {sid : BitVec 4} (h : legalSid sid = true) :
    decodeS i sid = .command (i sid) := if_pos h

theorem decode_encode {i : Instr} (h : i.wellFormed = true) : decode (encode i) = .command i := by
  rw [decode_encode_eq]
  cases i with
  | nop | clrerr | init | restore | floorAdv | actSeed | actSnap | snapshot | checkpoint | rollback
  | pityReset => rfl
  | streamNew | drawBounded | drawRange | drawBool | drawChance | drawFloat | drawLong | shuffle
  | rollRarity | genRewards => exact decodeS_of_legal _ h

/-- Settles O1: the word is the sum of its fields, and the opcode map gives back the command it names. -/
theorem decodeOfEncodeIsTheCommand : Obligations.DecodeOfEncodeIsTheCommand :=
  fun i => ⟨encode_toNat i, decode_encode⟩

/-! ### From a word to its command and back -/

/-- What a decoded command has in common with the opcode and the stream field it was read from. -/
def DecodedFrom (opcode : Nat) (sid : BitVec 4) (i : Instr) : Prop :=
  i.opcode.toNat = opcode ∧ i.sid?.getD 0 = sid ∧ i.wellFormed = true

theorem decodeN_eq_command {i j : Instr} {sid : BitVec 4} (hj : j.sid? = none)
    (h : decodeN j sid = .command i) : DecodedFrom j.opcode.toNat sid i := by
  unfold decodeN at h
  split at h
  next hsid =>
    cases h
    exact ⟨rfl, by rw [hj, hsid]; rfl, by rw [Instr.wellFormed, hj]⟩
  next => cases h

theorem decodeS_eq_command {i : Instr} {j : BitVec 4 → Instr} {sid : BitVec 4} (hj : (j sid).sid? = some sid)
    (h : decodeS j sid = .command i) : DecodedFrom (j sid).opcode.toNat sid i := by
  unfold decodeS at h
  split at h
  next hsid =>
    cases h
    exact ⟨rfl, by rw [hj]; rfl, by rw [Instr.wellFormed, hj]; exact hsid⟩
  next => cases h

/-- The opcode map names each command under its own opcode. -/
theorem decodeOpcode_eq_command {o : Nat} {sid : BitVec 4} {i : Instr}
    (h : decodeOpcode o sid = .command i) : DecodedFrom o sid i := by
  by_cases hN : formatNOpcode o
  · interval_cases o <;> exact decodeN_eq_command rfl h
  by_cases hS : formatSOpcode o
  · rcases hS with ⟨h1, h2⟩ | ⟨h1, h2⟩
    · interval_cases o <;> exact decodeS_eq_command rfl h
    · interval_cases o <;> exact decodeS_eq_command rfl h
  · rw [decodeOpcode_of_unknown (not_or.2 ⟨hN, hS⟩)] at h
    cases h

/-- A decoded word has no bit above bit 11. -/
theorem decode_eq_command {w : Word} {i : Instr} (h : decode w = .command i) :
    w.toNat < 2 ^ 12 ∧ DecodedFrom (w.toNat % 256) (sidField w) i := by
  rcases Nat.lt_or_ge w.toNat (2 ^ 12) with hlow | hhigh
  · rw [decode_of_lowBits hlow] at h
    exact ⟨hlow, decodeOpcode_eq_command h⟩
  · rw [decode_of_highBits hhigh] at h
    cases h

/-- Settles O2: a decoded word has only the two fields, and they are the command's. -/
theorem decodedWordIsTheEncoding : Obligations.DecodedWordIsTheEncoding := by
  intro w i h
  obtain ⟨hlow, hopcode, hsid, hlegal⟩ := decode_eq_command h
  refine ⟨hlegal, BitVec.eq_of_toNat_eq ?_⟩
  rw [encode_toNat, hopcode, hsid, toNat_sidField]
  omega

/-- Settles O4: each word is decoded by evaluation. -/
theorem sampleWordsDecode : Obligations.SampleWordsDecode := by
  unfold Obligations.SampleWordsDecode
  decide

/-! ### The step that runs a command -/

theorem issue_of_command {w : Word} {i : Instr} (h : decode w = .command i) (s : State) :
    issue w s = exec i (s.setCmd w) := by
  rw [issue, h]

/-- Settles O5: a write to `CMD` issues its word, and an issued word that decodes is run. -/
theorem stepRunsTheDecodedCommand : Obligations.StepRunsTheDecodedCommand := by
  refine ⟨fun s w rest i hm hw => ?_, fun s w i hw => ?_⟩
  · rw [step_of_cmdWrite hm, issue_of_command hw]
  · rw [step_of_cmdWrite (s := s.withFetchWord 32 w) rfl, issue_of_command hw]
    rfl

/-- A run of one step more, on any machine of the host's. -/
theorem run_succ_of_next {M : Host.Core} {s t : M.State} (h : M.step s = .next t) (k : Nat) :
    M.run (k + 1) s = M.run k t := by
  simp only [Host.Core.run, h]

theorem run_one_eq_step (M : Host.Core) (s : M.State) : M.run 1 s = M.step s := by
  rw [Host.Core.run]
  cases M.step s <;> rfl

theorem core_run_succ {s t : State} (h : step s = .next t) (k : Nat) :
    Host.Core.run core (k + 1) s = Host.Core.run core k t := run_succ_of_next (M := core) h k

theorem core_run_one (s : State) : Host.Core.run core 1 s = step s := run_one_eq_step core s

/-- Settles O59: two steps write the operands, the third issues the command's word. -/
theorem macroRunsItsCommand : Obligations.MacroRunsItsCommand := by
  intro s sid lo hi hsid hm
  have hopa := step_of_hostWrite hm (by decide)
  have hopb := step_of_hostWrite (s := hostWrite 0x002 (toU64 lo) (s.take [wrOpb hi, wrCmd (.drawRange sid)]))
    (rest := [wrCmd (.drawRange sid)]) rfl (by decide)
  rw [core_run_succ hopa, core_run_succ hopb, core_run_one]
  exact (step_of_cmdWrite (rest := []) rfl).trans
    (issue_of_command (decode_encode (i := .drawRange sid) hsid) _)

end Sys2Proof.Machine
end

