-- ==== Sys2Proof/Proofs/CommandOutcomes.lean ====
section
/-! What every command leaves alone, which checks it fails first, whether it answers at all, and what it
leaves in `STATUS` (10_state sections 3, 4 and 8, 30_encoding section 5, 60_exceptions). -/

namespace Sys2Proof.Machine

variable {i : Instr} {s t u : State} {e : Err}

/-! ### The registers that no command writes -/

/-- From `s` to `t` the registers that only the host writes, the parameters and the host's side of the port
are as before (10_state R22, R24). -/
structure KeepsInputs (s t : State) : Prop where
  cmd : t.block.cmd = s.block.cmd
  opa : t.block.opa = s.block.opa
  opb : t.block.opb = s.block.opb
  cfg : t.block.cfg = s.block.cfg
  params : t.params = s.params
  moves : t.moves = s.moves
  readData : t.readData = s.readData
  resets : t.resets = s.resets

theorem KeepsInputs.refl (s : State) : KeepsInputs s s := by constructor <;> rfl

theorem KeepsInputs.trans (h : KeepsInputs s t) (h' : KeepsInputs t u) : KeepsInputs s u where
  cmd := h'.cmd.trans h.cmd
  opa := h'.opa.trans h.opa
  opb := h'.opb.trans h.opb
  cfg := h'.cfg.trans h.cfg
  params := h'.params.trans h.params
  moves := h'.moves.trans h.moves
  readData := h'.readData.trans h.readData
  resets := h'.resets.trans h.resets

theorem Untouched.keepsInputs (h : Untouched s t) : KeepsInputs s t where
  cmd := h.cmd
  opa := h.opa
  opb := h.opb
  cfg := h.cfg
  params := h.params
  moves := h.moves
  readData := h.readData
  resets := h.resets

theorem setStatus_keepsInputs (s : State) (st : Status) : KeepsInputs s (s.setStatus st) := by
  constructor <;> rfl

theorem setRes0_keepsInputs (s : State) (v : Word) : KeepsInputs s (s.setRes0 v) := by
  constructor <;> rfl

theorem setRes1_keepsInputs (s : State) (v : Word) : KeepsInputs s (s.setRes1 v) := by
  constructor <;> rfl

theorem setShadow_keepsInputs (s : State) (m : Manager) : KeepsInputs s (s.setShadow m) := by
  constructor <;> rfl

theorem raise_keepsInputs (s : State) (e : Err) : KeepsInputs s (s.raise e) := by
  unfold State.raise
  split <;> exact setStatus_keepsInputs s _

theorem ruleOf_ok_keepsInputs (h : ruleOf i s = .ok () u) : KeepsInputs s u := by
  rcases ruleOf_ok h with ⟨-, rfl⟩ | ⟨-, -, rfl⟩ | ⟨-, v, hv, rfl⟩ | ⟨-, v, w, x, hv, rfl⟩ |
    ⟨-, v, w, hv, rfl⟩ | ⟨-, hu⟩
  · exact setStatus_keepsInputs s _
  · exact (setShadow_keepsInputs s _).trans (setStatus_keepsInputs _ _)
  · exact hv.keepsInputs.trans (setStatus_keepsInputs v _)
  · exact (hv.keepsInputs.trans (setRes0_keepsInputs v w)).trans (setRes1_keepsInputs _ x)
  · exact hv.keepsInputs.trans (setRes0_keepsInputs v w)
  · exact hu.keepsInputs

theorem exec_keepsInputs (h : exec i s = .next t) : KeepsInputs s t := by
  rcases exec_eq_next.1 h with ⟨u, hu, rfl⟩ | ⟨e, u, hu, rfl⟩
  · exact (ruleOf_ok_keepsInputs hu).trans (setStatus_keepsInputs u _)
  · exact (ruleOf_raised hu).keepsInputs.trans (raise_keepsInputs u e)

/-- Settles O16: what a rule that completes has written is none of these, and a failing one wrote less. -/
theorem commandsLeaveOperandsAndConfiguration : Obligations.CommandsLeaveOperandsAndConfiguration := by
  intro i s t h
  obtain ⟨cmd, opa, opb, cfg, params, moves, readData, resets⟩ := exec_keepsInputs h
  exact ⟨cmd, opa, opb, cfg, params, moves, readData, resets⟩

/-! ### The first two checks -/

theorem gateStream_of_bad_stream {sid : BitVec 4} {rule : StreamId → State → Res State Unit}
    (h : legalSid sid = false) : gateStream sid rule s = .raised .badStream s :=
  gateStream_raised.2 (.inl ⟨streamId?_eq_none.2 h, rfl, rfl⟩)

theorem ruleOf_of_bad_stream (hw : i.wellFormed = false) : ruleOf i s = .raised .badStream s := by
  cases i with
  | nop | clrerr | init | restore | floorAdv | actSeed | actSnap | snapshot | checkpoint | rollback
  | pityReset => cases hw
  | streamNew | drawBounded | drawRange | drawBool | drawChance | drawFloat | drawLong | shuffle
  | rollRarity | genRewards => exact gateStream_of_bad_stream hw

/-- A reserved stream number fails first, whatever the state (30_encoding R88). -/
theorem exec_of_bad_stream (hw : i.wellFormed = false) : exec i s = .next (s.raise .badStream) :=
  exec_eq_next.2 (.inr ⟨_, _, ruleOf_of_bad_stream hw, rfl⟩)

/-- Settles O15: the stream check stands before the initialisation check, and that before every rule. -/
theorem streamThenInitAreCheckedFirst : Obligations.StreamThenInitAreCheckedFirst :=
  fun _ _ => ⟨exec_of_bad_stream, exec_of_not_init⟩

/-! ### The commands that always answer -/

theorem gateInit_ne_stuck {rule : State → Res State Unit} (h : rule s ≠ .stuck) :
    gateInit rule s ≠ .stuck := by
  unfold gateInit
  split
  · exact h
  · nofun

theorem gateStream_ne_stuck {sid : BitVec 4} {rule : StreamId → State → Res State Unit}
    (h : ∀ j, rule j s ≠ .stuck) : gateStream sid rule s ≠ .stuck := by
  unfold gateStream
  split
  · nofun
  · exact gateInit_ne_stuck (h _)

theorem drawRaw_ne_stuck (r : Row) : drawRaw r ≠ .stuck := by
  rcases ctr_cases r with hc | hc
  · rw [drawRaw_of_max hc]; nofun
  · rw [drawRaw_of_lt hc]; nofun

theorem drawChance_ne_stuck (p : Config) (pattern : BitVec 32) (r : Row) :
    drawChance p pattern r ≠ .stuck := by
  rcases ctr_cases r with hc | hc
  · rw [drawChance_of_max hc]; nofun
  · rw [drawChance_of_lt hc]; nofun

/-- A draw that always answers and then a pure update always answer. -/
theorem drawThen_ne_stuck {α : Type} {j : StreamId} {f : Row → Res Row α} {g : α → State → State}
    (hf : ∀ r, f r ≠ .stuck) : ((onRow j f s).bind fun a s => .ok () (g a s)) ≠ .stuck := by
  intro h
  rcases Res.bind_eq_stuck.1 h with h | ⟨_, _, _, h⟩
  · exact hf _ (onRow_eq_stuck.1 h)
  · cases h

theorem actSeedRule_ne_stuck (s : State) : actSeedRule s ≠ .stuck := by
  rcases Nat.lt_or_ge s.actOperand.toNat s.params.nActs with hlt | hle
  · rw [actSeedRule_of_lt hlt]; nofun
  · rw [actSeedRule_of_le hle]; nofun

theorem ne_stuck_of_total {x : Res State Unit} (h : ∃ u, x = .ok () u) : x ≠ .stuck := by
  obtain ⟨u, rfl⟩ := h
  nofun

/-- A command that makes no bounded draw always answers. -/
theorem ruleOf_ne_stuck (h : ¬ mayRedraw i) (s : State) : ruleOf i s ≠ .stuck := by
  cases i with
  | restore | actSnap | streamNew | drawBounded | drawRange | shuffle | rollRarity | genRewards =>
    exact absurd trivial h
  | nop | clrerr | pityReset => nofun
  | init => exact ne_stuck_of_total (initRule_total s)
  | floorAdv => exact gateInit_ne_stuck (ne_stuck_of_total (floorAdvRule_total s))
  | actSeed => exact gateInit_ne_stuck (actSeedRule_ne_stuck s)
  | snapshot | checkpoint => exact gateInit_ne_stuck nofun
  | rollback =>
    cases hc : s.block.status.ckpt with
    | true => rw [ruleOf, rollbackRule_of_ckpt hc]; nofun
    | false => rw [ruleOf, rollbackRule_of_no_ckpt hc]; nofun
  | drawBool | drawFloat | drawLong => exact gateStream_ne_stuck fun _ => drawThen_ne_stuck drawRaw_ne_stuck
  | drawChance => exact gateStream_ne_stuck fun _ => drawThen_ne_stuck (drawChance_ne_stuck _ _)

/-- Settles O18: a command ends as its rule does, which is stuck in a bounded draw only. -/
theorem everyCommandRunsUnlessARedrawNeverEnds : Obligations.EveryCommandRunsUnlessARedrawNeverEnds := by
  intro i s
  rw [exec_eq_finish]
  exact (finish_cases (ruleOf i s)).imp_right fun ⟨hstuck, hfault⟩ =>
    ⟨hfault, by_contra fun hi => ruleOf_ne_stuck hi s hstuck⟩

/-! ### `STATUS` after a command -/

/-- What a completing command makes of `STATUS`, before `ERR` is cleared (10_state R25). -/
def statusWritten (i : Instr) (st : Status) : Status :=
  match i with
  | .clrerr => { st with errFirst := none, errCmd := 0 }
  | .init | .restore => { st with init := true }
  | .checkpoint => { st with ckpt := true }
  | _ => st

theorem statusWritten_of_writesRes0 (h : writesRes0 i) (st : Status) : statusWritten i st = st := by
  obtain ⟨sid, h⟩ := h
  simp only [List.mem_cons, List.not_mem_nil, or_false] at h
  rcases h with rfl | rfl | rfl | rfl | rfl | rfl | rfl <;> rfl

theorem statusWritten_of_writesNeither (h : writesNeither i) (st : Status) : statusWritten i st = st := by
  simp only [writesNeither, List.mem_cons, List.not_mem_nil, or_false] at h
  rcases h with (rfl | rfl | rfl | rfl | rfl | rfl | rfl) | ⟨sid, rfl | rfl⟩ <;> rfl

theorem ruleOf_ok_status (h : ruleOf i s = .ok () u) :
    u.block.status = statusWritten i s.block.status := by
  rcases ruleOf_ok h with ⟨rfl, rfl⟩ | ⟨rfl, -, rfl⟩ | ⟨hi, v, hv, rfl⟩ | ⟨⟨sid, rfl⟩, v, w, x, hv, rfl⟩ |
    ⟨hi, v, w, hv, rfl⟩ | ⟨hi, hu⟩
  · rfl
  · rfl
  · simp only [List.mem_cons, List.not_mem_nil, or_false] at hi
    rw [setInit_status, hv.status]
    rcases hi with rfl | rfl <;> rfl
  · exact hv.status
  · rw [statusWritten_of_writesRes0 hi]
    exact hv.status
  · rw [statusWritten_of_writesNeither hi]
    exact hu.status

/-- `STATUS` after a command: it has completed, or it has recorded the error of the first check that failed. -/
theorem exec_status (h : exec i s = .next t) :
    t.block.status = { statusWritten i s.block.status with err := none } ∨
      ∃ e, FailsWith i s e ∧ t.block.status = (s.raise e).block.status := by
  rcases exec_eq_next.1 h with ⟨u, hu, rfl⟩ | ⟨e, u, hu, rfl⟩
  · exact .inl (complete_status_of_eq (ruleOf_ok_status hu))
  · refine .inr ⟨e, ruleOf_raised_code hu, ?_⟩
    have same := ruleOf_raised hu
    unfold State.raise
    rw [same.status, same.cmd]
    split <;> rfl

/-- Neither check's code is one of a rule's own. -/
theorem not_mem_ruleErrors (i : Instr) : Err.badStream ∉ ruleErrors i ∧ Err.notInit ∉ ruleErrors i := by
  cases i <;> simp [ruleErrors]

theorem exec_badStream_iff (h : exec i s = .next t) :
    t.block.status.err = some .badStream ↔ i.wellFormed = false := by
  constructor
  · intro he
    obtain ⟨u, hu, -⟩ := exec_failed h he
    rcases ruleOf_raised_code hu with ⟨hw, -⟩ | ⟨-, -, -, hcode⟩ | ⟨-, -, hcode⟩
    · exact hw
    · cases hcode
    · exact absurd hcode (not_mem_ruleErrors i).1
  · intro hw
    rw [exec_of_bad_stream hw] at h
    cases h
    exact raise_err s _

theorem exec_notInit_iff (h : exec i s = .next t) : t.block.status.err = some .notInit ↔
    i.wellFormed = true ∧ needsInit i ∧ s.block.status.init = false := by
  constructor
  · intro he
    obtain ⟨u, hu, -⟩ := exec_failed h he
    rcases ruleOf_raised_code hu with ⟨-, hcode⟩ | ⟨hw, hn, hi, -⟩ | ⟨-, -, hcode⟩
    · cases hcode
    · exact ⟨hw, hn, hi⟩
    · exact absurd hcode (not_mem_ruleErrors i).2
  · rintro ⟨hw, hn, hi⟩
    rw [exec_of_not_init hw hn hi] at h
    cases h
    exact raise_err s _

/-- Only `INIT` and `RESTORE` set `INIT`. -/
theorem statusWritten_init (i : Instr) (st : Status) : (statusWritten i st).init = true ↔
    st.init = true ∨ i ∈ [Instr.init, .restore] := by
  cases i <;> simp [statusWritten]

/-- Only `CHECKPOINT` sets `CKPT`. -/
theorem statusWritten_ckpt (i : Instr) (st : Status) : (statusWritten i st).ckpt = true ↔
    st.ckpt = true ∨ i = .checkpoint := by
  cases i <;> simp [statusWritten]

/-- Only `CLRERR` writes the sticky fields. -/
theorem statusWritten_sticky (hi : i ≠ .clrerr) (st : Status) :
    (statusWritten i st).errFirst = st.errFirst ∧ (statusWritten i st).errCmd = st.errCmd := by
  cases i with
  | clrerr => exact absurd rfl hi
  | _ => exact ⟨rfl, rfl⟩

theorem not_failsWith_clrerr : ¬ FailsWith .clrerr s e := by
  simp [FailsWith, needsInit, Instr.wellFormed, Instr.sid?, ruleErrors]

/-- Settles O43: a command that completes leaves the flags as its rule wrote them, one that fails leaves them
to `raise`; the codes of the two checks are no rule's own. -/
theorem statusAfterEveryCommand : Obligations.StatusAfterEveryCommand := by
  intro i s t h
  have hcode (e : Err) (he : t.block.status.err = some e) :
      e = .badStream ∨ e = .notInit ∨ e ∈ ruleErrors i := by
    obtain ⟨u, hu, -⟩ := exec_failed h he
    exact (ruleOf_raised_code hu).code
  rcases exec_status h with hst | ⟨e, he, hst⟩
  · refine ⟨?_, ?_, ?_, fun hi _ => ?_, fun _ hfail => ?_, exec_badStream_iff h, exec_notInit_iff h, hcode⟩
    · simpa [hst] using statusWritten_init i s.block.status
    · simpa [hst] using statusWritten_ckpt i s.block.status
    · rintro rfl
      rw [hst]
      exact ⟨rfl, rfl⟩
    · rw [hst]
      exact statusWritten_sticky hi s.block.status
    · rw [hst] at hfail
      exact absurd rfl hfail
  · refine ⟨?_, ?_, ?_, fun _ hkept => ?_, fun _ _ hnone => ?_, exec_badStream_iff h, exec_notInit_iff h, hcode⟩
    · simp [hst]
    · simp [hst]
    · rintro rfl
      exact absurd he not_failsWith_clrerr
    · rw [hst, raise_err] at hkept
      rw [hst]
      exact (raise_keepsFlags (clears := False) (saves := False) s e).errFirst (hkept.resolve_left nofun) id
    · simp [hst, raise_errCmd, hnone]

end Sys2Proof.Machine
end

