-- ==== Sys2Proof/Proofs/CheckpointedRuns.lean ====
section
/-! A run without a further `CHECKPOINT` and without hardware reset keeps the shadow bank (10_state R33), so a
`ROLLBACK` after it brings the checkpointed manager back (42_stream_manager section 5). -/

namespace Sys2Proof.Machine

/-! ### The pending moves -/

theorem issue_moves {w : Word} {s t : State} (h : issue w s = .next t) : t.moves = s.moves := by
  rcases issue_cases h with ⟨i, -, h⟩ | ⟨e, rfl⟩
  · exact (exec_keepsInputs h).moves
  · exact (raise_keepsInputs _ e).moves

/-- A step takes the oldest pending move and leaves the others. -/
theorem step_moves {s t : State} (h : step s = .next t) : t.moves = s.moves.tail := by
  rcases step_cases h with
    ⟨hm, rfl⟩ | ⟨rest, hm, rfl⟩ | ⟨a, rest, hm, rfl⟩ | ⟨a, v, rest, hm, -, rfl⟩ | ⟨w, rest, hm, h⟩
  all_goals rw [hm]
  · rfl
  · rfl
  · rfl
  · exact (writeLoc_changesOnly _ v (locOf a)).moves
  · exact issue_moves h

/-! ### The shadow bank along a run -/

/-- A move that is neither hardware reset nor a word that issues `CHECKPOINT`. -/
def keepsCheckpoint (m : HostMove) : Prop :=
  m ≠ .reset ∧ ∀ w, m = .write cmdAddr w → decode w ≠ .command .checkpoint

/-- The shadow bank holds the checkpointed manager `m`, and no pending move will replace it. -/
structure State.Holds (m : Manager) (s : State) : Prop where
  shadow : s.block.shadow = m
  ckpt : s.block.status.ckpt = true
  moves : ∀ move ∈ s.moves, keepsCheckpoint move

theorem State.Holds.step {m : Manager} {s t : State} (h : s.Holds m) (ht : step s = .next t) : t.Holds m := by
  obtain ⟨hshadow, hckpt, hmoves⟩ := h
  have hreset (rest : List HostMove) : s.moves ≠ .reset :: rest := fun hm =>
    (hmoves .reset (hm ▸ List.mem_cons_self)).1 rfl
  have hnext : nextMoveIsNot .checkpoint s := fun move rest hm =>
    hmoves move (hm ▸ List.mem_cons_self)
  have hkeeps := step_keepsFlags ht hreset
  exact {
    shadow := (hkeeps.shadow (not_not.2 hnext)).trans hshadow
    ckpt := hkeeps.ckpt hckpt
    moves := fun move hmem => hmoves move (List.mem_of_mem_tail (step_moves ht ▸ hmem)) }

/-- The first step of a run that answers has answered. -/
theorem run_succ_eq_next {M : Host.Core} {s t : M.State} {k : Nat} (h : M.run (k + 1) s = .next t) :
    ∃ u, M.step s = .next u ∧ M.run k u = .next t := by
  rw [Host.Core.run] at h
  cases hs : M.step s with
  | next u => exact ⟨u, rfl, by simpa only [hs] using h⟩
  | fault r => simp [hs] at h
  | refused r => simp [hs] at h

theorem State.Holds.run {m : Manager} {s t : State} {k : Nat} (h : s.Holds m)
    (ht : Host.Core.run core k s = .next t) : t.Holds m := by
  induction k generalizing s with
  | zero => cases ht; exact h
  | succ k ih =>
    obtain ⟨u, hu, ht⟩ := run_succ_eq_next (M := core) ht
    exact ih (h.step hu) ht

/-! ### The two ends of the run -/

/-- A `CHECKPOINT` that passes its check leaves the manager in the shadow bank. -/
theorem exec_checkpoint_eq {s : State} (hi : s.block.status.init = true) :
    exec .checkpoint s = .next ((s.setShadow s.block.mgr).setCkpt).complete := runInit_of_init hi

theorem exec_rollback_eq {s : State} (hc : s.block.status.ckpt = true) :
    exec .rollback s = .next (s.setMgr s.block.shadow).complete := congrArg finish (rollbackRule_of_ckpt hc)

/-- Settles O42: the checkpoint puts the manager into the shadow bank, every step of the run keeps it there,
and the rollback copies it back. -/
theorem managerAfterRollbackIsTheCheckpointed : Obligations.ManagerAfterRollbackIsTheCheckpointed := by
  intro s c t u k hi hc hrun hmoves hu
  rw [exec_checkpoint_eq hi] at hc
  cases hc
  have hstart : ((s.setShadow s.block.mgr).setCkpt).complete.Holds s.block.mgr := ⟨rfl, rfl, hmoves⟩
  obtain ⟨hshadow, hckpt, -⟩ := hstart.run hrun
  rw [exec_rollback_eq hckpt] at hu
  cases hu
  exact ⟨hshadow, hshadow⟩

end Sys2Proof.Machine
end

