-- ==== Sys2Proof/Proofs/ItemsUnseen.lean ====
section
/-! What `ITEM` holds influences nothing but `ITEM` (42_stream_manager R159): with the item memory replaced by
another, each piece of pseudocode comes to the same value or error and, but for the item memory, to the same
state. -/

namespace Sys2Proof.Machine

/-! ### States and results that differ in their items only -/

/-- `s` with another item memory, and another counter of the memory's free value. -/
def State.withItems (m : Memory) (n : Nat) (s : State) : State :=
  { s with block := { s.block with items := m }, resets := n }

/-- A state is determined by its items and by what is left without them. -/
theorem exists_withItems {s t : State} (h : s.withoutItems = t.withoutItems) : ∃ m n, t = s.withItems m n :=
  ⟨t.block.items, t.resets, (congrArg (State.withItems t.block.items t.resets) h).symm⟩

/-- The two results are of one kind, with one value or error, and their states differ in their items only. -/
inductive Res.Alike {α : Type} : Res State α → Res State α → Prop
  | ok (a : α) (s : State) (m : Memory) (n : Nat) : Alike (.ok a s) (.ok a (s.withItems m n))
  | raised (e : Err) (s : State) (m : Memory) (n : Nat) : Alike (.raised e s) (.raised e (s.withItems m n))
  | stuck : Alike .stuck .stuck

/-- The pseudocode does not look at `ITEM`. -/
def ItemBlind {α : Type} (f : State → Res State α) : Prop := ∀ s m n, (f s).Alike (f (s.withItems m n))

section
variable {α β : Type}

theorem Res.Alike.bind {x y : Res State α} {f g : α → State → Res State β} (h : x.Alike y)
    (hf : ∀ a s m n, (f a s).Alike (g a (s.withItems m n))) : (x.bind f).Alike (y.bind g) := by
  cases h with
  | ok a s m n => exact hf a s m n
  | raised e s m n => exact .raised e s m n
  | stuck => exact .stuck

theorem Res.Alike.ite {c : Prop} [Decidable c] {x x' y y' : Res State α} (h : x.Alike x') (h' : y.Alike y') :
    (if c then x else y).Alike (if c then x' else y') := by
  split
  · exact h
  · exact h'

/-- A row's pseudocode sees its row only. -/
theorem onRow_blind (i : StreamId) (f : Row → Res Row α) : ItemBlind (onRow i f) := by
  intro s m n
  cases h : f (s.row i) with
  | ok a r =>
    rw [onRow_of_ok h, onRow_of_ok (s := s.withItems m n) h]
    exact .ok a (s.setRow i r) m n
  | raised e r =>
    rw [onRow_eq_raised.2 ⟨r, h, rfl⟩, (onRow_eq_raised (s := s.withItems m n)).2 ⟨r, h, rfl⟩]
    exact .raised e (s.setRow i r) m n
  | stuck =>
    rw [onRow_eq_stuck.2 h, (onRow_eq_stuck (s := s.withItems m n)).2 h]
    exact .stuck

end

/-! ### The rules of the draws and of the manager -/

theorem drawBoundedRule_blind (i : StreamId) : ItemBlind (drawBoundedRule i) := fun s m n =>
  .ite (.raised .badArg s m n) ((onRow_blind i _ s m n).bind fun v u => .ok () (u.setRes0 (BitVec.ofNat 64 v)))

theorem constructEach_blind (seedOf : StreamId → Word) (countOf : StreamId → Nat) (is : List StreamId) :
    ItemBlind (constructEach seedOf countOf is) := by
  induction is with
  | nil => exact fun s m n => .ok () s m n
  | cons i is ih => exact fun s m n => (onRow_blind i _ s m n).bind fun _ => ih

theorem rebuild_blind (seed : Word) (floor : BitVec 32) (act : BitVec 8) (countOf : StreamId → Nat) :
    ItemBlind (rebuild seed floor act countOf) := fun s m n =>
  (constructEach_blind _ countOf allStreams s m n).bind fun _ t =>
    .ok () (t.setManagerRegs seed floor act).setInit

theorem restoreRule_blind : ItemBlind restoreRule := fun s m n =>
  .ite (.raised .badArg s m n) (rebuild_blind _ _ _ _ s m n)

theorem floorAdvRule_blind : ItemBlind floorAdvRule := fun s m n =>
  (constructEach_blind _ _ floorStreams s m n).bind fun _ t => .ok () (t.setFloor s.floorOperand)

theorem actSeedRule_blind : ItemBlind actSeedRule := fun s m n =>
  .ite (.raised .badArg s m n)
    ((onRow_blind mapStream _ s m n).bind fun _ t => .ok () (t.setAct s.actOperand))

theorem actSnapRule_blind : ItemBlind actSnapRule := by
  intro s m n
  cases h : snapTarget (s.row cardStream).ctr.toNat with
  | none =>
    rw [actSnapRule_of_none h, actSnapRule_of_none (s := s.withItems m n) h]
    exact .ok () s m n
  | some target =>
    rw [actSnapRule_of_some h, actSnapRule_of_some (s := s.withItems m n) h]
    exact onRow_blind cardStream _ s m n

theorem rollbackRule_blind : ItemBlind rollbackRule := fun s m n =>
  .ite (.ok () (s.setMgr s.block.shadow) m n) (.raised .noCkpt s m n)

/-! ### The rules of the engines -/

/-- A swap writes the item memory only, whatever it reads there. -/
theorem swapItems_withItems (s : State) (m : Memory) (n k j : Nat) :
    ∃ m', (s.withItems m n).swapItems k j = (s.swapItems k j).withItems m' n := ⟨_, rfl⟩

theorem shuffleFrom_blind (i : StreamId) (n : Nat) : ItemBlind (shuffleFrom i n) := by
  induction n with
  | zero => exact fun s m n => .ok () s m n
  | succ k ih =>
    refine fun s m n => (onRow_blind i _ s m n).bind fun j u m n => ?_
    obtain ⟨m', hswap⟩ := swapItems_withItems u m n (k + 1) j.toNat
    rw [hswap]
    exact ih _ m' n

theorem shuffleRule_blind (i : StreamId) : ItemBlind (shuffleRule i) := fun s m n =>
  .ite (.raised .badArg s m n) (.ite (.raised .ctrOvf s m n) (shuffleFrom_blind i _ s m n))

theorem updatePity_withItems (s : State) (m : Memory) (n : Nat) (r : Rarity) :
    (s.withItems m n).updatePity r = (s.updatePity r).withItems m n := by
  rw [updatePity_eq, updatePity_eq]
  rfl

theorem rollRarity_blind (i : StreamId) : ItemBlind (rollRarity i) := by
  refine fun s m n => (onRow_blind i _ s m n).bind fun roll u m n => ?_
  simp only [updatePity_withItems]
  exact .ok _ _ m n

theorem rollRarityRule_blind (i : StreamId) : ItemBlind (rollRarityRule i) := fun s m n =>
  (rollRarity_blind i s m n).bind fun rr u => .ok () ((u.setRes0 (zeroExtended rr.1.code)).setRes1 (toU64 rr.2))

theorem pickIndex_blind (i : StreamId) (r : Rarity) (slots : List RewardSlot) (fuel : Nat) :
    ItemBlind (pickIndex i r slots fuel) := by
  induction fuel with
  | zero => exact fun _ _ _ => .stuck
  | succ fuel ih =>
    exact fun s m n => (onRow_blind i _ s m n).bind fun v u m n => .ite (ih u m n) (.ok _ u m n)

theorem upgradeInSlot_blind (i : StreamId) : ItemBlind (upgradeInSlot i) := fun s m n =>
  .ite (onRow_blind i _ s m n) (.ok false s m n)

theorem genSlot_blind (i : StreamId) (k : Nat) : ItemBlind (genSlot i k) := fun s m n =>
  (rollRarity_blind i s m n).bind fun rr u m n =>
    .ite (.raised .badArg u m n) <| .ite (.raised .poolExhausted u m n) <|
      (pickIndex_blind i rr.1 (u.earlier k) _ u m n).bind fun idx v m n =>
        (upgradeInSlot_blind i v m n).bind fun upg w => .ok () (w.setReward k ⟨idx, rr.1, upg, true⟩)

theorem genSlots_blind (i : StreamId) (n k : Nat) : ItemBlind (genSlots i n k) := by
  induction n generalizing k with
  | zero => exact fun s m n => .ok () s m n
  | succ n ih => exact fun s m n' => (genSlot_blind i k s m n').bind fun _ => ih (k + 1)

theorem upgradeSlots_blind (i : StreamId) (n k : Nat) : ItemBlind (upgradeSlots i n k) := by
  induction n generalizing k with
  | zero => exact fun s m n => .ok () s m n
  | succ n ih => exact fun s m n' => (onRow_blind i _ s m n').bind fun b u => ih (k + 1) (u.setUpgrade k b)

theorem upgradeBatch_blind (i : StreamId) (count : Nat) : ItemBlind (upgradeBatch i count) := fun s m n =>
  .ite (upgradeSlots_blind i count 0 s m n) (.ok () s m n)

theorem genRewardsRule_blind (i : StreamId) : ItemBlind (genRewardsRule i) := fun s m n =>
  .ite (.raised .badArg s m n) <| .ite (.raised .badArg s m n) <|
    (genSlots_blind i _ 0 s.clearRewards m n).bind fun _ t m n =>
      (upgradeBatch_blind i _ t m n).bind fun _ u => .ok () (u.setRes0 (BitVec.ofNat 64 s.countOperand))

/-! ### The commands -/

theorem gateInit_blind {rule : State → Res State Unit} (h : ItemBlind rule) : ItemBlind (gateInit rule) :=
  fun s m n => .ite (h s m n) (.raised .notInit s m n)

theorem gateStream_blind {sid : BitVec 4} {rule : StreamId → State → Res State Unit}
    (h : ∀ j, ItemBlind (rule j)) : ItemBlind (gateStream sid rule) := by
  intro s m n
  unfold gateStream
  cases streamId? sid with
  | none => exact .raised .badStream s m n
  | some j => exact gateInit_blind (h j) s m n

theorem ruleOf_blind (i : Instr) : ItemBlind (ruleOf i) := by
  cases i with
  | nop => exact fun s m n => .ok () s m n
  | clrerr => exact fun s m n => .ok () s.rearm m n
  | init => exact fun s m n => rebuild_blind s.seedOperand 0 0 (fun _ => 0) s m n
  | restore => exact restoreRule_blind
  | floorAdv => exact gateInit_blind floorAdvRule_blind
  | actSeed => exact gateInit_blind actSeedRule_blind
  | actSnap => exact gateInit_blind actSnapRule_blind
  | snapshot => exact gateInit_blind fun s m n => .ok () (s.setSnap s.block.mgr.counters) m n
  | checkpoint => exact gateInit_blind fun s m n => .ok () (s.setShadow s.block.mgr).setCkpt m n
  | rollback => exact rollbackRule_blind
  | pityReset => exact fun s m n => .ok () (s.setPityOffset s.block.cfg.pityStart) m n
  | streamNew => exact gateStream_blind fun j s m n => onRow_blind j _ s m n
  | drawBounded => exact gateStream_blind drawBoundedRule_blind
  | drawRange | drawBool | drawChance | drawFloat | drawLong =>
    exact gateStream_blind fun j s m n => (onRow_blind j _ s m n).bind fun v u => .ok () (u.setRes0 _)
  | shuffle => exact gateStream_blind shuffleRule_blind
  | rollRarity => exact gateStream_blind rollRarityRule_blind
  | genRewards => exact gateStream_blind genRewardsRule_blind

/-- An error is recorded without a look at `ITEM`. -/
theorem raise_withItems (s : State) (m : Memory) (n : Nat) (e : Err) :
    (s.withItems m n).raise e = (s.raise e).withItems m n := by
  cases h : s.block.status.errFirst <;> simp only [State.raise, State.withItems, h] <;> rfl

theorem Res.Alike.finish {x y : Res State Unit} (h : x.Alike y) :
    outcomeWithoutItems (finish x) = outcomeWithoutItems (finish y) := by
  cases h with
  | ok a s m n => rfl
  | raised e s m n => rw [finish_raised, finish_raised, raise_withItems]; rfl
  | stuck => rfl

/-- Settles O58: the second state is the first with other items, which no command's rule looks at. -/
theorem itemContentInfluencesNothingElse : Obligations.ItemContentInfluencesNothingElse := by
  intro i s t h
  obtain ⟨m, n, rfl⟩ := exists_withItems h
  rw [exec_eq_finish, exec_eq_finish]
  exact (ruleOf_blind i s m n).finish

end Sys2Proof.Machine
end

