-- ==== Sys2Proof/Proofs/HostPort.lean ====
section
/-! The host port: what each address reads, what a write and a read change (20_memory R61, R62, R65), and the
block after hardware reset (70_reset_and_hazards R250, 10_state R50). -/

namespace Sys2Proof.Machine

/-! ### The places of the buffers in the map (20_memory R61) -/

theorem locOf_snapEntry (i : StreamId) : locOf (BitVec.ofNat 11 (0x020 + i.val)) = .snap i := by
  decide +revert

theorem locOf_s0 (i : StreamId) : locOf (BitVec.ofNat 11 (0x040 + 4 * i.val)) = .s0 i := by
  decide +revert

theorem locOf_s1 (i : StreamId) : locOf (BitVec.ofNat 11 (0x041 + 4 * i.val)) = .s1 i := by
  decide +revert

theorem locOf_reward (k : Fin 16) : locOf (BitVec.ofNat 11 (0x080 + k.val)) = .reward k := by
  have haddr : (BitVec.ofNat 11 (0x080 + k.val)).toNat = 0x080 + k.val := by
    rw [BitVec.toNat_ofNat]
    omega
  unfold locOf rewardAt
  simp only [haddr]
  rw [if_neg (by omega), if_neg (by omega), if_neg (by omega), if_pos (by omega), dif_pos (by omega)]
  simp only [Nat.add_sub_cancel_left]

theorem locOf_item {a : Addr} (h : 0x400 ≤ a.toNat) : locOf a = .item ⟨a.toNat - 0x400, by omega⟩ := by
  unfold locOf itemAt
  simp only
  rw [if_neg (by omega), if_neg (by omega), if_neg (by omega), if_neg (by omega), dif_pos]

theorem port_of_locOf {a : Addr} {l : Loc} (h : locOf a = l) (s : State) : s.port a = s.readLoc l := by
  rw [State.port, h]

theorem port_item (s : State) {a : Addr} (h : 0x400 ≤ a.toNat) : s.port a = s.item (a.toNat - 0x400) :=
  port_of_locOf (locOf_item h) s

/-! ### The whole map -/

/-- A narrow register reads as its signed value. -/
theorem toInt_signExtended {w : Nat} (hw : w ≤ 64) (x : BitVec w) : (signExtended x).toInt = x.toInt :=
  BitVec.toInt_signExtend_of_le hw

theorem showsMap (s : State) : s.ShowsMap where
  cmd := rfl
  status := rfl
  opa := rfl
  opb := rfl
  res0 := rfl
  res1 := rfl
  baseSeed := rfl
  floor := toNat_zeroExtended (by decide) _
  act := toNat_zeroExtended (by decide) _
  ctrl := rfl
  rarePct := toInt_signExtended (by decide) _
  uncPct := toInt_signExtended (by decide) _
  pityStart := toInt_signExtended (by decide) _
  pityFloor := toInt_signExtended (by decide) _
  pityStep := toNat_zeroExtended (by decide) _
  pityOffset := toInt_signExtended (by decide) _
  upgP := toNat_zeroExtended (by decide) _
  poolCommon := toNat_zeroExtended (by decide) _
  poolUncommon := toNat_zeroExtended (by decide) _
  poolRare := toNat_zeroExtended (by decide) _
  snap i := by
    rw [port_of_locOf (locOf_snapEntry i)]
    exact toNat_zeroExtended (by decide) _
  s0 i := port_of_locOf (locOf_s0 i) s
  s1 i := port_of_locOf (locOf_s1 i) s
  ctr i := by
    rw [port_of_locOf (locOf_ctr i)]
    exact toNat_zeroExtended (by decide) _
  reward k := port_of_locOf (locOf_reward k) s
  item k hk := by
    have haddr : (BitVec.ofNat 11 (0x400 + k)).toNat = 0x400 + k := by
      rw [BitVec.toNat_ofNat]
      omega
    rw [port_item s (by omega), haddr, Nat.add_sub_cancel_left]

/-! ### A host write and a host read -/

/-- `OPA`, `OPB` and the entries of `ITEM` keep the whole word. -/
theorem hostWrite_port_whole (s : State) {a : Addr} (v : Word) (h : a = 0x002 ∨ a = 0x003 ∨ 0x400 ≤ a.toNat) :
    (hostWrite a v s).port a = v := by
  rcases h with rfl | rfl | h
  · rfl
  · rfl
  · rw [hostWrite_port_same (locOf_item h)]
    exact setItem_item_same s _ v

/-- Settles O8: the map address by address; a write changes its own location only. -/
theorem addressMapAndHostWrites : Obligations.AddressMapAndHostWrites := by
  refine ⟨showsMap, fun s a v rest hm ha => ?_⟩
  have hframe := writeLoc_changesOnly (s.take rest) v (locOf a)
  exact ⟨hostWrite a v (s.take rest), step_of_hostWrite hm ha,
    fun b hb => hostWrite_port_ne (s.take rest) v hb, hostWrite_port_whole (s.take rest) v,
    hframe.shadow, hframe.params, hframe.moves, hframe.readData, hframe.resets⟩

theorem step_of_hostRead {s : State} {a : Addr} {rest : List HostMove} (hm : s.moves = .read a :: rest) :
    step s = .next (hostRead a (s.take rest)) := by
  simp only [step, hm]

/-- Settles O9: the step puts the word into `readData` and writes nothing else. -/
theorem hostReadReturnsTheWord : Obligations.HostReadReturnsTheWord :=
  fun s a rest hm => ⟨hostRead a (s.take rest), step_of_hostRead hm, rfl, rfl, rfl, rfl, rfl⟩

/-! ### Hardware reset -/

theorem step_of_hardReset {s : State} {rest : List HostMove} (hm : s.moves = .reset :: rest) :
    step s = .next (hardReset (s.take rest)) := by
  simp only [step, hm]

/-- After reset every location but the entries of `ITEM` reads 0 (10_state R50). -/
theorem hardReset_readLoc (s : State) {l : Loc} (hl : ∀ k, l ≠ .item k) : (hardReset s).readLoc l = 0 := by
  have hrow (i : StreamId) : (hardReset s).row i = Row.zero := Manager.zero_row i
  cases l with
  | item k => exact absurd rfl (hl k)
  | s0 i => exact readLoc_of_row_zero (hrow i) (.inl rfl)
  | s1 i => exact readLoc_of_row_zero (hrow i) (.inr (.inl rfl))
  | ctr i => exact readLoc_of_row_zero (hrow i) (.inr (.inr rfl))
  | status => exact (by decide : Block.reset.status.word = 0)
  | ctrl => exact (by decide : Block.reset.cfg.ctrlWord = 0)
  | poolSize r => cases r <;> rfl
  | snap i => simp [State.readLoc, hardReset, Block.reset, zeroExtended]
  | reward k =>
    simp only [State.readLoc, hardReset, Block.reset, Vector.getElem_replicate]
    rfl
  | _ => rfl

/-- Below `0x400` there is no entry of `ITEM`. -/
theorem locOf_ne_item {a : Addr} (h : a.toNat < 0x400) (k : Fin 1024) : locOf a ≠ .item k := by
  intro hl
  have haddr := locOf_address (a := a) (by rw [hl]; nofun)
  rw [hl, Loc.address] at haddr
  omega

/-- Settles O10: the block is written whole, and an entry of `ITEM` that nothing has written since reads as
the free value of the new reset. -/
theorem hardResetClearsTheBlock : Obligations.HardResetClearsTheBlock := by
  intro s rest hm
  refine ⟨hardReset (s.take rest), step_of_hardReset hm, fun a ha => ?_, fun a ha => ?_, rfl, rfl, rfl, rfl⟩
  · exact hardReset_readLoc _ (locOf_ne_item ha)
  · exact port_item _ ha

/-- Settles O57: hardware reset makes the invariant, which reads neither the moves nor the reset counter. -/
theorem resetMeetsTheInvariant : Obligations.ResetMeetsTheInvariant :=
  (hardReset_inv State.reset).congr rfl rfl rfl rfl rfl

end Sys2Proof.Machine
end

