-- ==== Sys2Proof/Proofs/RedrawFuel.lean ====
section
/-! The fuel of the rejection loop (log 9): there are 2^128 generator pairs, so after as many raw draws every
raw draw of a row has been seen (93_implementation_defined U4). -/

namespace Sys2Proof.Machine

/-- A row's pair as one number. -/
def Row.pair (r : Row) : Nat := r.s0.toNat * 2 ^ 64 + r.s1.toNat

theorem Row.pair_lt (r : Row) : r.pair < Config.redrawFuel := by
  have h0 := r.s0.isLt
  have h1 := r.s1.isLt
  unfold Row.pair Config.redrawFuel
  omega

/-- Rows with one pair and one counter are one row. -/
theorem Row.eq_of_pair_eq {r r' : Row} (h : r.pair = r'.pair) (hc : r.ctr = r'.ctr) : r = r' := by
  have h1 := r.s1.isLt
  have h1' := r'.s1.isLt
  unfold Row.pair at h
  obtain ⟨s0, s1, c⟩ := r
  obtain ⟨s0', s1', c'⟩ := r'
  simp only [Row.mk.injEq] at *
  exact ⟨BitVec.eq_of_toNat_eq (by omega), BitVec.eq_of_toNat_eq (by omega), hc⟩

/-- Within one more raw draw than there are pairs, some row comes twice. -/
theorem exists_advance_eq (r : Row) :
    ∃ a b, a < b ∧ b ≤ Config.redrawFuel ∧ r.advance a = r.advance b := by
  have hcard : (Finset.range Config.redrawFuel).card < (Finset.range (Config.redrawFuel + 1)).card := by
    rw [Finset.card_range, Finset.card_range]
    exact Nat.lt_succ_self _
  obtain ⟨a, ha, b, hb, hab, heq⟩ := Finset.exists_ne_map_eq_of_card_lt_of_maps_to hcard
    (f := fun k => (r.advance k).pair) fun k _ => Finset.mem_coe.2 (Finset.mem_range.2 (Row.pair_lt _))
  have heq : r.advance a = r.advance b := Row.eq_of_pair_eq heq (by rw [advance_ctr, advance_ctr])
  have ha := Finset.mem_range_succ_iff.1 ha
  have hb := Finset.mem_range_succ_iff.1 hb
  rcases Nat.lt_or_gt_of_ne hab with hlt | hlt
  · exact ⟨a, b, hlt, hb, heq⟩
  · exact ⟨b, a, hlt, ha, heq.symm⟩

/-- Every row of a stream comes within as many raw draws as there are pairs: a later one is the same as one
that is earlier by a period. -/
theorem exists_advance_lt_fuel (r : Row) (k : Nat) :
    ∃ j, j < Config.redrawFuel ∧ r.advance k = r.advance j := by
  induction k using Nat.strong_induction_on with
  | _ k ih =>
    rcases Nat.lt_or_ge k Config.redrawFuel with hk | hk
    · exact ⟨k, hk, rfl⟩
    · obtain ⟨a, b, hab, hb, heq⟩ := exists_advance_eq r
      obtain ⟨j, hj, hperiod⟩ := ih (a + (k - b)) (by omega)
      refine ⟨j, hj, ?_⟩
      calc r.advance k = (r.advance b).advance (k - b) := by rw [advance_add, Nat.add_sub_cancel' (hb.trans hk)]
        _ = (r.advance a).advance (k - b) := by rw [heq]
        _ = r.advance j := by rw [advance_add, hperiod]

/-- Settles O19: a raw draw that would be accepted has a copy within the fuel. -/
theorem fuelRunsOutExactlyWhenTheLoopNeverEnds : Obligations.FuelRunsOutExactlyWhenTheLoopNeverEnds := by
  intro p n r hn
  rw [bounded, boundedLoop_eq_stuck hn]
  refine ⟨fun h k => ?_, fun h k _ => h k⟩
  obtain ⟨j, hj, heq⟩ := exists_advance_lt_fuel r k
  have hbits : r.bitsAt p k = r.bitsAt p j := by rw [Row.bitsAt, Row.rawAt, heq]; rfl
  rw [hbits]
  exact h j hj

end Sys2Proof.Machine
end

