-- ==== Sys2Proof/Proofs/GeneratorMaps.lean ====
section
/-! The generator's functions as maps (40_generator): only the all-zero pair steps to itself, and the
finalizer is a bijection. -/

namespace Sys2Proof.Machine

/-- The all-zero pair steps to the all-zero pair (40_generator R103). -/
theorem nextU64_of_not_live {r : Row} (h : ¬ r.live) : ¬ (nextU64 r).2.live := by
  obtain ⟨h0, h1⟩ := not_not.1 h
  exact not_not.2 ⟨h1, by simp [nextU64, h0, h1]⟩

/-- Settles O21: a live pair stays live, and the all-zero pair stays as it is. -/
theorem onlyTheZeroPairStepsToZero : Obligations.OnlyTheZeroPairStepsToZero := fun _ =>
  ⟨not_imp_not.1 nextU64_of_not_live, Row.live.nextU64⟩

/-- The finalizer is three involutions with multiplications by units between them (40_generator R100). -/
theorem finalize_bijective (p : Config) : Function.Bijective (finalize p) := by
  have hmul {c : Word} (hc : c.getLsbD 0 = true) : Function.Bijective fun x : Word => x * c :=
    IsUnit.isUnit_iff_mulRight_bijective.1 (isUnit_of_odd hc)
  have hxor := xorShift33_involutive.bijective
  exact hxor.comp ((hmul p.fmixC2_odd).comp (hxor.comp ((hmul p.fmixC1_odd).comp hxor)))

/-- Settles O22: each stage of the finalizer is a bijection that sends only 0 to 0. -/
theorem finalizeIsABijection : Obligations.FinalizeIsABijection := fun p =>
  ⟨finalize_bijective p, fun _ => finalize_eq_zero_iff⟩

end Sys2Proof.Machine
end

