-- ==== Sys2Proof/Proofs/RawDraws.lean ====
section
/-! The accept test of a bounded draw in closed form (41_draws R121), and the commands that make one raw draw
whatever the stream holds: `DRAW_BOUNDED` on a power of two, `DRAW_BOOL`, `DRAW_CHANCE`, `DRAW_FLOAT` and
`DRAW_LONG` (41_draws section 3). -/

namespace Sys2Proof.Machine

/-! ### The bits of a raw draw and the accept test -/

theorem boundedRaw_eq (p : Config) (raw : Word) :
    boundedRaw p raw = raw.toNat / 2 ^ p.boundedLow.val % 2 ^ 63 := by
  rw [boundedRaw, BitVec.extractLsb'_toNat, Nat.shiftRight_eq_div_pow]

/-- At the default place the window is the upper 63 bits. -/
theorem boundedRaw_of_low_one {p : Config} (h : p.boundedLow = 1) (raw : Word) :
    boundedRaw p raw = (raw >>> 1).toNat := by
  have hraw := raw.isLt
  rw [boundedRaw_eq, h, BitVec.toNat_ushiftRight, Nat.shiftRight_eq_div_pow]
  exact Nat.mod_eq_of_lt (by change raw.toNat / 2 < _; omega)

/-- With `q` the quotient of the bits by `n`, the sum is `n * (q + 1) - 1`: the test asks for a whole block of
`n` values below 2^63. -/
theorem accepts_iff_lt {bits n : Nat} (hn : 1 ≤ n) :
    accepts bits n = true ↔ bits < n * (2 ^ 63 / n) := by
  have hdiv := Nat.div_add_mod bits n
  calc accepts bits n = true
    _ ↔ n * (bits / n + 1) ≤ 2 ^ 63 := by
      rw [accepts, decide_eq_true_iff, Nat.mul_succ]
      omega
    _ ↔ bits / n < 2 ^ 63 / n := by rw [Nat.lt_iff_add_one_le, Nat.le_div_iff_mul_le hn, Nat.mul_comm]
    _ ↔ bits < n * (2 ^ 63 / n) := by rw [Nat.div_lt_iff_lt_mul hn, Nat.mul_comm]

/-- Settles O24: the window by its place, the accept test by whole blocks of `n` values. -/
theorem boundedDrawTakesAndAccepts : Obligations.BoundedDrawTakesAndAccepts :=
  ⟨fun p raw => ⟨boundedRaw_eq p raw, fun h => boundedRaw_of_low_one h raw⟩, rfl,
    fun _ _ hn _ => accepts_iff_lt hn⟩

/-! ### A power of two -/

/-- Blocks of a power of two fill the 63 bits, so that no value is rejected (41_draws R121). -/
theorem noOverflow_of_two_pow {bits m : Nat} (hbits : bits < 2 ^ 63) (hm : m < 63) :
    NoOverflow bits (2 ^ m) := by
  have hblocks : 2 ^ m * (2 ^ 63 / 2 ^ m) = 2 ^ 63 := Nat.mul_div_cancel' (Nat.pow_dvd_pow 2 hm.le)
  rw [← accepts_iff Nat.one_le_two_pow, accepts_iff_lt Nat.one_le_two_pow, hblocks]
  exact hbits

/-- Settles O26: the first raw draw is accepted, and so makes the command's one draw. -/
theorem powerOfTwoBoundNeverRedraws : Obligations.PowerOfTwoBoundNeverRedraws := by
  intro s sid i m hs hi hc hm hopa
  have hpow : 2 ^ m < 2 ^ 63 := Nat.pow_lt_pow_right (by decide) hm
  have hnat : s.block.opa.toNat = 2 ^ m := by
    rw [hopa, BitVec.toNat_ofNat]
    exact Nat.mod_eq_of_lt (hpow.trans (by decide))
  have hpos : 0 < s.block.opa.toInt := by
    have := Nat.two_pow_pos m
    rw [BitVec.toInt_eq_toNat_of_lt (by omega), hnat]
    omega
  have hdraw := redraws_zero (noOverflow_of_two_pow (bitsAt_lt s.params (s.row i) 0) hm)
  have hrule := drawBoundedRule_of_redraws hpos hc (hnat ▸ hdraw)
  rw [hnat] at hrule
  exact (runStream_ready hs hi).trans (congrArg finish hrule)

/-! ### One raw draw -/

/-- A narrow value extended by zeros, as a number. -/
theorem zeroExtended_eq_ofNat {w : Nat} (x : BitVec w) : zeroExtended x = BitVec.ofNat 64 x.toNat := by
  rw [zeroExtended, BitVec.ofNat_toNat]

theorem zeroExtended_ofBool (b : Bool) : zeroExtended (BitVec.ofBool b) = if b then 1 else 0 := by
  cases b <;> rfl

theorem toNat_lowBit (raw : Word) : (raw.extractLsb' 0 1).toNat = raw.toNat % 2 := by
  rw [BitVec.extractLsb'_toNat, Nat.shiftRight_zero, pow_one]

section
variable {s : State} {i : StreamId}

/-- A raw draw on a full counter fails, whatever is made of its bits. -/
theorem drawRawThen_of_max {g : Word → State → State} (hc : (s.row i).ctr.toNat = 2 ^ 32 - 1) :
    ((onRow i drawRaw s).bind fun raw s => .ok () (g raw s)) = .raised .ctrOvf s :=
  drawThen_of_raised (drawRaw_of_max hc)

theorem drawChanceRule_of_max (hc : (s.row i).ctr.toNat = 2 ^ 32 - 1) :
    drawChanceRule i s = .raised .ctrOvf s := drawThen_of_raised (drawChance_of_max hc)

theorem drawBoolRule_of_lt (hc : (s.row i).ctr.toNat < 2 ^ 32 - 1) :
    drawBoolRule i s = .ok () ((s.setRow i ((s.row i).drawn 0)).setRes0
      (BitVec.ofNat 64 (((s.row i).rawAt 0).toNat % 2))) := by
  rw [← toNat_lowBit, ← zeroExtended_eq_ofNat]
  exact drawThen_of_ok (drawRaw_of_lt hc)

theorem drawFloatRule_of_lt (hc : (s.row i).ctr.toNat < 2 ^ 32 - 1) :
    drawFloatRule i s = .ok () ((s.setRow i ((s.row i).drawn 0)).setRes0
      (BitVec.ofNat 64 (((s.row i).rawAt 0).toNat / 2 ^ s.params.floatLow.val % 2 ^ 24))) := by
  rw [← floatRaw_toNat, ← zeroExtended_eq_ofNat]
  exact drawThen_of_ok (drawRaw_of_lt hc)

theorem drawLongRule_of_lt (hc : (s.row i).ctr.toNat < 2 ^ 32 - 1) :
    drawLongRule i s = .ok () ((s.setRow i ((s.row i).drawn 0)).setRes0 ((s.row i).rawAt 0)) :=
  drawThen_of_ok (drawRaw_of_lt hc)

theorem drawChanceRule_of_lt (hc : (s.row i).ctr.toNat < 2 ^ 32 - 1) :
    drawChanceRule i s = .ok () ((s.setRow i ((s.row i).drawn 0)).setRes0
      (if less24 (((s.row i).rawAt 0).toNat / 2 ^ s.params.floatLow.val % 2 ^ 24)
        (s.block.opa.extractLsb' 0 32) then 1 else 0)) := by
  rw [← floatRaw_toNat, ← zeroExtended_ofBool]
  exact drawThen_of_ok (drawChance_of_lt hc)

end

/-- Settles O28: past its checks each command ends as its rule does, on a full counter and on one with room. -/
theorem rawDrawResults : Obligations.RawDrawResults := by
  intro s sid i hs hi
  have hbool : exec (.drawBool sid) s = finish (drawBoolRule i s) := runStream_ready hs hi
  have hfloat : exec (.drawFloat sid) s = finish (drawFloatRule i s) := runStream_ready hs hi
  have hlong : exec (.drawLong sid) s = finish (drawLongRule i s) := runStream_ready hs hi
  rw [hbool, hfloat, hlong]
  refine ⟨encode_eq_ofNat _, encode_eq_ofNat _, encode_eq_ofNat _, fun hc => ?_, fun hc => ?_⟩
  · exact ⟨congrArg finish (drawRawThen_of_max hc), congrArg finish (drawRawThen_of_max hc),
      congrArg finish (drawRawThen_of_max hc)⟩
  · exact ⟨congrArg finish (drawBoolRule_of_lt hc), congrArg finish (drawFloatRule_of_lt hc),
      congrArg finish (drawLongRule_of_lt hc)⟩

/-- Settles O29: past its checks the command ends as its rule does, on a full counter and on one with room. -/
theorem drawChanceResult : Obligations.DrawChanceResult := by
  intro s sid i hs hi
  have hexec : exec (.drawChance sid) s = finish (drawChanceRule i s) := runStream_ready hs hi
  rw [hexec]
  exact ⟨encode_eq_ofNat _, fun hc => congrArg finish (drawChanceRule_of_max hc),
    fun hc => congrArg finish (drawChanceRule_of_lt hc)⟩

end Sys2Proof.Machine
end

