-- ==== Sys2Proof/Proofs/StreamConstruction.lean ====
section
/-! `STREAM_NEW` (41_draws R127, R135, R136): the row it builds when each replayed draw is accepted at once, and
its replay as literal draws, redraws included. -/

namespace Sys2Proof.Machine

theorem toNat_replayOperand (s : State) : s.replayOperand = s.block.opb.toNat % 2 ^ 32 := by
  rw [State.replayOperand, BitVec.extractLsb'_toNat, Nat.shiftRight_zero]

/-- Settles O32: the replay starts at counter 0, so it stays within the counter, and each raw draw serves. -/
theorem streamNewBuildsTheReplayedRow : Obligations.StreamNewBuildsTheReplayedRow := by
  intro s sid i hs hi
  rw [← toNat_replayOperand]
  refine ⟨encode_eq_ofNat _, fun hplain => ?_⟩
  have hn : s.replayOperand ≤ 2 ^ 32 - 1 := Nat.le_sub_one_of_lt (BitVec.isLt _)
  have hrow : construct s.params s.seedOperand s.replayOperand (s.row i) =
      .ok () ((Row.seeded s.params s.seedOperand).plainly s.replayOperand) := construct_of_plain hn hplain
  exact (runStream_ready hs hi).trans (congrArg finish (onRow_of_ok hrow))

/-! ### Replay as literal draws -/

section
variable {s t : State} {sid : BitVec 4} {i : StreamId}

/-- A `STREAM_NEW` that answers while `INIT` is 1 has built its row: its replay does not fail. -/
theorem exec_streamNew_next (hs : streamId? sid = some i) (hi : s.block.status.init = true)
    (h : exec (.streamNew sid) s = .next t) :
    ∃ r, replay s.params s.replayOperand (Row.seeded s.params s.seedOperand) = .ok () r ∧
      t = (s.setRow i r).complete := by
  rcases finish_eq_next.1 ((runStream_ready hs hi).symm.trans h) with ⟨u, hu, rfl⟩ | ⟨e, u, hu, -⟩
  · obtain ⟨r, hr, rfl⟩ := streamNewRule_ok.1 hu
    exact ⟨r, hr, rfl⟩
  · exact absurd hu streamNewRule_ne_raised

/-- A `DRAW_RANGE` that ends without an error has drawn. -/
theorem exec_drawRange_completed (hs : streamId? sid = some i) (h : exec (.drawRange sid) s = .next t)
    (herr : t.block.status.err = none) : s.block.status.init = true ∧
      ∃ v r, drawRange s.params s.loOperand s.hiOperand (s.row i) = .ok v r ∧ t.row i = r := by
  rcases exec_eq_next.1 h with ⟨u, hu, rfl⟩ | ⟨e, u, -, rfl⟩
  · obtain ⟨j, hj, hi, hu⟩ := gateStream_ok.1 hu
    cases hs.symm.trans hj
    obtain ⟨v, w, hw, hu⟩ := Res.bind_eq_ok.1 hu
    obtain ⟨r, hr, rfl⟩ := onRow_eq_ok.1 hw
    cases hu
    exact ⟨hi, v, r, hr, setRow_row_same s i r⟩
  · rw [raise_err] at herr
    cases herr

/-- `STREAM_NEW` leaves `INIT`. -/
theorem exec_streamNew_init (h : exec (.streamNew sid) s = .next t) :
    t.block.status.init = s.block.status.init := by
  rcases exec_status h with hst | ⟨e, -, hst⟩
  · rw [hst]; rfl
  · rw [hst, raise_init]

/-- A range draw after a replay makes it one draw longer. -/
theorem replay_succ_of_draw {p : Config} {n : Nat} {r r1 r2 : Row} {v : Int} (h : replay p n r = .ok () r1)
    (hdraw : drawRange p 0 999 r1 = .ok v r2) : replay p (n + 1) r = .ok () r2 := by
  rw [replay_succ', h, Res.bind_ok_left, hdraw, Res.bind_ok_left]

theorem setOpb_replayOperand {n : Nat} (hn : n < 2 ^ 32) (s : State) :
    (s.setOpb (BitVec.ofNat 64 n)).replayOperand = n := by
  rw [toNat_replayOperand, setOpb_opb, BitVec.toNat_ofNat]
  omega

end

/-- Settles O33: a replay of `n + 1` draws is one of `n` draws and the draw that `DRAW_RANGE` makes. -/
theorem replayIsLiteralDraws : Obligations.ReplayIsLiteralDraws := by
  intro s t u v sid i n hs hn ht hu herr hv
  obtain ⟨hinit, x, r2, hdraw, hrow⟩ := exec_drawRange_completed hs hu herr
  have hi : s.block.status.init = true := (exec_streamNew_init ht).symm.trans hinit
  obtain ⟨r1, hreplay, rfl⟩ := exec_streamNew_next (s := s.setOpb (BitVec.ofNat 64 n)) hs hi ht
  obtain ⟨r, hlonger, rfl⟩ := exec_streamNew_next (s := s.setOpb (BitVec.ofNat 64 (n + 1))) hs hi hv
  rw [setOpb_replayOperand (by omega)] at hreplay
  rw [setOpb_replayOperand hn] at hlonger
  rw [setOpb_row, setOpa_row, complete_row, setRow_row_same] at hdraw
  have hsame : r = r2 := by injection hlonger.symm.trans (replay_succ_of_draw hreplay hdraw)
  rw [complete_row, setRow_row_same]
  exact ⟨hsame.trans hrow.symm, (replay_ctr hlonger).trans (Nat.zero_add _)⟩

end Sys2Proof.Machine
end

