-- ==== Sys2Proof/Proofs/CommandFrames.lean ====
section
/-! The frames of the stream commands of 41_draws and of the format N commands: a failing command is precise
(60_exceptions R230), so the frame of each is the frame of its rule when it completes. -/

namespace Sys2Proof.Machine

variable {i : Instr} {s t u : State}

/-- A command that fails precisely keeps its frame if its rule, completing, does. -/
theorem framed_of_ruleOf_ok (hi : ∀ sid, i ≠ .genRewards sid)
    (hok : ∀ u, ruleOf i s = .ok () u → Framed i s u.complete) (h : exec i s = .next t) : Framed i s t := by
  rcases exec_eq_next.1 h with ⟨u, hu, rfl⟩ | ⟨e, u, hu, rfl⟩
  · exact hok u hu
  · rw [ruleOf_raised_precise hi hu]
    exact (raise_changesOnly s e).mono fun _ => .inl

/-! ### The stream commands of 41_draws -/

section
variable {sid : BitVec 4}

theorem streamNew_framed (h : ruleOf (.streamNew sid) s = .ok () u) : Framed (.streamNew sid) s u.complete := by
  obtain ⟨j, hj, -, h⟩ := gateStream_ok.1 h
  obtain ⟨r, -, rfl⟩ := streamNewRule_ok.1 h
  exact ChangesOnly.framed_complete ((setRow_changesOnly s j r).mono fun _ hl => ⟨j, hj, hl⟩)

/-- A draw whose result goes to `RES0` writes its row and `RES0`. -/
theorem drawToRes0_framed {rule : StreamId → State → Res State Unit}
    (hd : destination i s = destination (.drawLong sid) s)
    (hrule : ∀ j u, rule j s = .ok () u → ∃ v k, u = (s.setRow j ((s.row j).drawn k)).setRes0 v)
    (h : gateStream sid rule s = .ok () u) : Framed i s u.complete := by
  obtain ⟨j, hj, -, h⟩ := gateStream_ok.1 h
  obtain ⟨v, k, rfl⟩ := hrule j u h
  have hrow : ChangesOnly (destination i s) s (s.setRow j ((s.row j).drawn k)) :=
    (setRow_changesOnly s j _).mono fun _ hl => hd ▸ .inr ⟨j, hj, hl⟩
  have hres0 : ChangesOnly (destination i s) (s.setRow j ((s.row j).drawn k)) _ :=
    (setRes0_changesOnly _ v).mono fun _ hl => hd ▸ .inl hl
  exact (hrow.trans hres0).framed_complete

end

/-- Settles O31: each rule that completes has written its row, and each but that of `STREAM_NEW` `RES0`. -/
theorem streamDrawsFrame : Obligations.StreamDrawsFrame := by
  intro i sid s t hi h
  simp only [List.mem_cons, List.not_mem_nil, or_false] at hi
  rcases hi with rfl | rfl | rfl | rfl | rfl | rfl | rfl
  · exact framed_of_ruleOf_ok nofun (fun _ => streamNew_framed) h
  · exact framed_of_ruleOf_ok nofun (fun _ => drawToRes0_framed rfl fun _ _ => drawBoundedRule_ok) h
  · exact framed_of_ruleOf_ok nofun (fun _ => drawToRes0_framed rfl fun _ _ => drawRangeRule_ok) h
  · exact framed_of_ruleOf_ok nofun (fun _ => drawToRes0_framed rfl fun _ _ => drawBoolRule_ok) h
  · exact framed_of_ruleOf_ok nofun (fun _ => drawToRes0_framed rfl fun _ _ => drawChanceRule_ok) h
  · exact framed_of_ruleOf_ok nofun (fun _ => drawToRes0_framed rfl fun _ _ => drawFloatRule_ok) h
  · exact framed_of_ruleOf_ok nofun (fun _ => drawToRes0_framed rfl fun _ _ => drawLongRule_ok) h

/-! ### The format N commands -/

theorem initRule_framed (h : initRule s = .ok () u) : Framed .init s u.complete := by
  rw [initRule] at h
  exact rebuild_framed (fun _ => id) h

theorem restoreRule_framed (h : restoreRule s = .ok () u) : Framed .restore s u.complete := by
  rcases Nat.lt_or_ge s.restoreActOperand.toNat s.params.nActs with hlt | hle
  · rw [restoreRule_of_lt hlt] at h
    exact rebuild_framed (fun _ => id) h
  · rw [restoreRule_of_le hle] at h
    cases h

theorem actSeedRule_framed (h : actSeedRule s = .ok () u) : Framed .actSeed s u.complete := by
  rcases Nat.lt_or_ge s.actOperand.toNat s.params.nActs with hlt | hle
  · rw [actSeedRule_of_lt hlt] at h
    cases h
    exact ChangesOnly.framed_complete (((setRow_changesOnly s mapStream _).mono fun _ => .inr).trans
      ((setAct_changesOnly _ _).mono fun _ => .inl))
  · rw [actSeedRule_of_le hle] at h
    cases h

theorem actSnapRule_framed (h : actSnapRule s = .ok () u) : Framed .actSnap s u.complete := by
  rcases actSnapRule_ok h with rfl | ⟨_, r, -, -, rfl⟩
  · exact ChangesOnly.framed_complete (.refl u)
  · exact ChangesOnly.framed_complete (setRow_changesOnly s cardStream r)

theorem rollbackRule_framed (h : rollbackRule s = .ok () u) : Framed .rollback s u.complete := by
  unfold rollbackRule at h
  split at h <;> cases h
  exact ChangesOnly.framed_complete (setMgr_changesOnly s _)

theorem formatN_ruleOf_framed (hn : i.sid? = none) (hc : i ≠ .checkpoint) (h : ruleOf i s = .ok () u) :
    Framed i s u.complete := by
  cases i with
  | nop => cases h; exact ChangesOnly.framed_complete (.refl _)
  | clrerr => cases h; exact ((ChangesOnly.refl s).framed.setStatus _).setStatus _
  | init => exact initRule_framed h
  | restore => exact restoreRule_framed h
  | floorAdv => exact floorAdvRule_framed (gateInit_ok.1 h).2
  | actSeed => exact actSeedRule_framed (gateInit_ok.1 h).2
  | actSnap => exact actSnapRule_framed (gateInit_ok.1 h).2
  | snapshot =>
    obtain ⟨-, h⟩ := gateInit_ok.1 h
    cases h
    exact ChangesOnly.framed_complete (setSnap_changesOnly s _)
  | checkpoint => exact absurd rfl hc
  | rollback => exact rollbackRule_framed h
  | pityReset => cases h; exact ChangesOnly.framed_complete (setPityOffset_changesOnly s _)
  | streamNew | drawBounded | drawRange | drawBool | drawChance | drawFloat | drawLong | shuffle
  | rollRarity | genRewards => cases hn

/-- Settles O45: each rule that completes has written its destinations and, of `CLRERR`, `INIT` and
`RESTORE`, `STATUS`. -/
theorem formatNFrame : Obligations.FormatNFrame := by
  intro i s t hn hc h
  refine framed_of_ruleOf_ok ?_ (fun _ => formatN_ruleOf_framed hn hc) h
  rintro sid rfl
  cases hn

end Sys2Proof.Machine
end
